-- ==== Sys2Proof/Word.lean ====
section
/-! DEFINITION. The machine's words (00_scope.md R4, R5): bytes, 32-bit words, 64-bit words. -/

namespace Sys2Proof

/-- A byte of memory or of the lookup table; a colour channel (`CHAN_BITS = 8`, R4). -/
abbrev Byte := BitVec 8

/-- A pixel word, an address, a host-visible register (`WORD_BITS = ADDR_BITS = 32`, R4). -/
abbrev Word := BitVec 32

/-- The bit pattern of a binary64 value (`WEIGHT_FORMAT`, R4). -/
abbrev DWord := BitVec 64

end Sys2Proof
end

