-- ==== Sys2Proof/Machine/FloatOps.lean ====
section
/-! DEFINITION. The floating-point primitives (00_scope.md R12): IEEE 754 values and the operations on them, round to nearest,
ties to even, subnormals honoured. A finite value is held exactly, as a sign and a whole number of units of the
format's least subnormal; no command stores a floating-point result, so values are decoded and never encoded. -/

namespace Sys2Proof.Machine

/-- A binary interchange format, by the widths of its significand field and its exponent field. -/
structure FpFormat where
  fracBits : Nat
  expBits : Nat
  deriving DecidableEq, Repr

/-- IEEE 754 binary32, `T_FORMAT` (R4). -/
def binary32 : FpFormat := ⟨23, 8⟩

/-- IEEE 754 binary64, `WEIGHT_FORMAT` (R4). -/
def binary64 : FpFormat := ⟨52, 11⟩

/-- Bits of precision, the hidden bit included: 24, 53. -/
def FpFormat.prec (f : FpFormat) : Nat := f.fracBits + 1

/-- `scale` such that the least subnormal is `2^(-scale)`: 149, 1074. -/
def FpFormat.scale (f : FpFormat) : Nat := 2 ^ (f.expBits - 1) - 2 + f.fracBits

/-- In units of the least subnormal, the first power of two beyond the finite range: `2^(128 + 149)`, `2^(1024 + 1074)`. -/
def FpFormat.limit (f : FpFormat) : Nat := 2 ^ (2 ^ (f.expBits - 1) + f.scale)

/-- A floating-point value. All NaNs are one value: which NaN an operation gives is not specified and nothing depends
on it (R12; log 21). `fin neg mag` is `mag` units of the least subnormal, negated when `neg`. -/
inductive Fp where
  | nan
  | inf (neg : Bool)
  | fin (neg : Bool) (mag : Nat)
  deriving DecidableEq, Repr

/-- The value of a bit pattern. -/
def FpFormat.decode (f : FpFormat) (bits : Nat) : Fp :=
  let frac := bits % 2 ^ f.fracBits
  let exp := bits / 2 ^ f.fracBits % 2 ^ f.expBits
  let neg := decide (bits / 2 ^ (f.fracBits + f.expBits) % 2 = 1)
  if exp = 2 ^ f.expBits - 1 then (if frac = 0 then .inf neg else .nan)
  else if exp = 0 then .fin neg frac
  else .fin neg ((2 ^ f.fracBits + frac) * 2 ^ (exp - 1))

/-- The exact conversion of an integer `0 .. 255` (`f32_of_int`, `f64_of_int`, R12). -/
def FpFormat.ofNat (f : FpFormat) (n : Nat) : Fp := .fin false (n * 2 ^ f.scale)

/-- `m / 2^k` rounded to the nearest integer, a tie to the even one. -/
def roundNearestEven (m k : Nat) : Nat :=
  let q := m / 2 ^ k
  let twice := 2 * (m % 2 ^ k)
  if 2 ^ k < twice ∨ (twice = 2 ^ k ∧ q % 2 = 1) then q + 1 else q

/-- Round the exact magnitude `m / 2^d` (in units of the least subnormal) to the format: keep `prec` significant
bits, but no bit below one unit; beyond the finite range the result is an infinity. -/
def FpFormat.round (f : FpFormat) (neg : Bool) (m d : Nat) : Fp :=
  let drop := max d (Nat.log2 m + 1 - f.prec)
  let mag := roundNearestEven m drop * 2 ^ (drop - d)
  if f.limit ≤ mag then .inf neg else .fin neg mag

/-- The value with the other sign. -/
def Fp.neg : Fp → Fp
  | .nan => .nan
  | .inf n => .inf (!n)
  | .fin n m => .fin (!n) m

/-- Addition (`fadd32`, `fadd64`, R12). An exact zero sum is `+0` unless both operands are negative. -/
def FpFormat.add (f : FpFormat) : Fp → Fp → Fp
  | .nan, _ => .nan
  | _, .nan => .nan
  | .inf a, .inf b => if a = b then .inf a else .nan
  | .inf a, .fin _ _ => .inf a
  | .fin _ _, .inf b => .inf b
  | .fin a m, .fin b n =>
    if a = b then f.round a (m + n) 0
    else if n < m then f.round a (m - n) 0
    else if m < n then f.round b (n - m) 0
    else .fin false 0

/-- Subtraction (`fsub32`, R12). -/
def FpFormat.sub (f : FpFormat) (x y : Fp) : Fp := f.add x y.neg

/-- Multiplication (`fmul32`, `fmul64`, R12). -/
def FpFormat.mul (f : FpFormat) : Fp → Fp → Fp
  | .nan, _ => .nan
  | _, .nan => .nan
  | .inf a, .inf b => .inf (a != b)
  | .inf a, .fin b n => if n = 0 then .nan else .inf (a != b)
  | .fin a m, .inf b => if m = 0 then .nan else .inf (a != b)
  | .fin a m, .fin b n => f.round (a != b) (m * n) f.scale

/-- `isFinite(z)` (R12). -/
def Fp.isFinite : Fp → Bool
  | .fin _ _ => true
  | _ => false

/-- `trunc(z)` of a finite value (R12): the magnitude's floor with the same sign. -/
def FpFormat.trunc (f : FpFormat) (neg : Bool) (mag : Nat) : Int :=
  if neg then -((mag / 2 ^ f.scale : Nat) : Int) else ((mag / 2 ^ f.scale : Nat) : Int)

/-- `rha(z)` of a finite value (R12): the nearest integer, a tie away from zero, computed exactly. -/
def FpFormat.roundHalfAway (f : FpFormat) (neg : Bool) (mag : Nat) : Int :=
  let n := (2 * mag + 2 ^ f.scale) / 2 ^ (f.scale + 1)
  if neg then -((n : Nat) : Int) else ((n : Nat) : Int)

end Sys2Proof.Machine
end

