-- ==== Sys2Proof/Config.lean ====
section
/-! DEFINITION. What every implementation of this hardware fixes alike (00_scope.md R4), and the free values: opaque
constants for what the spec leaves unspecified. Nothing can be proved of a free value, so a claim that involves one
holds whatever it is. Each is applied to the counter `freeCount` of State, which advances whenever one is used. -/

namespace Sys2Proof

/-- `KERNEL_MAX_ELEMS` (R4). -/
def Config.kernelMaxElems : Nat := 1024

/-- `DESC_BYTES` (R4). -/
def Config.descBytes : Nat := 64

/-- The size of the 32-bit address space in bytes (R4, R52). -/
def Config.spaceBytes : Nat := 2 ^ 32

/-- The byte an address of a written region holds after an imprecise fault or a reset during the command
(R247, R283, UB1; log 9): free in the event's number and the address. -/
opaque Config.freeByte : Nat → Nat → Byte

/-- A byte of the lookup table after reset or after a LUTLD that faulted in its transfer (R281, R247, UB5; log 11). -/
opaque Config.freeLutByte : Nat → Nat → Byte

/-- A word of the descriptor latch after reset, HALT or a fault (R281, UB6; log 11). -/
opaque Config.freeDescWord : Nat → Nat → Word

/-- Which of several allowed values is meant: the address a BUS reports (UB2; log 10), the word a host read of a
region in flight returns (UB3; log 18). -/
opaque Config.freePick : Nat → Nat

/-- Whether a LERP stopped by BUS had set `OOR` (R247, UB7; log 12). -/
opaque Config.freeBit : Nat → Bool

end Sys2Proof
end

