-- ==== Sys2Proof/Syntax.lean ====
section
/-! DEFINITION. The command set (30_encoding.md): the eight commands with their operand values, and the descriptor
that carries one. -/

namespace Sys2Proof

/-- The eight commands of the opcode map (R110), operands in the order of the assembler syntax (R115).
Addresses are words (R113); `count` and the extents are numbers, `blur` is a signed number; `t` is a binary32 bit
pattern, `factor` and `bias` are binary64 bit patterns. `wellFormed` says which numbers an encoding can carry. -/
inductive Instr where
  /-- HALT, format Z (R104, R136). -/
  | halt
  /-- RGB2HSV, format P (R105, R144). -/
  | rgb2hsv (dst src : Word) (count : Nat)
  /-- HSV2RGB, format P (R105, R148). -/
  | hsv2rgb (dst src : Word) (count : Nat)
  /-- LERP, format L (R106, R142). -/
  | lerp (dst srcA srcB : Word) (count : Nat) (t : BitVec 32)
  /-- LUTLD, format T (R107, R160). -/
  | lutld (src : Word)
  /-- GAMMA, format P (R105, R163). -/
  | gamma (dst src : Word) (count : Nat)
  /-- RESIZE, format R (R108, R180). -/
  | resize (dst : Word) (dstW dstH : Nat) (src : Word) (srcW srcH : Nat) (blur : Int) (scratch : Word)
  /-- CONV, format C (R109, R200). -/
  | conv (dst src : Word) (w h : Nat) (kernel : Word) (kw kh : Nat) (factor bias : DWord)
  deriving DecidableEq, Repr

/-- The opcode names of the opcode map (R110), without operands. -/
inductive Opcode where
  | halt | rgb2hsv | hsv2rgb | lerp | lutld | gamma | resize | conv
  deriving DecidableEq, Repr

/-- The six descriptor formats (R104 to R109). -/
inductive Format where
  | z | p | l | t | r | c
  deriving DecidableEq, Repr

/-- A command descriptor: sixteen 32-bit words `W0 .. W15` (R100), as the latch `DESC` holds them (R33). -/
structure Desc where
  w0 : Word
  w1 : Word
  w2 : Word
  w3 : Word
  w4 : Word
  w5 : Word
  w6 : Word
  w7 : Word
  w8 : Word
  w9 : Word
  w10 : Word
  w11 : Word
  w12 : Word
  w13 : Word
  w14 : Word
  w15 : Word
  deriving DecidableEq, Repr

end Sys2Proof
end

