-- ==== Sys2Proof/WellFormed.lean ====
section
/-! DEFINITION. Which commands an encoding can carry: every number fits its field (30_encoding.md R103, R113). -/

namespace Sys2Proof

/-- An element count fits the 32-bit field `COUNT` (R103). -/
def fitsCount (n : Nat) : Bool := decide (n < 2 ^ 32)

/-- An extent fits its 16-bit half word (R103). The value 0 fits; it is illegal only at validation (R113, DIM). -/
def fitsExtent (n : Nat) : Bool := decide (n < 2 ^ 16)

/-- `BLUR` fits a two's-complement 32-bit word (R108). -/
def fitsSigned (b : Int) : Bool := decide (-(2 ^ 31) ≤ b) && decide (b < 2 ^ 31)

/-- Every numeric operand fits its field. -/
def Instr.wellFormed : Instr → Bool
  | .halt => true
  | .rgb2hsv _ _ count => fitsCount count
  | .hsv2rgb _ _ count => fitsCount count
  | .lerp _ _ _ count _ => fitsCount count
  | .lutld _ => true
  | .gamma _ _ count => fitsCount count
  | .resize _ dstW dstH _ srcW srcH blur _ =>
    fitsExtent dstW && fitsExtent dstH && fitsExtent srcW && fitsExtent srcH && fitsSigned blur
  | .conv _ _ w h _ kw kh _ _ => fitsExtent w && fitsExtent h && fitsExtent kw && fitsExtent kh

end Sys2Proof
end

