-- ==== Sys2Proof/Decode.lean ====
section
/-! DEFINITION. Decoding and encoding of descriptors (30_encoding.md). Decoding is total (R114): any sixteen words give a
command, ILLEGAL_OPCODE or RESERVED_FIELD. -/

namespace Sys2Proof

/-- Why a descriptor is no command: R111, R112; `truncated` is the byte-level decoder's answer to fewer than 64 bytes. -/
inductive DecodeError where
  | illegalOpcode (w0 : Word)
  | reservedField (index : Nat)
  | truncated
  deriving DecidableEq, Repr

/-! ### The opcode map -/

/-- The opcode map (R110): `W0` and the command it selects. Every mask is all ones. -/
def opcodeTable : List (Word × Opcode) :=
  [(0x01, .halt), (0x10, .rgb2hsv), (0x11, .hsv2rgb), (0x12, .lerp), (0x20, .lutld), (0x21, .gamma), (0x30, .resize),
   (0x40, .conv)]

/-- The command that the header word `W0` selects (R101, R110); all 32 bits are compared (R111). -/
def Opcode.ofHeader (w0 : Word) : Option Opcode :=
  (opcodeTable.find? fun row => row.1 == w0).map fun row => row.2

/-- The header word of a command (R110). -/
def Opcode.header : Opcode → Word
  | .halt => 0x01
  | .rgb2hsv => 0x10
  | .hsv2rgb => 0x11
  | .lerp => 0x12
  | .lutld => 0x20
  | .gamma => 0x21
  | .resize => 0x30
  | .conv => 0x40

/-- The format of a command (R110). -/
def Opcode.format : Opcode → Format
  | .halt => .z
  | .rgb2hsv => .p
  | .hsv2rgb => .p
  | .lerp => .l
  | .lutld => .t
  | .gamma => .p
  | .resize => .r
  | .conv => .c

/-! ### Words, fields, bytes of a descriptor -/

/-- The sixteen words in order. -/
def Desc.words (d : Desc) : List Word :=
  [d.w0, d.w1, d.w2, d.w3, d.w4, d.w5, d.w6, d.w7, d.w8, d.w9, d.w10, d.w11, d.w12, d.w13, d.w14, d.w15]

/-- The descriptor whose word `i` is `f i`. -/
def Desc.ofFn (f : Nat → Word) : Desc :=
  ⟨f 0, f 1, f 2, f 3, f 4, f 5, f 6, f 7, f 8, f 9, f 10, f 11, f 12, f 13, f 14, f 15⟩

/-- The lower half word, an extent (R103). -/
def loHalf (w : Word) : Nat := (w.extractLsb' 0 16).toNat

/-- The upper half word, an extent (R103). -/
def hiHalf (w : Word) : Nat := (w.extractLsb' 16 16).toNat

/-- The word with extents `lo` in 15:0 and `hi` in 31:16. -/
def halves (lo hi : Nat) : Word := BitVec.ofNat 16 hi ++ BitVec.ofNat 16 lo

/-- The words a format requires to be zero, with their indices, ascending (R109's summary table). -/
def Format.reservedWords (d : Desc) : Format → List (Nat × Word)
  | .z => [(1, d.w1), (2, d.w2), (3, d.w3), (4, d.w4), (5, d.w5), (6, d.w6), (7, d.w7), (8, d.w8), (9, d.w9),
           (10, d.w10), (11, d.w11), (12, d.w12), (13, d.w13), (14, d.w14), (15, d.w15)]
  | .p => [(3, d.w3), (5, d.w5), (6, d.w6), (7, d.w7), (8, d.w8), (9, d.w9), (10, d.w10), (11, d.w11), (12, d.w12),
           (13, d.w13), (14, d.w14), (15, d.w15)]
  | .l => [(5, d.w5), (7, d.w7), (8, d.w8), (9, d.w9), (10, d.w10), (11, d.w11), (12, d.w12), (13, d.w13),
           (14, d.w14), (15, d.w15)]
  | .t => [(2, d.w2), (3, d.w3), (4, d.w4), (5, d.w5), (6, d.w6), (7, d.w7), (8, d.w8), (9, d.w9), (10, d.w10),
           (11, d.w11), (12, d.w12), (13, d.w13), (14, d.w14), (15, d.w15)]
  | .r => [(7, d.w7), (8, d.w8), (9, d.w9), (10, d.w10), (11, d.w11), (12, d.w12), (13, d.w13), (14, d.w14),
           (15, d.w15)]
  | .c => [(6, d.w6), (7, d.w7), (12, d.w12), (13, d.w13), (14, d.w14), (15, d.w15)]

/-- The index of the lowest-numbered non-zero reserved word (R112). -/
def Format.firstReserved (f : Format) (d : Desc) : Option Nat :=
  ((f.reservedWords d).find? fun p => p.2 != 0).map fun p => p.1

/-- The command with its operands taken from their fields (R103, R113). -/
def Opcode.operands (d : Desc) : Opcode → Instr
  | .halt => .halt
  | .rgb2hsv => .rgb2hsv d.w2 d.w1 d.w4.toNat
  | .hsv2rgb => .hsv2rgb d.w2 d.w1 d.w4.toNat
  | .lerp => .lerp d.w2 d.w1 d.w3 d.w4.toNat d.w6
  | .lutld => .lutld d.w1
  | .gamma => .gamma d.w2 d.w1 d.w4.toNat
  | .resize => .resize d.w2 (loHalf d.w5) (hiHalf d.w5) d.w1 (loHalf d.w4) (hiHalf d.w4) d.w6.toInt d.w3
  | .conv => .conv d.w2 d.w1 (loHalf d.w4) (hiHalf d.w4) d.w3 (loHalf d.w5) (hiHalf d.w5) (d.w9 ++ d.w8) (d.w11 ++ d.w10)

/-- Decoding (R114): first the header word (R111), then the reserved words in ascending index (R112). -/
def decode (d : Desc) : Except DecodeError Instr :=
  match Opcode.ofHeader d.w0 with
  | none => .error (.illegalOpcode d.w0)
  | some op =>
    match op.format.firstReserved d with
    | some k => .error (.reservedField k)
    | none => .ok (op.operands d)

/-- The four bytes of a word, least significant first (R70, R79). -/
def wordBytes (w : Word) : List Byte :=
  [w.extractLsb' 0 8, w.extractLsb' 8 8, w.extractLsb' 16 8, w.extractLsb' 24 8]

/-- The 64 bytes of a descriptor as they lie in memory (R79, R100). -/
def Desc.toBytes (d : Desc) : List Byte := d.words.flatMap wordBytes

/-- Take one little-endian word off a list of bytes. -/
def takeWord : List Byte → Option (Word × List Byte)
  | b0 :: b1 :: b2 :: b3 :: rest => some (b3 ++ b2 ++ b1 ++ b0, rest)
  | _ => none

/-- Take `n` little-endian words off a list of bytes. -/
def takeWords : Nat → List Byte → Option (List Word × List Byte)
  | 0, bs => some ([], bs)
  | n + 1, bs =>
    match takeWord bs with
    | none => none
    | some (w, rest) =>
      match takeWords n rest with
      | none => none
      | some (ws, rest') => some (w :: ws, rest')

/-- Decode the descriptor at the head of a list of bytes; the rest of the list follows it. -/
def decodeBytes (bs : List Byte) : Except DecodeError (Instr × List Byte) :=
  match takeWords 16 bs with
  | none => .error .truncated
  | some (ws, rest) =>
    match decode (Desc.ofFn fun k => ws.getD k 0) with
    | .ok i => .ok (i, rest)
    | .error e => .error e

/-! ### Encoding -/

/-- A descriptor with header `w0` and every other word zero. -/
def Desc.blank (w0 : Word) : Desc := { Desc.ofFn (fun _ => 0) with w0 := w0 }

/-- The descriptor of a command, every reserved word zero (R104 to R109). -/
def encode : Instr → Desc
  | .halt => Desc.blank Opcode.halt.header
  | .rgb2hsv dst src count =>
    { Desc.blank Opcode.rgb2hsv.header with w1 := src, w2 := dst, w4 := BitVec.ofNat 32 count }
  | .hsv2rgb dst src count =>
    { Desc.blank Opcode.hsv2rgb.header with w1 := src, w2 := dst, w4 := BitVec.ofNat 32 count }
  | .lerp dst srcA srcB count t =>
    { Desc.blank Opcode.lerp.header with w1 := srcA, w2 := dst, w3 := srcB, w4 := BitVec.ofNat 32 count, w6 := t }
  | .lutld src => { Desc.blank Opcode.lutld.header with w1 := src }
  | .gamma dst src count =>
    { Desc.blank Opcode.gamma.header with w1 := src, w2 := dst, w4 := BitVec.ofNat 32 count }
  | .resize dst dstW dstH src srcW srcH blur scratch =>
    { Desc.blank Opcode.resize.header with
      w1 := src, w2 := dst, w3 := scratch, w4 := halves srcW srcH, w5 := halves dstW dstH, w6 := BitVec.ofInt 32 blur }
  | .conv dst src w h kernel kw kh factor bias =>
    { Desc.blank Opcode.conv.header with
      w1 := src, w2 := dst, w3 := kernel, w4 := halves w h, w5 := halves kw kh,
      w8 := factor.extractLsb' 0 32, w9 := factor.extractLsb' 32 32,
      w10 := bias.extractLsb' 0 32, w11 := bias.extractLsb' 32 32 }

/-! ### The opcode table's numbering -/

/-- The descriptor whose bits are the low `nbits` bits of `w`, bit 0 the least significant of `W0`, word `i` in bits
`32 i + 31 .. 32 i`; every bit above `nbits` is 0. -/
def descOfBits (nbits w : Nat) : Desc :=
  Desc.ofFn fun k => BitVec.ofNat 32 ((w % 2 ^ nbits) >>> (32 * k))

/-- The command the decoder reads from the descriptor with those bits, laid out as bytes in memory order. -/
def decodeTableWord (nbits w : Nat) : Option Instr :=
  match decodeBytes (descOfBits nbits w).toBytes with
  | .ok (i, _) => some i
  | .error _ => none

end Sys2Proof
end

