-- ==== Sys2Proof/Machine/State.lean ====
section
/-! DEFINITION. The state of the machine (10_state.md R30), as plain data, and what it is right after reset (R55). -/

namespace Sys2Proof.Machine

/-- System memory (R52): the listed bytes, addresses strictly rising and no entry equal to what an unlisted address
reads as (`Memory.wf`). -/
abbrev Memory := List Host.Cell

/-- The kinds of access `MEM_OK` distinguishes (R4, R83). -/
inductive AccessKind where
  | fetch | read | write
  deriving DecidableEq, Repr

/-- One access of the core's master port: `bytes` bytes at `addr` (R9). -/
structure Access where
  kind : AccessKind
  addr : Nat
  bytes : Nat
  deriving DecidableEq, Repr

/-- Accesses the platform refuses: those of this kind and size at an address in `first .. last`. A finite list of
these expresses any predicate `MEM_OK(addr, n, kind)` (R4). -/
structure Denial where
  kind : AccessKind
  bytes : Nat
  first : Nat
  last : Nat
  deriving DecidableEq, Repr

/-- The open parameters of the hardware (R4, R54). No step changes them (log 4). -/
structure Platform where
  /-- `L - 8`; `L = LUT_ADDR_BITS` is in `8 .. 16`. -/
  lutExtra : Fin 9
  /-- Where `MEM_OK` is false. -/
  denied : List Denial
  /-- `MMIO_BASE` when the register window is reachable in the master port's address map (R84), `none` when not. -/
  window : Option Word
  deriving DecidableEq, Repr

/-- `L = LUT_ADDR_BITS` (R4). -/
def Platform.lutAddrBits (p : Platform) : Nat := 8 + p.lutExtra.val

/-- One move of one agent (R15): the core's step, the input `rst`, or one access of the host. -/
inductive Turn where
  /-- The core takes its step, if it is running (R135). -/
  | core
  /-- The input `rst` is asserted and released (R280). -/
  | rst
  /-- The host reads `bytes` bytes at an offset of the register window (R34, R46). -/
  | regRead (offset : BitVec 8) (bytes : Nat)
  /-- The host writes `value` to `bytes` bytes at an offset of the register window (R34, R46). -/
  | regWrite (offset : BitVec 8) (bytes : Nat) (value : Word)
  /-- The host reads the aligned word of memory that holds the byte at `addr` (R82, R88; log 16). -/
  | memRead (addr : Nat)
  /-- The host writes the selected byte lanes of the aligned word that holds the byte at `addr` (R82, R88; log 16). -/
  | memWrite (addr : Nat) (lanes : BitVec 4) (value : Word)
  deriving DecidableEq, Repr

/-- The causes of an architectural fault (60_exceptions.md R241). -/
inductive Cause where
  | illegalOpcode | reservedField | fetchAlign | fetchBus | cpWrap
  | align | dim | range | aliased | upsample | nullScratch | kernelSize | nonfinite | lutInvalid
  | bus | numeric
  deriving DecidableEq, Repr

/-- A fault about to be raised: its cause and the value of `ERR_INFO` (R11). -/
structure Raised where
  cause : Cause
  info : Word
  deriving DecidableEq, Repr

/-- Why the MODEL stops with a fault. The machine's own faults (R241) are next states and none of these. -/
inductive Fault where
  /-- Raised by a host memory access (`Turn.memRead`, `Turn.memWrite`) at an address of `2^32` or more, which does not
  exist (R52). No command raises it. Safe: no behaviour of the hardware is claimed. -/
  | noSuchAddress (addr : Nat)
  deriving DecidableEq, Repr

/-- What the MODEL gives no meaning to. No command is refused. -/
inductive Refusal where
  /-- An instruction without a meaning. No arm of `exec` answers it. Safe. -/
  | notModelled (mnemonic : String)
  /-- Raised by a host access to the register window that is not an aligned 32-bit one (R46, UB9; log 20). Safe. -/
  | registerAccessNotAligned32 (offset : BitVec 8) (bytes : Nat)
  /-- Raised by a host write to memory, while BUSY, into a region or a descriptor of the running list
  (R290, UB4; log 17). Safe. -/
  | hostWriteInFlight (addr : Nat)
  deriving DecidableEq, Repr

/-- The machine (R30), the parameters it is built with (R54), and the model's own fields. -/
structure State where
  /-- System memory (R52). -/
  mem : Memory
  /-- Command pointer (R40). -/
  cp : Word
  /-- `STATUS.BUSY` (R38). -/
  busy : Bool
  /-- `STATUS.DONE` (R38). -/
  done : Bool
  /-- `STATUS.ERR` (R38). -/
  err : Bool
  /-- `STATUS.LUTV` (R38, R51). -/
  lutv : Bool
  /-- `STATUS.OOR` (R38, R39). -/
  oor : Bool
  /-- `IRQ_EN.DONE_IE` (R41). -/
  doneIe : Bool
  /-- `IRQ_EN.ERR_IE` (R41). -/
  errIe : Bool
  /-- `ERR_CODE[7:0]` (R42). -/
  errCode : BitVec 8
  /-- `ERR_CP` (R43). -/
  errCp : Word
  /-- `ERR_INFO` (R44). -/
  errInfo : Word
  /-- The lookup table, `2^L` bytes (R50). -/
  lut : List Byte
  /-- The descriptor latch (R33). -/
  desc : Desc
  /-- The parameters (R54; log 4). Not state of the machine. -/
  platform : Platform
  /-- The model's own: the agents' next moves; when empty the core moves (log 5). -/
  turns : List Turn
  /-- The model's own: the word the host's last read returned (log 7). -/
  readData : Word
  /-- The model's own: the counter the free values are applied to (log 8). -/
  freeCount : Nat
  deriving DecidableEq, Repr

/-- The reference parameters: `L = 8`, every access allowed, the register window not reachable by the master port
(R4, R83; DESIGN CHOICE, log 4). -/
def Platform.reference : Platform := { lutExtra := 0, denied := [], window := none }

/-- The machine right after reset (R55, R280): every register 0, the core idle. The zeros of `lut` and `desc` are
DESIGN CHOICES (logs 2, 3), as are the parameters (log 4) and the model's own fields (logs 5, 7, 8). -/
def State.reset : State where
  mem := []
  cp := 0
  busy := false
  done := false
  err := false
  lutv := false
  oor := false
  doneIe := false
  errIe := false
  errCode := 0
  errCp := 0
  errInfo := 0
  lut := List.replicate 256 0
  desc := ⟨0, 0, 0, 0, 0, 0, 0, 0, 0, 0, 0, 0, 0, 0, 0, 0⟩
  platform := Platform.reference
  turns := []
  readData := 0
  freeCount := 0

end Sys2Proof.Machine
end

