-- ==== Sys2Proof/Machine/Ops.lean ====
section
/-! DEFINITION. The operations the commands share: reading and writing memory (20_memory.md), the platform's access
predicate, regions, free values, raising a fault (60_exceptions.md R245) and going on to the next descriptor. -/

namespace Sys2Proof.Machine

/-! ### Memory, one byte at a time -/

/-- What a byte of memory that nothing has written reads as (DESIGN CHOICE, log 1). -/
def Memory.unlisted : Byte := 0

/-- The byte at an address (R52). -/
def Memory.read (m : Memory) (a : Nat) : Byte :=
  match m with
  | [] => Memory.unlisted
  | c :: rest => if c.1 = a then c.2 else Memory.read rest a

/-- Memory without an entry for `a`. -/
def Memory.erase (m : Memory) (a : Nat) : Memory :=
  match m with
  | [] => []
  | c :: rest => if c.1 = a then Memory.erase rest a else c :: Memory.erase rest a

/-- Place an entry before the first greater address. -/
def Memory.place (m : Memory) (a : Nat) (b : Byte) : Memory :=
  match m with
  | [] => [(a, b)]
  | c :: rest => if a < c.1 then (a, b) :: c :: rest else c :: Memory.place rest a b

/-- Write one byte; writing what an unlisted address reads as removes the entry. -/
def Memory.write (m : Memory) (a : Nat) (b : Byte) : Memory :=
  if b = Memory.unlisted then m.erase a else (m.erase a).place a b

/-- The canonical form of memory: addresses strictly rising, no entry equal to what an unlisted address reads as. -/
abbrev Memory.wf (m : Memory) : Prop :=
  m.Pairwise (fun c d => c.1 < d.1) ∧ ∀ c ∈ m, c.2 ≠ Memory.unlisted

/-! ### Wider accesses, little-endian (R9, R70) -/

/-- `MemRead(addr, n)`: the number in `n` bytes, least significant byte at `a` (R9). -/
def Memory.readLE (m : Memory) (a : Nat) : Nat → Nat
  | 0 => 0
  | n + 1 => (m.read a).toNat + 256 * Memory.readLE m (a + 1) n

/-- `MemWrite(addr, n, v)`: store the low `8 n` bits of `v`, least significant byte at `a` (R9). -/
def Memory.writeLE (m : Memory) (a : Nat) : Nat → Nat → Memory
  | 0, _ => m
  | n + 1, v => Memory.writeLE (m.write a (BitVec.ofNat 8 v)) (a + 1) n (v / 256)

/-- Read an aligned or unaligned 32-bit word. -/
def Memory.read32 (m : Memory) (a : Nat) : Word := BitVec.ofNat 32 (m.readLE a 4)

/-- Read a 64-bit word. -/
def Memory.read64 (m : Memory) (a : Nat) : DWord := BitVec.ofNat 64 (m.readLE a 8)

/-- Write a 32-bit word. -/
def Memory.write32 (m : Memory) (a : Nat) (w : Word) : Memory := m.writeLE a 4 w.toNat

/-- Store a list of bytes at ascending addresses. -/
def Memory.writeBytes (m : Memory) (a : Nat) : List Byte → Memory
  | [] => m
  | b :: bs => Memory.writeBytes (m.write a b) (a + 1) bs

/-! ### Regions (R13) -/

/-- `Region(base, nbytes)` (R13). -/
structure Region where
  base : Nat
  size : Nat
  deriving DecidableEq, Repr

/-- The address lies in the region. -/
abbrev Region.has (r : Region) (a : Nat) : Prop := r.base ≤ a ∧ a < r.base + r.size

/-- The region ends at or below `2^32` (R13, R85). -/
def Region.inRange (r : Region) : Bool := decide (r.base + r.size ≤ Config.spaceBytes)

/-- Two regions overlap: both non-empty and with an address in common (R13). -/
def Region.overlaps (r q : Region) : Bool :=
  decide (0 < r.size) && decide (0 < q.size) && decide (r.base < q.base + q.size) && decide (q.base < r.base + r.size)

/-! ### The platform's access predicate (R83, R84) -/

/-- The denial covers the access: same kind, same size, address within its bounds. -/
def Denial.covers (d : Denial) (a : Access) : Bool :=
  d.kind == a.kind && d.bytes == a.bytes && decide (d.first ≤ a.addr) && decide (a.addr ≤ d.last)

/-- The access touches the register window in the master port's address map (R84; log 25). -/
def Platform.hitsWindow (p : Platform) (a : Access) : Bool :=
  match p.window with
  | none => false
  | some base => Region.overlaps ⟨base.toNat, 256⟩ ⟨a.addr, a.bytes⟩

/-- `MEM_OK(addr, n, kind)` (R83): not refused by the platform and not the register window (R84). -/
def Platform.memOk (p : Platform) (a : Access) : Bool :=
  !(p.denied.any fun d => d.covers a) && !p.hitsWindow a

/-- The addresses of those accesses that the platform refuses, in order. -/
def State.refused (s : State) (accs : List Access) : List Word :=
  (accs.filter fun a => !s.platform.memOk a).map fun a => BitVec.ofNat 32 a.addr

/-! ### Free values -/

/-- Every byte of a region replaced by a free one (R247, UB1; log 9). -/
def Memory.havoc (m : Memory) (k : Nat) (r : Region) : Memory :=
  (List.range r.size).foldl (fun m j => m.write (r.base + j) (Config.freeByte k (r.base + j))) m

/-- Every byte of the regions becomes a free value; nothing else of memory changes (R247, R283, UB1; log 9). -/
def State.havoc (s : State) (rs : List Region) : State :=
  { s with mem := rs.foldl (fun m r => m.havoc s.freeCount r) s.mem }

/-- The latch with sixteen free words (UB6; log 11). -/
def freeDesc (k : Nat) : Desc := Desc.ofFn (Config.freeDescWord k)

/-- A table of `2^L` free bytes (UB5; log 11). -/
def freeLut (p : Platform) (k : Nat) : List Byte :=
  (List.range (2 ^ p.lutAddrBits)).map (Config.freeLutByte k)

/-- The latch's contents are no longer specified (UB6; log 11); the counter of the free values goes on. -/
def State.forgetDesc (s : State) : State :=
  { s with desc := freeDesc s.freeCount, freeCount := s.freeCount + 1 }

/-- One of several allowed words, a free choice among them. -/
def pickWord (k : Nat) (ws : List Word) : Word := ws.getD (Config.freePick k % ws.length) 0

/-! ### Taking a fault, going on -/

/-- The code of a fault (R241). -/
def Cause.code : Cause → BitVec 8
  | .illegalOpcode => 0x01
  | .reservedField => 0x02
  | .fetchAlign => 0x03
  | .fetchBus => 0x04
  | .cpWrap => 0x05
  | .align => 0x10
  | .dim => 0x11
  | .range => 0x12
  | .aliased => 0x13
  | .upsample => 0x14
  | .nullScratch => 0x15
  | .kernelSize => 0x16
  | .nonfinite => 0x17
  | .lutInvalid => 0x18
  | .bus => 0x20
  | .numeric => 0x21

/-- Raising a fault (R245), one indivisible update: the code, `CP` and the detail are recorded, the core stops; `CP`,
`DONE`, `LUTV` and `OOR` keep their values. The latch is then unspecified (UB6). -/
def State.raise (s : State) (r : Raised) : State :=
  { s.forgetDesc with errCode := r.cause.code, errCp := s.cp, errInfo := r.info, busy := false, err := true }

/-- `CP <- CP + 64` after a command other than HALT (R134). -/
def State.advance (s : State) : State := { s with cp := s.cp + 64 }

/-- The end of a command whose accesses are `accs`: when the platform refuses none of them, `finished` with `CP`
advanced (R134); when it refuses some, an imprecise BUS (R247) from `broken`, which holds the command's unspecified
results, reporting the address of one of the refused accesses (UB2; log 10). -/
def finish (s : State) (accs : List Access) (finished broken : State) : Host.Outcome State Fault Refusal :=
  match s.refused accs with
  | [] => .next finished.advance
  | bad => .next (broken.raise ⟨.bus, pickWord s.freeCount bad⟩)

end Sys2Proof.Machine
end

