-- ==== Sys2Proof/Machine/Operands.lean ====
section
/-! DEFINITION. The operand forms of the commands: colour words (00_scope.md R8), pixel buffers, linear colour records,
kernels and the table image in memory (20_memory.md R72 to R79), and the address forms of every element. -/

namespace Sys2Proof.Machine

/-! ### Colour words (R8, R72, R74) -/

/-- Channel 0 (`r` or `h`), bits 7:0. -/
def ch0 (w : Word) : Nat := w.toNat % 256

/-- Channel 1 (`g` or `s`), bits 15:8. -/
def ch1 (w : Word) : Nat := w.toNat / 256 % 256

/-- Channel 2 (`b` or `v`), bits 23:16. Bits 31:24 are not read (R73). -/
def ch2 (w : Word) : Nat := w.toNat / 65536 % 256

/-- `pack3(c0, c1, c2)` (R8): bits 31:24 are 0 (R73). -/
def pack3 (c0 c1 c2 : Nat) : Word := BitVec.ofNat 32 (c0 + 256 * c1 + 65536 * c2)

/-! ### Element addresses and accesses -/

/-- Byte address of element `k` of a buffer of 4-byte words (`PIX`, R9, R76). -/
def pixAddr (base : Word) (k : Nat) : Nat := base.toNat + 4 * k

/-- Byte address of record `k` of a buffer of 8-byte linear colour records (R77), or of weight `k` of a kernel (R78). -/
def recAddr (base : Word) (k : Nat) : Nat := base.toNat + 8 * k

/-- `PIX(base, k)` (R9). -/
def Memory.pix (m : Memory) (base : Word) (k : Nat) : Word := m.read32 (pixAddr base k)

/-- `PIX(base, k) <- w` (R9). -/
def Memory.setPix (m : Memory) (base : Word) (k : Nat) (w : Word) : Memory := m.write32 (pixAddr base k) w

/-- The access that reads pixel `k`. -/
def readPix (base : Word) (k : Nat) : Access := ⟨.read, pixAddr base k, 4⟩

/-- The access that writes pixel `k`. -/
def writePix (base : Word) (k : Nat) : Access := ⟨.write, pixAddr base k, 4⟩

/-- The access that reads an 8-byte element (log 14). -/
def readRec (base : Word) (k : Nat) : Access := ⟨.read, recAddr base k, 8⟩

/-- The access that reads byte `k` of a table image (R79; log 14). -/
def readByteOf (base : Word) (k : Nat) : Access := ⟨.read, base.toNat + k, 1⟩

/-- `Region(base, 4 n)`: a buffer of `n` pixel words (R76, R85). -/
def pixRegion (base : Word) (n : Nat) : Region := ⟨base.toNat, 4 * n⟩

/-- `Region(base, 8 n)`: a buffer of `n` records (R77, R85) or weights (R78). -/
def recRegion (base : Word) (n : Nat) : Region := ⟨base.toNat, 8 * n⟩

/-! ### Records, weights, image coordinates -/

/-- Field `j` of a linear colour record as a 64-bit number: `l0`, `l1`, `l2` are 16 bits each (R77). -/
def linearField (q j : Nat) : Nat := q / 2 ^ (16 * j) % 65536

/-- `MemReadF64(addr)` (R9). -/
def Memory.readF64 (m : Memory) (a : Nat) : Fp := binary64.decode (m.read64 a).toNat

/-- The weights of a kernel, row-major (R78). -/
def Memory.kernel (m : Memory) (base : Word) (kw kh : Nat) : List Fp :=
  (List.range (kw * kh)).map fun k => m.readF64 (recAddr base k)

/-- The pixels of a `w x h` image as coordinates `(x, y)`, rows outermost, both ascending (R76, R180, R206). -/
def pixels (w h : Nat) : List (Nat × Nat) :=
  (List.range h).flatMap fun y => (List.range w).map fun x => (x, y)

/-- The address is a multiple of `n` (R80). -/
def alignedTo (a : Word) (n : Nat) : Bool := a.toNat % n == 0

end Sys2Proof.Machine
end

