-- ==== Sys2Proof/Machine/Flags.lean ====
section
/-! DEFINITION. The status flags: the word the host reads as STATUS (10_state.md R38), the sticky flag OOR (R39), the interrupt
output (60_exceptions.md R255). -/

namespace Sys2Proof.Machine

/-- `STATUS` as a word (R38): BUSY, DONE, ERR, LUTV, OOR in bits 0 to 4; the rest read 0. -/
def State.statusWord (s : State) : Word :=
  BitVec.ofNat 32 (s.busy.toNat + 2 * s.done.toNat + 4 * s.err.toNat + 8 * s.lutv.toNat + 16 * s.oor.toNat)

/-- `IRQ_EN` as a word (R41): DONE_IE, ERR_IE in bits 0 and 1; the rest read 0. -/
def State.irqEnWord (s : State) : Word := BitVec.ofNat 32 (s.doneIe.toNat + 2 * s.errIe.toNat)

/-- The output `irq` (R255). -/
def State.irq (s : State) : Bool := (s.done && s.doneIe) || (s.err && s.errIe)

/-- OOR after a command whose elements had this out-of-range mark: set when marked, never cleared (R39, R142). -/
def State.markOor (s : State) (mark : Bool) : State := { s with oor := s.oor || mark }

/-- OOR after a LERP stopped by an imprecise fault: still 1 if it was, else unspecified (R247, UB7; log 12). -/
def State.doubtOor (s : State) : State := s.markOor (Config.freeBit s.freeCount)

end Sys2Proof.Machine
end

