-- ==== Sys2Proof/Machine/Checks.lean ====
section
/-! DEFINITION. Validation (60_exceptions.md R250): the checks every command shares, the regions of each command (20_memory.md
R85), and each command's checks in their one fixed order. A check that fails is a precise fault (R246). -/

namespace Sys2Proof.Machine

/-! ### The checks -/

/-- CP_WRAP (R133): a command other than HALT in the last descriptor slot. -/
def cpWrapCheck (s : State) : Option Raised :=
  if s.cp = 0xFFFFFFC0 then some ⟨.cpWrap, s.cp⟩ else none

/-- ALIGN (R80, R81): the first address, in the command's order, that is no multiple of its alignment. -/
def alignCheck : List (Word × Nat) → Option Raised
  | [] => none
  | (a, n) :: rest => if alignedTo a n then alignCheck rest else some ⟨.align, a⟩

/-- DIM (R241): the index, counted from `k`, of the first extent that is 0. -/
def dimCheck (k : Nat) : List Nat → Option Raised
  | [] => none
  | n :: rest => if n = 0 then some ⟨.dim, BitVec.ofNat 32 k⟩ else dimCheck (k + 1) rest

/-- RANGE (R85): the base of the first region that passes address `2^32 - 1`. -/
def rangeCheck : List Region → Option Raised
  | [] => none
  | r :: rest => if r.inRange then rangeCheck rest else some ⟨.range, BitVec.ofNat 32 r.base⟩

/-- ALIAS (R86), with detail `DST`. -/
def aliasCheck (forbidden : Bool) (dst : Word) : Option Raised :=
  if forbidden then some ⟨.aliased, dst⟩ else none

/-- An axis on which the destination extent is at least the source extent but no multiple of it (R184). -/
def badUpsample (src dst : Nat) : Bool := decide (src ≤ dst) && dst % src != 0

/-- UPSAMPLE (R184): the x axis, then the y axis. -/
def upsampleCheck (srcW srcH dstW dstH : Nat) : Option Raised :=
  if badUpsample srcW dstW then some ⟨.upsample, 0⟩
  else if badUpsample srcH dstH then some ⟨.upsample, 1⟩
  else none

/-- NULL_SCRATCH (R188): a blur with scratch address 0. -/
def scratchCheck (blurs : Bool) (scratch : Word) : Option Raised :=
  if blurs && scratch == 0 then some ⟨.nullScratch, 0⟩ else none

/-- KERNEL_SIZE conditions 1 and 2 (R203): half the kernel is no larger than the image. -/
def kernelFitCheck (w h kw kh : Nat) : Option Raised :=
  if w < kw / 2 then some ⟨.kernelSize, 1⟩
  else if h < kh / 2 then some ⟨.kernelSize, 2⟩
  else none

/-- KERNEL_SIZE of CONV (R203): condition 0, then 1 and 2. -/
def kernelSizeCheck (w h kw kh : Nat) : Option Raised :=
  if Config.kernelMaxElems < kw * kh then some ⟨.kernelSize, 0⟩ else kernelFitCheck w h kw kh

/-- LUT_INVALID (R163). -/
def lutCheck (s : State) : Option Raised := if s.lutv then none else some ⟨.lutInvalid, 0⟩

/-- The weights of a kernel in row-major order (R207): the first whose read is refused raises BUS (precise; log 15),
the first that is a NaN or an infinity raises NONFINITE with its address. -/
def weightsCheck (s : State) (base : Word) : List Nat → Option Raised
  | [] => none
  | k :: rest =>
    if s.platform.memOk (readRec base k) then
      if (s.mem.readF64 (recAddr base k)).isFinite then weightsCheck s base rest
      else some ⟨.nonfinite, BitVec.ofNat 32 (recAddr base k)⟩
    else some ⟨.bus, BitVec.ofNat 32 (recAddr base k)⟩

/-- NONFINITE (R207): factor, then bias, then the weights. -/
def nonfiniteCheck (s : State) (base : Word) (kw kh : Nat) (factor bias : DWord) : Option Raised :=
  if !(binary64.decode factor.toNat).isFinite then some ⟨.nonfinite, 0xFFFFFFFF⟩
  else if !(binary64.decode bias.toNat).isFinite then some ⟨.nonfinite, 0xFFFFFFFE⟩
  else weightsCheck s base (List.range (kw * kh))

/-! ### The regions of a command (R85) -/

/-- Whether RESIZE runs its blur pass (R185). -/
def blurs (blur : Int) : Bool := decide (0 < blur)

/-- The read regions of a command, in the table's order; `L` is `LUT_ADDR_BITS`. -/
def readRegions (L : Nat) : Instr → List Region
  | .halt => []
  | .rgb2hsv _ src count => [pixRegion src count]
  | .hsv2rgb _ src count => [pixRegion src count]
  | .lerp _ srcA srcB count _ => [pixRegion srcA count, pixRegion srcB count]
  | .lutld src => [⟨src.toNat, 2 ^ L⟩]
  | .gamma _ src count => [recRegion src count]
  | .resize _ _ _ src srcW srcH _ _ => [pixRegion src (srcW * srcH)]
  | .conv _ src w h kernel kw kh _ _ => [pixRegion src (w * h), recRegion kernel (kw * kh)]

/-- The written regions of a command, in the table's order. -/
def writtenRegions : Instr → List Region
  | .halt => []
  | .rgb2hsv dst _ count => [pixRegion dst count]
  | .hsv2rgb dst _ count => [pixRegion dst count]
  | .lerp dst _ _ count _ => [pixRegion dst count]
  | .lutld _ => []
  | .gamma dst _ count => [pixRegion dst count]
  | .resize dst dstW dstH _ _ _ blur scratch =>
    if blurs blur then [pixRegion dst (dstW * dstH), pixRegion scratch (dstW * dstH)] else [pixRegion dst (dstW * dstH)]
  | .conv dst _ w h _ _ _ _ _ => [pixRegion dst (w * h)]

/-- RANGE over the regions of a command, read regions first (R85). -/
def regionCheck (L : Nat) (i : Instr) : Option Raised := rangeCheck (readRegions L i ++ writtenRegions i)

/-! ### The checks of each command, in the order of R250 -/

/-- The checks of a command from one pixel array to another, in place or disjoint (R141). -/
def pixelStreamCheck (s : State) (i : Instr) (dst src : Word) (count : Nat) : Option Raised :=
  cpWrapCheck s
    <|> alignCheck [(src, 4), (dst, 4)]
    <|> regionCheck s.platform.lutAddrBits i
    <|> aliasCheck ((pixRegion src count).overlaps (pixRegion dst count) && src != dst) dst

/-- RGB2HSV (R144). -/
def checkRgb2hsv (s : State) (dst src : Word) (count : Nat) : Option Raised :=
  pixelStreamCheck s (.rgb2hsv dst src count) dst src count

/-- HSV2RGB (R148). -/
def checkHsv2rgb (s : State) (dst src : Word) (count : Nat) : Option Raised :=
  pixelStreamCheck s (.hsv2rgb dst src count) dst src count

/-- LERP (R142). -/
def checkLerp (s : State) (dst srcA srcB : Word) (count : Nat) (t : BitVec 32) : Option Raised :=
  cpWrapCheck s
    <|> alignCheck [(srcA, 4), (dst, 4), (srcB, 4)]
    <|> regionCheck s.platform.lutAddrBits (.lerp dst srcA srcB count t)
    <|> aliasCheck (((pixRegion srcA count).overlaps (pixRegion dst count) && srcA != dst)
          || ((pixRegion srcB count).overlaps (pixRegion dst count) && srcB != dst)) dst

/-- LUTLD (R160). -/
def checkLutld (s : State) (src : Word) : Option Raised :=
  cpWrapCheck s <|> alignCheck [(src, 4)] <|> regionCheck s.platform.lutAddrBits (.lutld src)

/-- GAMMA (R163): no in-place form; LUT_INVALID also when `COUNT = 0`. -/
def checkGamma (s : State) (dst src : Word) (count : Nat) : Option Raised :=
  cpWrapCheck s
    <|> alignCheck [(src, 8), (dst, 4)]
    <|> regionCheck s.platform.lutAddrBits (.gamma dst src count)
    <|> aliasCheck ((recRegion src count).overlaps (pixRegion dst count)) dst
    <|> lutCheck s

/-- RESIZE (R180): `AUX` takes part only when `BLUR > 0` (R188). -/
def checkResize (s : State) (dst : Word) (dstW dstH : Nat) (src : Word) (srcW srcH : Nat) (blur : Int)
    (scratch : Word) : Option Raised :=
  let S := pixRegion src (srcW * srcH)
  let D := pixRegion dst (dstW * dstH)
  let X := pixRegion scratch (dstW * dstH)
  cpWrapCheck s
    <|> alignCheck ([(src, 4), (dst, 4)] ++ if blurs blur then [(scratch, 4)] else [])
    <|> dimCheck 0 [srcW, srcH, dstW, dstH]
    <|> upsampleCheck srcW srcH dstW dstH
    <|> scratchCheck (blurs blur) scratch
    <|> (if blurs blur then kernelFitCheck dstW dstH 5 5 else none)
    <|> regionCheck s.platform.lutAddrBits (.resize dst dstW dstH src srcW srcH blur scratch)
    <|> aliasCheck (S.overlaps D || (blurs blur && (S.overlaps X || D.overlaps X))) dst

/-- CONV (R200). -/
def checkConv (s : State) (dst src : Word) (w h : Nat) (kernel : Word) (kw kh : Nat) (factor bias : DWord) :
    Option Raised :=
  let S := pixRegion src (w * h)
  let D := pixRegion dst (w * h)
  let inPlace := kw == 1 && kh == 1 && src == dst
  cpWrapCheck s
    <|> alignCheck [(src, 4), (dst, 4), (kernel, 8)]
    <|> dimCheck 0 [w, h, kw, kh]
    <|> kernelSizeCheck w h kw kh
    <|> regionCheck s.platform.lutAddrBits (.conv dst src w h kernel kw kh factor bias)
    <|> aliasCheck (D.overlaps (recRegion kernel (kw * kh)) || (S.overlaps D && !inPlace)) dst
    <|> nonfiniteCheck s kernel kw kh factor bias

/-- The fault that validation raises for a command, if any (R250 checks 3 to 12). HALT has none (R136). -/
def validate (s : State) : Instr → Option Raised
  | .halt => none
  | .rgb2hsv dst src count => checkRgb2hsv s dst src count
  | .hsv2rgb dst src count => checkHsv2rgb s dst src count
  | .lerp dst srcA srcB count t => checkLerp s dst srcA srcB count t
  | .lutld src => checkLutld s src
  | .gamma dst src count => checkGamma s dst src count
  | .resize dst dstW dstH src srcW srcH blur scratch => checkResize s dst dstW dstH src srcW srcH blur scratch
  | .conv dst src w h kernel kw kh factor bias => checkConv s dst src w h kernel kw kh factor bias

end Sys2Proof.Machine
end

