-- ==== Sys2Proof/Machine/ColorModel.lean ====
section
/-! DEFINITION. The ColorModel commands (41_color_model.md): RGB2HSV, HSV2RGB, LERP, each a scalar function lifted to an array
of pixel words (R140, R141). -/

namespace Sys2Proof.Machine

/-! ### The stream skeleton (R141) -/

/-- `for i in 0 .. COUNT-1, ascending: PIX(DST, i) <- F(i, memory)`, element `i` read before it is written (R141). -/
def streamLoop (dst : Word) (elem : Memory → Nat → Word) (count : Nat) (m : Memory) : Memory :=
  (List.range count).foldl (fun m k => m.setPix dst k (elem m k)) m

/-- The accesses of a stream command with one source of pixel words (R85). -/
def pixelStreamAccesses (dst src : Word) (count : Nat) : List Access :=
  (List.range count).flatMap fun k => [readPix src k, writePix dst k]

/-! ### RGB2HSV (R144 to R147) -/

/-- `hue(r, g, b, mx, d)` (R146): the branches in the order red, green, blue; the quotient truncated toward zero; the
result's low 8 bits. -/
def hue (r g b mx d : Nat) : Nat :=
  let h0 : Int :=
    if mx = r then Int.tdiv (43 * ((g : Int) - b)) d
    else if mx = g then 85 + Int.tdiv (43 * ((b : Int) - r)) d
    else 171 + Int.tdiv (43 * ((r : Int) - g)) d
  (h0 % 256).toNat

/-- `rgb_to_hsv(r, g, b)` (R145): `(h, s, v)`. -/
def rgbToHsv (r g b : Nat) : Nat × Nat × Nat :=
  let mx := max r (max g b)
  let mn := min r (min g b)
  let d := mx - mn
  if mx = 0 then (0, 0, 0)
  else
    let s := 255 * d / mx
    if s = 0 then (0, 0, mx) else (hue r g b mx d, s, mx)

/-- RGB2HSV on one pixel word (R144). -/
def rgb2hsvWord (c : Word) : Word :=
  let p := rgbToHsv (ch0 c) (ch1 c) (ch2 c)
  pack3 p.1 p.2.1 p.2.2

/-- RGB2HSV (R144). -/
def execRgb2hsv (dst src : Word) (count : Nat) (s : State) : Host.Outcome State Fault Refusal :=
  match checkRgb2hsv s dst src count with
  | some r => .next (s.raise r)
  | none =>
    finish s (pixelStreamAccesses dst src count)
      { s with mem := streamLoop dst (fun m k => rgb2hsvWord (m.pix src k)) count s.mem }
      (s.havoc (writtenRegions (.rgb2hsv dst src count)))

/-! ### HSV2RGB (R148 to R152) -/

/-- `hsv_to_rgb(h, s, v)` (R149 to R152): `(r, g, b)`. -/
def hsvToRgb (h s v : Nat) : Nat × Nat × Nat :=
  if s = 0 then (v, v, v)
  else
    let region := h / 43
    let rem := (h - region * 43) * 6
    let p := v * (255 - s) / 256
    let q := v * (255 - s * rem / 256) / 256
    let t := v * (255 - s * (255 - rem) / 256) / 256
    match region with
    | 0 => (v, t, p)
    | 1 => (q, v, p)
    | 2 => (p, v, t)
    | 3 => (p, q, v)
    | 4 => (t, p, v)
    | _ => (v, p, q)

/-- HSV2RGB on one pixel word (R148). -/
def hsv2rgbWord (c : Word) : Word :=
  let p := hsvToRgb (ch0 c) (ch1 c) (ch2 c)
  pack3 p.1 p.2.1 p.2.2

/-- HSV2RGB (R148). -/
def execHsv2rgb (dst src : Word) (count : Nat) (s : State) : Host.Outcome State Fault Refusal :=
  match checkHsv2rgb s dst src count with
  | some r => .next (s.raise r)
  | none =>
    finish s (pixelStreamAccesses dst src count)
      { s with mem := streamLoop dst (fun m k => hsv2rgbWord (m.pix src k)) count s.mem }
      (s.havoc (writtenRegions (.hsv2rgb dst src count)))

/-! ### LERP (R142, R143) -/

/-- The binary32 value `x*(1-t) + y*t`, four operations each rounded once (R143). -/
def lerpValue (x y : Nat) (t : Fp) : Fp :=
  let m := binary32.sub (binary32.ofNat 1) t
  let u := binary32.mul (binary32.ofNat x) m
  let w := binary32.mul (binary32.ofNat y) t
  binary32.add u w

/-- The channel stored for a value, and whether it was out of range (R143). -/
def storeChan : Fp → Nat × Bool
  | .nan => (0, true)
  | .inf neg => if neg then (0, true) else (255, true)
  | .fin neg mag =>
    let n := binary32.trunc neg mag
    if n < 0 then (0, true) else if 255 < n then (255, true) else (n.toNat, false)

/-- `lerp_chan(x, y, t)` (R143). -/
def lerpChan (x y : Nat) (t : Fp) : Nat × Bool := storeChan (lerpValue x y t)

/-- LERP on one pair of pixel words (R142): the word stored and the out-of-range mark. -/
def lerpWord (t : Fp) (a b : Word) : Word × Bool :=
  let c0 := lerpChan (ch0 a) (ch0 b) t
  let c1 := lerpChan (ch1 a) (ch1 b) t
  let c2 := lerpChan (ch2 a) (ch2 b) t
  (pack3 c0.1 c1.1 c2.1, c0.2 || c1.2 || c2.2)

/-- The loop of LERP (R142): memory and the accumulated out-of-range mark. -/
def lerpLoop (dst srcA srcB : Word) (t : Fp) (count : Nat) (m : Memory) : Memory × Bool :=
  (List.range count).foldl
    (fun p k =>
      let c := lerpWord t (p.1.pix srcA k) (p.1.pix srcB k)
      (p.1.setPix dst k c.1, p.2 || c.2))
    (m, false)

/-- The accesses of LERP (R85). -/
def lerpAccesses (dst srcA srcB : Word) (count : Nat) : List Access :=
  (List.range count).flatMap fun k => [readPix srcA k, readPix srcB k, writePix dst k]

/-- LERP (R142): the only command that may set OOR (R39). -/
def execLerp (dst srcA srcB : Word) (count : Nat) (t : BitVec 32) (s : State) : Host.Outcome State Fault Refusal :=
  match checkLerp s dst srcA srcB count t with
  | some r => .next (s.raise r)
  | none =>
    let p := lerpLoop dst srcA srcB (binary32.decode t.toNat) count s.mem
    finish s (lerpAccesses dst srcA srcB count)
      ({ s with mem := p.1 }.markOor p.2)
      ((s.havoc (writtenRegions (.lerp dst srcA srcB count t))).doubtOor)

end Sys2Proof.Machine
end

