-- ==== Sys2Proof/Machine/Convolution.lean ====
section
/-! DEFINITION. The ConvolutionFilter command CONV (44_convolution.md): the toroidal engine U5 and the kernel applicator U6,
which also perform the blur pass of RESIZE. -/

namespace Sys2Proof.Machine

/-- The arguments of `conv_image` (R206), the kernel as its weights in row-major order. -/
structure ConvJob where
  src : Word
  w : Nat
  h : Nat
  dst : Word
  weights : List Fp
  kw : Nat
  kh : Nat
  factor : Fp
  bias : Fp
  deriving DecidableEq, Repr

/-- How `conv_image` ends: with the memory it leaves, with a refused access, or with a NaN at a destination pixel. -/
inductive ConvEnd where
  | done (m : Memory)
  | bus
  | numeric (addr : Word)
  deriving DecidableEq, Repr

/-- `wrap(v, extent) = (v + extent) mod extent` (R202). -/
def wrap (v : Int) (extent : Nat) : Nat := ((v + extent) % extent).toNat

/-- `kernel[fy][fx]` (R78). -/
def ConvJob.weight (j : ConvJob) (fx fy : Nat) : Fp := j.weights.getD (fy * j.kw + fx) (.fin false 0)

/-- The index of the source pixel that tap `(fx, fy)` of destination pixel `(x, y)` reads (R202). -/
def ConvJob.tapIndex (j : ConvJob) (x y fx fy : Nat) : Nat :=
  wrap ((y : Int) - ((j.kh / 2 : Nat) : Int) + fy) j.h * j.w + wrap ((x : Int) - ((j.kw / 2 : Nat) : Int) + fx) j.w

/-- The taps of a kernel in the order of accumulation: rows outermost, both ascending (R204). -/
def ConvJob.taps (j : ConvJob) : List (Nat × Nat) := pixels j.kw j.kh

/-- The weighted sum of one channel (R204): binary64, from `+0.0`, the product rounded before the sum. -/
def ConvJob.accumulate (j : ConvJob) (m : Memory) (chan : Word → Nat) (x y : Nat) : Fp :=
  j.taps.foldl
    (fun acc f =>
      binary64.add acc (binary64.mul (j.weight f.1 f.2) (binary64.ofNat (chan (m.pix j.src (j.tapIndex x y f.1 f.2))))))
    (.fin false 0)

/-- `out_chan` (R205): `none` for a NaN. -/
def outChan (acc factor bias : Fp) : Option Nat :=
  match binary64.add (binary64.mul factor acc) bias with
  | .nan => none
  | .inf neg => some (if neg then 0 else 255)
  | .fin neg mag => some (min (max (binary64.roundHalfAway neg mag) 0) 255).toNat

/-- The word of destination pixel `(x, y)` (R206): `none` when a channel is a NaN. -/
def ConvJob.pixel (j : ConvJob) (m : Memory) (x y : Nat) : Option Word :=
  match outChan (j.accumulate m ch0 x y) j.factor j.bias, outChan (j.accumulate m ch1 x y) j.factor j.bias,
    outChan (j.accumulate m ch2 x y) j.factor j.bias with
  | some c0, some c1, some c2 => some (pack3 c0 c1 c2)
  | _, _, _ => none

/-- The accesses that read the taps of destination pixel `(x, y)`. -/
def ConvJob.tapReads (j : ConvJob) (x y : Nat) : List Access :=
  j.taps.map fun f => readPix j.src (j.tapIndex x y f.1 f.2)

/-- The accesses of `conv_image`, in the order of its loops (R206). -/
def ConvJob.accesses (j : ConvJob) : List Access :=
  (pixels j.w j.h).flatMap fun p => j.tapReads p.1 p.2 ++ [writePix j.dst (p.2 * j.w + p.1)]

/-- `conv_image` over a list of destination pixels (R206): each is read, computed and written in turn. -/
def ConvJob.loop (j : ConvJob) (plat : Platform) : List (Nat × Nat) → Memory → ConvEnd
  | [], m => .done m
  | (x, y) :: rest, m =>
    if (j.tapReads x y).all plat.memOk then
      match j.pixel m x y with
      | none => .numeric (BitVec.ofNat 32 (pixAddr j.dst (y * j.w + x)))
      | some w =>
        if plat.memOk (writePix j.dst (y * j.w + x)) then j.loop plat rest (m.setPix j.dst (y * j.w + x) w) else .bus
    else .bus

/-- `conv_image` (R206). -/
def ConvJob.run (j : ConvJob) (plat : Platform) (m : Memory) : ConvEnd := j.loop plat (pixels j.w j.h) m

/-- The job of a CONV command: the kernel is read from memory (R200). -/
def convJob (m : Memory) (dst src : Word) (w h : Nat) (kernel : Word) (kw kh : Nat) (factor bias : DWord) : ConvJob where
  src := src
  w := w
  h := h
  dst := dst
  weights := m.kernel kernel kw kh
  kw := kw
  kh := kh
  factor := binary64.decode factor.toNat
  bias := binary64.decode bias.toNat

/-- CONV (R200). BUS and NUMERIC raised here are imprecise (R247); which of the two comes first is that of the
pseudocode's order (log 13), the address of a BUS is any refused one (UB2; log 10). -/
def execConv (dst src : Word) (w h : Nat) (kernel : Word) (kw kh : Nat) (factor bias : DWord) (s : State) :
    Host.Outcome State Fault Refusal :=
  match checkConv s dst src w h kernel kw kh factor bias with
  | some r => .next (s.raise r)
  | none =>
    let job := convJob s.mem dst src w h kernel kw kh factor bias
    let broken := s.havoc (writtenRegions (.conv dst src w h kernel kw kh factor bias))
    match job.run s.platform s.mem with
    | .done m => .next { s with mem := m }.advance
    | .bus => .next (broken.raise ⟨.bus, pickWord s.freeCount (s.refused job.accesses)⟩)
    | .numeric addr => .next (broken.raise ⟨.numeric, addr⟩)

end Sys2Proof.Machine
end

