-- ==== Sys2Proof/Machine/GammaLut.lean ====
section
/-! DEFINITION. The gamma lookup commands LUTLD and GAMMA (42_gamma_lut.md). -/

namespace Sys2Proof.Machine

/-- The accesses of LUTLD: one byte each (R9, R160; log 14). -/
def lutldAccesses (L : Nat) (src : Word) : List Access := (List.range (2 ^ L)).map (readByteOf src)

/-- The table that LUTLD loads: `2^L` bytes from `SRC` (R160). -/
def tableAt (L : Nat) (m : Memory) (src : Word) : List Byte :=
  (List.range (2 ^ L)).map fun k => m.read (src.toNat + k)

/-- LUTLD (R160): the whole table is replaced and `LUTV` becomes 1. Stopped by BUS it leaves `LUTV = 0` and every
entry unspecified (R51, R247, UB5; log 11). -/
def execLutld (src : Word) (s : State) : Host.Outcome State Fault Refusal :=
  match checkLutld s src with
  | some r => .next (s.raise r)
  | none =>
    finish s (lutldAccesses s.platform.lutAddrBits src)
      { s with lut := tableAt s.platform.lutAddrBits s.mem src, lutv := true }
      { s with lut := freeLut s.platform s.freeCount, lutv := false }

/-- `lut_index(l)`: the most significant `L` bits of a 16-bit code (R162). -/
def lutIndex (L l : Nat) : Nat := l / 2 ^ (16 - L)

/-- The channel that a linear intensity code gives through the table (R163). -/
def lutChan (L : Nat) (lut : List Byte) (l : Nat) : Nat := (lut.getD (lutIndex L l) 0).toNat

/-- GAMMA on one linear colour record, as a 64-bit number (R163). -/
def gammaWord (L : Nat) (lut : List Byte) (q : Nat) : Word :=
  pack3 (lutChan L lut (linearField q 0)) (lutChan L lut (linearField q 1)) (lutChan L lut (linearField q 2))

/-- The accesses of GAMMA: an 8-byte read and a 4-byte write per element (R163; log 14). -/
def gammaAccesses (dst src : Word) (count : Nat) : List Access :=
  (List.range count).flatMap fun k => [readRec src k, writePix dst k]

/-- GAMMA (R163). -/
def execGamma (dst src : Word) (count : Nat) (s : State) : Host.Outcome State Fault Refusal :=
  match checkGamma s dst src count with
  | some r => .next (s.raise r)
  | none =>
    finish s (gammaAccesses dst src count)
      { s with mem := streamLoop dst (fun m k => gammaWord s.platform.lutAddrBits s.lut (m.readLE (recAddr src k) 8)) count s.mem }
      (s.havoc (writtenRegions (.gamma dst src count)))

end Sys2Proof.Machine
end

