-- ==== Sys2Proof/Machine/Resampler.lean ====
section
/-! DEFINITION. The Resampler command RESIZE (43_resampler.md): nearest-neighbour selection and the optional blur pass. -/

namespace Sys2Proof.Machine

/-- The step of an axis (R182): source by destination extent when downsampling (R181), else the inverse. -/
def axisStep (src dst : Nat) : Nat := if dst < src then src / dst else dst / src

/-- The source coordinate of a destination coordinate on one axis (R183). -/
def axisSource (src dst x : Nat) : Nat := if dst < src then x * axisStep src dst else x / axisStep src dst

/-- The index of the source pixel that destination pixel `(x, y)` copies (R180). -/
def sourceIndex (srcW srcH dstW dstH x y : Nat) : Nat := axisSource srcH dstH y * srcW + axisSource srcW dstW x

/-- The nearest-neighbour pass (R180): whole words are copied (R73). -/
def resample (dst : Word) (dstW dstH : Nat) (src : Word) (srcW srcH : Nat) (m : Memory) : Memory :=
  (pixels dstW dstH).foldl
    (fun m p => m.setPix dst (p.2 * dstW + p.1) (m.pix src (sourceIndex srcW srcH dstW dstH p.1 p.2))) m

/-- The copy of the destination into the scratch buffer (R186), whole words. -/
def copyPixels (dest source : Word) (n : Nat) (m : Memory) : Memory :=
  (List.range n).foldl (fun m k => m.setPix dest k (m.pix source k)) m

/-- `BLUR_KERNEL` (R187): 1.0 where `|fx - 2| + |fy - 2| <= 2`, else 0.0, row-major. -/
def blurKernel : List Fp :=
  (pixels 5 5).map fun f => if ((f.1 : Int) - 2).natAbs + ((f.2 : Int) - 2).natAbs ≤ 2 then binary64.ofNat 1 else .fin false 0

/-- `BLUR_FACTOR` (R187): the binary64 value nearest to 1/13. -/
def blurFactor : Fp := binary64.decode 0x3FB3B13B13B13B14

/-- The convolution of the blur pass (R186): from the scratch buffer into the destination, bias `+0.0`. -/
def blurJob (dst : Word) (dstW dstH : Nat) (scratch : Word) : ConvJob where
  src := scratch
  w := dstW
  h := dstH
  dst := dst
  weights := blurKernel
  kw := 5
  kh := 5
  factor := blurFactor
  bias := .fin false 0

/-- The accesses of the nearest-neighbour pass (R180). -/
def resampleAccesses (dst : Word) (dstW dstH : Nat) (src : Word) (srcW srcH : Nat) : List Access :=
  (pixels dstW dstH).flatMap fun p =>
    [readPix src (sourceIndex srcW srcH dstW dstH p.1 p.2), writePix dst (p.2 * dstW + p.1)]

/-- The accesses of the blur pass (R186). -/
def blurAccesses (dst : Word) (dstW dstH : Nat) (scratch : Word) : List Access :=
  ((List.range (dstW * dstH)).flatMap fun k => [readPix dst k, writePix scratch k])
    ++ (blurJob dst dstW dstH scratch).accesses

/-- The end of the blur pass from the resampled memory `m` (R186): copy to scratch, convolve back. -/
def blurPass (plat : Platform) (dst : Word) (dstW dstH : Nat) (scratch : Word) (m : Memory) : ConvEnd :=
  (blurJob dst dstW dstH scratch).run plat (copyPixels scratch dst (dstW * dstH) m)

/-- RESIZE (R180): the nearest-neighbour pass, then one blur pass when `BLUR > 0` (R185). The blur's convolution is the
shared one of R206; that it never ends with a NaN (R186) is a fact about it, not a clause here. -/
def execResize (dst : Word) (dstW dstH : Nat) (src : Word) (srcW srcH : Nat) (blur : Int) (scratch : Word) (s : State) :
    Host.Outcome State Fault Refusal :=
  match checkResize s dst dstW dstH src srcW srcH blur scratch with
  | some r => .next (s.raise r)
  | none =>
    let resampled := resample dst dstW dstH src srcW srcH s.mem
    let broken := s.havoc (writtenRegions (.resize dst dstW dstH src srcW srcH blur scratch))
    let accs := resampleAccesses dst dstW dstH src srcW srcH
    if blurs blur then
      let accs := accs ++ blurAccesses dst dstW dstH scratch
      match blurPass s.platform dst dstW dstH scratch resampled with
      | .done m => finish s accs { s with mem := m } broken
      | .bus => .next (broken.raise ⟨.bus, pickWord s.freeCount (s.refused accs)⟩)
      | .numeric addr => .next (broken.raise ⟨.numeric, addr⟩)
    else finish s accs { s with mem := resampled } broken

end Sys2Proof.Machine
end

