-- ==== Sys2Proof/Machine/Sequencing.lean ====
section
/-! DEFINITION. HALT (40_sequencing.md R136). -/

namespace Sys2Proof.Machine

/-- HALT (R136): BUSY <- 0 and DONE <- 1 in one update; `CP` keeps the address of the HALT descriptor. The latch is
unspecified afterwards (UB6; log 11). -/
def execHalt (s : State) : Host.Outcome State Fault Refusal :=
  .next { s.forgetDesc with busy := false, done := true }

end Sys2Proof.Machine
end

