-- ==== Sys2Proof/Machine/Dispatch.lean ====
section
/-! DEFINITION. One arm per command: the execution of a decoded descriptor, validation included (R133, R134). -/

namespace Sys2Proof.Machine

def exec (i : Instr) (s : State) : Host.Outcome State Fault Refusal :=
  match i with
  | .halt => Sys2Proof.Machine.execHalt s
  | .rgb2hsv dst src count => Sys2Proof.Machine.execRgb2hsv dst src count s
  | .hsv2rgb dst src count => Sys2Proof.Machine.execHsv2rgb dst src count s
  | .lerp dst srcA srcB count t => Sys2Proof.Machine.execLerp dst srcA srcB count t s
  | .lutld src => Sys2Proof.Machine.execLutld src s
  | .gamma dst src count => Sys2Proof.Machine.execGamma dst src count s
  | .resize dst dstW dstH src srcW srcH blur scratch => Sys2Proof.Machine.execResize dst dstW dstH src srcW srcH blur scratch s
  | .conv dst src w h kernel kw kh factor bias => Sys2Proof.Machine.execConv dst src w h kernel kw kh factor bias s

end Sys2Proof.Machine
end

