-- ==== Sys2Proof/Machine/Engine.lean ====
section
/-! DEFINITION. The step of the core (40_sequencing.md R132 to R135): fetch, decode, execute. -/

namespace Sys2Proof.Machine

/-- The accesses of a descriptor fetch at `a`: sixteen words, ascending (R132). -/
def fetchAccesses (a : Nat) : List Access := (List.range 16).map fun k => ⟨.fetch, a + 4 * k, 4⟩

/-- The descriptor that memory holds at `a` (R79, R100). -/
def Memory.descAt (m : Memory) (a : Nat) : Desc := Desc.ofFn fun k => m.read32 (a + 4 * k)

/-- Fetch (R132): FETCH_ALIGN before any access, FETCH_BUS with the lowest refused word, else the descriptor. -/
def fetch (s : State) : Except Raised Desc :=
  if alignedTo s.cp Config.descBytes then
    match s.refused (fetchAccesses s.cp.toNat) with
    | [] => .ok (s.mem.descAt s.cp.toNat)
    | a :: _ => .error ⟨.fetchBus, a⟩
  else .error ⟨.fetchAlign, s.cp⟩

/-- The fault of a descriptor that is no command (R111, R112). -/
def decodeFault : DecodeError → Raised
  | .illegalOpcode w0 => ⟨.illegalOpcode, w0⟩
  | .reservedField k => ⟨.reservedField, BitVec.ofNat 32 k⟩
  | .truncated => ⟨.illegalOpcode, 0⟩

/-- One step of the running engine (R135). -/
def engineStep (s : State) : Host.Outcome State Fault Refusal :=
  match fetch s with
  | .error r => .next (s.raise r)
  | .ok d =>
    match decode d with
    | .error e => .next ({ s with desc := d }.raise (decodeFault e))
    | .ok i => exec i { s with desc := d }

/-- The core's turn: one step while BUSY, nothing while stopped (R130, R280; log 22). -/
def coreTurn (s : State) : Host.Outcome State Fault Refusal := if s.busy then engineStep s else .next s

/-- The command in progress while BUSY: the one at `CP`, when it fetches, decodes and passes validation (log 19). -/
def commandInProgress (s : State) : Option Instr :=
  if s.busy then
    match fetch s with
    | .error _ => none
    | .ok d =>
      match decode d with
      | .error _ => none
      | .ok i => if (validate s i).isNone then some i else none
  else none

end Sys2Proof.Machine
end

