-- ==== Sys2Proof/Machine/Registers.lean ====
section
/-! DEFINITION. The register window (10_state.md R34 to R47) and reset (70_reset_and_hazards.md R280 to R283). -/

namespace Sys2Proof.Machine

/-! ### Reset -/

/-- The written regions of a command in progress become unspecified when it is abandoned (R283; log 19). -/
def State.abandon (s : State) : State :=
  match commandInProgress s with
  | none => s
  | some i => s.havoc (writtenRegions i)

/-- The registers after hard or soft reset (R55): LUT and DESC unspecified (R281; log 11), memory and the parameters
as they are. -/
def State.clearRegisters (s : State) : State :=
  { s.forgetDesc with
    cp := 0, busy := false, done := false, err := false, lutv := false, oor := false, doneIe := false, errIe := false,
    errCode := 0, errCp := 0, errInfo := 0, lut := freeLut s.platform s.freeCount }

/-- Hard reset (R280) and soft reset (R282) alike: a running command is abandoned (R283). -/
def State.resetCore (s : State) : State := s.abandon.clearRegisters

/-! ### Register reads (R34) -/

/-- `ID` (R35). -/
def idWord : Word := 0x5A504C31

/-- `CONFIG` (R36): `L`, `KMAX_LOG2 = 10`, `CMDSET_VER = 1`. -/
def configWord (L : Nat) : Word := BitVec.ofNat 32 (L + 256 * 10 + 65536 * 1)

/-- The value a register read returns (R34); write-only and reserved offsets read 0 (R37, R45). -/
def State.readReg (s : State) (offset : BitVec 8) : Word :=
  match offset.toNat with
  | 0x00 => idWord
  | 0x04 => configWord s.platform.lutAddrBits
  | 0x0C => s.statusWord
  | 0x10 => s.cp
  | 0x14 => s.irqEnWord
  | 0x18 => s.errCode.setWidth 32
  | 0x1C => s.errCp
  | 0x20 => s.errInfo
  | _ => 0

/-! ### Register writes -/

/-- `CLRERR` (R37): `ERR` and `ERR_CODE` are cleared, `ERR_CP` and `ERR_INFO` keep their values. -/
def State.clearErr (s : State) : State := { s with err := false, errCode := 0 }

/-- `START` (R37): ignored while an error is pending. -/
def State.start (s : State) : State := if s.err then s else { s with done := false, busy := true }

/-- A write to `CTRL` (R37), in its fixed order: SRST alone; nothing while BUSY; CLRERR, CLRDONE, CLROOR, START. -/
def State.writeCtrl (s : State) (v : Word) : State :=
  if v.getLsbD 31 then s.resetCore
  else if s.busy then s
  else
    let s1 := if v.getLsbD 2 then s.clearErr else s
    let s2 := if v.getLsbD 1 then { s1 with done := false } else s1
    let s3 := if v.getLsbD 3 then { s2 with oor := false } else s2
    if v.getLsbD 0 then s3.start else s3

/-- A write to `CP` (R40): ignored while BUSY, no alignment check. -/
def State.writeCp (s : State) (v : Word) : State := if s.busy then s else { s with cp := v }

/-- A write to `IRQ_EN` (R41), also while BUSY. -/
def State.writeIrqEn (s : State) (v : Word) : State := { s with doneIe := v.getLsbD 0, errIe := v.getLsbD 1 }

/-- A register write (R34): read-only and reserved offsets ignore it (R45). -/
def State.writeReg (s : State) (offset : BitVec 8) (v : Word) : State :=
  match offset.toNat with
  | 0x08 => s.writeCtrl v
  | 0x10 => s.writeCp v
  | 0x14 => s.writeIrqEn v
  | _ => s

/-- The access is an aligned 32-bit one (R46). -/
def aligned32 (offset : BitVec 8) (bytes : Nat) : Bool := bytes == 4 && offset.toNat % 4 == 0

end Sys2Proof.Machine
end

