-- ==== Sys2Proof/Machine/HostPort.lean ====
section
/-! DEFINITION. The moves of the host (00_scope.md R15): register accesses (R46), its accesses to system memory (20_memory.md
R82, R88), what it sees and must not do while BUSY (70_reset_and_hazards.md R290, UB3, UB4), and the moves of a
schedule one by one. -/

namespace Sys2Proof.Machine

/-! ### Host reads of memory -/

/-- The address of the aligned word that holds a byte. -/
def wordAddr (a : Nat) : Nat := a / 4 * 4

/-- The command without its blur pass, where it has one. -/
def withoutBlur : Instr → Option Instr
  | .resize dst dstW dstH src srcW srcH blur scratch =>
    if blurs blur then some (.resize dst dstW dstH src srcW srcH 0 scratch) else none
  | _ => none

/-- The memory that executing a command from `s` leaves. -/
def memoryAfter (s : State) (i : Instr) : Option Memory :=
  match exec i s with
  | .next t => some t.mem
  | _ => none

/-- The words that the running command writes at `a`: its final one and, for RESIZE with blur, the one its first pass
leaves (R290, UB3). -/
def wordsInFlight (s : State) (i : Instr) (a : Nat) : List Word :=
  let final := (memoryAfter s i).toList.map fun m => m.read32 a
  let first := ((withoutBlur i).bind (memoryAfter s)).toList.map fun m => m.read32 a
  final ++ first

/-- What a host read of the aligned word at `a` may return: the word in memory and, while a command that writes there is
in progress, also a word that command writes (R88, R290, UB3; log 18). -/
def State.hostWords (s : State) (a : Nat) : List Word :=
  match commandInProgress s with
  | none => [s.mem.read32 a]
  | some i =>
    if (writtenRegions i).any fun r => r.overlaps ⟨a, 4⟩ then s.mem.read32 a :: wordsInFlight s i a
    else [s.mem.read32 a]

/-- The host reads the word at `a`: one of the words it may see, a free choice where there is more than one. -/
def State.hostRead (s : State) (a : Nat) : State :=
  match s.hostWords a with
  | [w] => { s with readData := w }
  | ws => { s with readData := pickWord s.freeCount ws, freeCount := s.freeCount + 1 }

/-! ### Host writes to memory -/

/-- Write the selected byte lanes of the word at `a`. -/
def Memory.writeLanes (m : Memory) (a : Nat) (lanes : BitVec 4) (v : Word) : Memory :=
  (List.range 4).foldl
    (fun m k => if lanes.getLsbD k then m.write (a + k) (v.extractLsb' (8 * k) 8) else m) m

/-- The regions that the running core is about to use: the descriptor at `CP` and those of the command there (R85). -/
def State.pendingRegions (s : State) : List Region :=
  ⟨s.cp.toNat, Config.descBytes⟩ ::
    match decode (s.mem.descAt s.cp.toNat) with
    | .error _ => []
    | .ok i => readRegions s.platform.lutAddrBits i ++ writtenRegions i

/-- The region meets the descriptor or a region of a command of the running list that has not completed (R290, UB4). The
list is followed as the core itself would run it, so that the descriptors its commands write are those it then fetches
(R90); `fuel` bounds the number of commands (log 17). -/
def pendingTouch (r : Region) : Nat → State → Bool
  | 0, _ => false
  | fuel + 1, s =>
    if s.busy then
      if s.pendingRegions.any fun q => q.overlaps r then true
      else
        match engineStep s with
        | .next t => pendingTouch r fuel t
        | _ => false
    else false

/-- The host must not write the aligned word at `a` now (R290). Address space for `2^26` descriptors bounds every list:
`CP` rises by 64 with each command (R134) and does not wrap (R133). -/
def State.inFlight (s : State) (a : Nat) : Bool := pendingTouch ⟨a, 4⟩ (2 ^ 26) s

/-! ### The schedule -/

/-- One move of one agent (R15). -/
def takeTurn (t : Turn) (s : State) : Host.Outcome State Fault Refusal :=
  match t with
  | .core => coreTurn s
  | .rst => .next s.resetCore
  | .regRead offset bytes =>
    if aligned32 offset bytes then .next { s with readData := s.readReg offset }
    else .refused (.registerAccessNotAligned32 offset bytes)
  | .regWrite offset bytes value =>
    if aligned32 offset bytes then .next (s.writeReg offset value)
    else .refused (.registerAccessNotAligned32 offset bytes)
  | .memRead addr =>
    if addr < Config.spaceBytes then .next (s.hostRead (wordAddr addr)) else .fault (.noSuchAddress addr)
  | .memWrite addr lanes value =>
    if Config.spaceBytes ≤ addr then .fault (.noSuchAddress addr)
    else if s.inFlight (wordAddr addr) then .refused (.hostWriteInFlight addr)
    else .next { s with mem := s.mem.writeLanes (wordAddr addr) lanes value }

/-- The next move: the first of the schedule, or the core's when the schedule is empty (log 5). -/
def nextMove (s : State) : Host.Outcome State Fault Refusal :=
  match s.turns with
  | [] => coreTurn s
  | t :: rest => takeTurn t { s with turns := rest }

/-! ### Loading one descriptor -/

/-- The parameters without what refuses any of these accesses. -/
def Platform.allowing (p : Platform) (accs : List Access) : Platform :=
  { p with
    denied := p.denied.filter fun d => !accs.any fun a => d.covers a
    window := if accs.any fun a => p.hitsWindow a then none else p.window }

/-- A descriptor placed where the core fetches next, the core started on it as a write of CLRERR and START to `CTRL`
leaves it, and the move given to the core (log 6). -/
def State.load (s : State) (d : Desc) : State :=
  let at' := s.cp.toNat / 64 * 64
  { s with
    mem := s.mem.writeBytes at' d.toBytes
    cp := BitVec.ofNat 32 at'
    busy := true
    done := false
    err := false
    errCode := 0
    platform := s.platform.allowing (fetchAccesses at')
    turns := [] }

end Sys2Proof.Machine
end

