-- ==== Sys2Proof/Machine/Step.lean ====
section
/-! DEFINITION. One step of the machine, and placing one instruction where the next step fetches it. -/

namespace Sys2Proof.Machine

/-- One step: the next agent of the schedule moves; with an empty schedule the core does (R15, R135). -/
def step (s : State) : Host.Outcome State Fault Refusal := nextMove s

/-- `s` with the descriptor whose low `nbits` bits are those of `w` (the rest 0) as the next one the core runs. -/
def State.withFetchWord (s : State) (nbits w : Nat) : State := s.load (descOfBits nbits w)

end Sys2Proof.Machine
end

