-- ==== Sys2Proof/Safety.lean ====
section
/-! DEFINITION. The terms claims are stated in: what a consistent state is, what an architectural fault leaves, which accesses a
command makes, when a command's geometry is legal, what a safe run is. -/

namespace Sys2Proof.Machine

/-! ### Consistent states -/

/-- At most one of BUSY, DONE, ERR is 1 (R38). -/
abbrev State.flagsExclusive (s : State) : Prop :=
  ¬(s.busy = true ∧ s.done = true) ∧ ¬(s.busy = true ∧ s.err = true) ∧ ¬(s.done = true ∧ s.err = true)

/-- The codes of R241, by value: those of fetch, decode and sequencing, of validation, of execution. -/
def faultCodes : List (BitVec 8) :=
  [0x01, 0x02, 0x03, 0x04, 0x05] ++ [0x10, 0x11, 0x12, 0x13, 0x14, 0x15, 0x16, 0x17, 0x18] ++ [0x20, 0x21]

/-- `ERR_CODE` is 0 exactly when no error is pending (R42), and else one of the codes of R241. -/
abbrev State.errCodeMatches (s : State) : Prop :=
  (s.err = false → s.errCode = 0) ∧ (s.err = true → s.errCode ∈ faultCodes)

/-- The lookup table has `2^L` entries (R50). -/
abbrev State.lutSized (s : State) : Prop := s.lut.length = 2 ^ s.platform.lutAddrBits

/-- Every byte memory lists lies in the 32-bit address space (R52). -/
abbrev Memory.inSpace (m : Memory) : Prop := ∀ c ∈ m, c.1 < 2 ^ 32

/-- The invariant of the registers. -/
abbrev State.consistent (s : State) : Prop := s.flagsExclusive ∧ s.errCodeMatches ∧ s.lutSized

/-! ### Faults, frames -/

/-- `t` is `s` after a precise fault of this code and detail (R245, R246): everything but the fields R245 names, the
unobservable latch and the model's counter is as it was. -/
abbrev State.faulted (s : State) (code : BitVec 8) (info : Word) (t : State) : Prop :=
  t = { s with
    errCode := code, errCp := s.cp, errInfo := info, busy := false, err := true, desc := t.desc, freeCount := t.freeCount }

/-- Every byte outside the regions reads as before. -/
def Memory.sameOutside (m m' : Memory) (rs : List Region) : Prop := ∀ a, (∀ r ∈ rs, ¬r.has a) → m'.read a = m.read a

/-- The platform allows every one of these accesses. -/
abbrev State.allows (s : State) (accs : List Access) : Prop := ∀ a ∈ accs, s.platform.memOk a = true

/-- Source and destination start at the same address or share none (R86). -/
abbrev apart (src dst : Word) (S D : Region) : Prop := src = dst ∨ S.overlaps D = false

/-! ### The encoding table of R109, by index -/

/-- The indices of the words that must be zero for a command (opcode_table.json, R109). -/
def reservedIndices : Opcode → List Nat
  | .halt => [1, 2, 3, 4, 5, 6, 7, 8, 9, 10, 11, 12, 13, 14, 15]
  | .rgb2hsv => [3, 5, 6, 7, 8, 9, 10, 11, 12, 13, 14, 15]
  | .hsv2rgb => [3, 5, 6, 7, 8, 9, 10, 11, 12, 13, 14, 15]
  | .lerp => [5, 7, 8, 9, 10, 11, 12, 13, 14, 15]
  | .lutld => [2, 3, 4, 5, 6, 7, 8, 9, 10, 11, 12, 13, 14, 15]
  | .gamma => [3, 5, 6, 7, 8, 9, 10, 11, 12, 13, 14, 15]
  | .resize => [7, 8, 9, 10, 11, 12, 13, 14, 15]
  | .conv => [6, 7, 12, 13, 14, 15]

/-- The eight legal header words (R110). -/
def legalHeaders : List Word := [0x01, 0x10, 0x11, 0x12, 0x20, 0x21, 0x30, 0x40]

/-! ### Accesses and geometry of the commands -/

/-- The data accesses a command makes when it runs to its end; the kernel reads of CONV come first (R207). -/
def accessesOf (L : Nat) : Instr → List Access
  | .halt => []
  | .rgb2hsv dst src count => pixelStreamAccesses dst src count
  | .hsv2rgb dst src count => pixelStreamAccesses dst src count
  | .lerp dst srcA srcB count _ => lerpAccesses dst srcA srcB count
  | .lutld src => lutldAccesses L src
  | .gamma dst src count => gammaAccesses dst src count
  | .resize dst dstW dstH src srcW srcH blur scratch =>
    resampleAccesses dst dstW dstH src srcW srcH ++ if blurs blur then blurAccesses dst dstW dstH scratch else []
  | .conv dst src w h kernel kw kh factor bias =>
    (List.range (kw * kh)).map (readRec kernel) ++ (convJob [] dst src w h kernel kw kh factor bias).accesses

/-- An axis of a legal resize (R184): extents at least 1, and an exact multiple when it does not shrink. -/
abbrev legalAxis (src dst : Nat) : Prop := 1 ≤ src ∧ 1 ≤ dst ∧ (src ≤ dst → dst % src = 0)

/-- The addresses a command uses, each with the alignment it needs (R80), in the order ALIGN checks them (R250). -/
def alignedAddresses : Instr → List (Word × Nat)
  | .halt => []
  | .rgb2hsv dst src _ => [(src, 4), (dst, 4)]
  | .hsv2rgb dst src _ => [(src, 4), (dst, 4)]
  | .lerp dst srcA srcB _ _ => [(srcA, 4), (dst, 4), (srcB, 4)]
  | .lutld src => [(src, 4)]
  | .gamma dst src _ => [(src, 8), (dst, 4)]
  | .resize dst _ _ src _ _ blur scratch => if 0 < blur then [(src, 4), (dst, 4), (scratch, 4)] else [(src, 4), (dst, 4)]
  | .conv dst src _ _ kernel _ _ _ _ => [(src, 4), (dst, 4), (kernel, 8)]

/-- The checks 5 to 8 of R250 pass: DIM, UPSAMPLE, NULL_SCRATCH, KERNEL_SIZE, where the command has them. -/
def sizesLegal : Instr → Prop
  | .halt => True
  | .rgb2hsv _ _ _ => True
  | .hsv2rgb _ _ _ => True
  | .lerp _ _ _ _ _ => True
  | .lutld _ => True
  | .gamma _ _ _ => True
  | .resize _ dstW dstH _ srcW srcH blur scratch =>
    legalAxis srcW dstW ∧ legalAxis srcH dstH ∧ (0 < blur → scratch ≠ 0 ∧ 2 ≤ dstW ∧ 2 ≤ dstH)
  | .conv _ _ w h _ kw kh _ _ => (1 ≤ w ∧ 1 ≤ h ∧ 1 ≤ kw ∧ 1 ≤ kh) ∧ kw * kh ≤ 1024 ∧ kw / 2 ≤ w ∧ kh / 2 ≤ h

/-- The table of R85 row by row: the read regions, then the written ones, by base and number of bytes. -/
def regionTable (L : Nat) : Instr → List Region × List Region
  | .halt => ([], [])
  | .rgb2hsv dst src count => ([⟨src.toNat, 4 * count⟩], [⟨dst.toNat, 4 * count⟩])
  | .hsv2rgb dst src count => ([⟨src.toNat, 4 * count⟩], [⟨dst.toNat, 4 * count⟩])
  | .lerp dst srcA srcB count _ => ([⟨srcA.toNat, 4 * count⟩, ⟨srcB.toNat, 4 * count⟩], [⟨dst.toNat, 4 * count⟩])
  | .lutld src => ([⟨src.toNat, 2 ^ L⟩], [])
  | .gamma dst src count => ([⟨src.toNat, 8 * count⟩], [⟨dst.toNat, 4 * count⟩])
  | .resize dst dstW dstH src srcW srcH blur scratch =>
    ([⟨src.toNat, 4 * (srcW * srcH)⟩],
      if 0 < blur then [⟨dst.toNat, 4 * (dstW * dstH)⟩, ⟨scratch.toNat, 4 * (dstW * dstH)⟩]
      else [⟨dst.toNat, 4 * (dstW * dstH)⟩])
  | .conv dst src w h kernel kw kh _ _ =>
    ([⟨src.toNat, 4 * (w * h)⟩, ⟨kernel.toNat, 8 * (kw * kh)⟩], [⟨dst.toNat, 4 * (w * h)⟩])

/-- The regions of R85 in the order RANGE checks them. -/
def regionsOf (L : Nat) (i : Instr) : List Region := (regionTable L i).1 ++ (regionTable L i).2

/-- The regions have an address in common (R13). -/
abbrev Region.meets (r q : Region) : Prop := ∃ a, r.has a ∧ q.has a

/-- `DST` of a command that has one. -/
def destinationOf : Instr → Option Word
  | .halt => none
  | .rgb2hsv dst _ _ => some dst
  | .hsv2rgb dst _ _ => some dst
  | .lerp dst _ _ _ _ => some dst
  | .lutld _ => none
  | .gamma dst _ _ => some dst
  | .resize dst _ _ _ _ _ _ _ => some dst
  | .conv dst _ _ _ _ _ _ _ _ => some dst

/-- The overlaps that R86 forbids, row by row of its table. -/
def forbiddenOverlap : Instr → Prop
  | .halt => False
  | .rgb2hsv dst src count => Region.meets ⟨src.toNat, 4 * count⟩ ⟨dst.toNat, 4 * count⟩ ∧ src ≠ dst
  | .hsv2rgb dst src count => Region.meets ⟨src.toNat, 4 * count⟩ ⟨dst.toNat, 4 * count⟩ ∧ src ≠ dst
  | .lerp dst srcA srcB count _ =>
    (Region.meets ⟨srcA.toNat, 4 * count⟩ ⟨dst.toNat, 4 * count⟩ ∧ srcA ≠ dst)
      ∨ (Region.meets ⟨srcB.toNat, 4 * count⟩ ⟨dst.toNat, 4 * count⟩ ∧ srcB ≠ dst)
  | .lutld _ => False
  | .gamma dst src count => Region.meets ⟨src.toNat, 8 * count⟩ ⟨dst.toNat, 4 * count⟩
  | .resize dst dstW dstH src srcW srcH blur scratch =>
    Region.meets ⟨src.toNat, 4 * (srcW * srcH)⟩ ⟨dst.toNat, 4 * (dstW * dstH)⟩
      ∨ (0 < blur ∧ (Region.meets ⟨src.toNat, 4 * (srcW * srcH)⟩ ⟨scratch.toNat, 4 * (dstW * dstH)⟩
        ∨ Region.meets ⟨dst.toNat, 4 * (dstW * dstH)⟩ ⟨scratch.toNat, 4 * (dstW * dstH)⟩))
  | .conv dst src w h kernel kw kh _ _ =>
    Region.meets ⟨dst.toNat, 4 * (w * h)⟩ ⟨kernel.toNat, 8 * (kw * kh)⟩
      ∨ (Region.meets ⟨src.toNat, 4 * (w * h)⟩ ⟨dst.toNat, 4 * (w * h)⟩ ∧ ¬(kw = 1 ∧ kh = 1 ∧ src = dst))

/-- A binary64 bit pattern that is neither a NaN nor an infinity: its exponent field is not all ones. -/
abbrev finiteBits (b : DWord) : Prop := b.toNat / 2 ^ 52 % 2048 ≠ 2047

/-- CONV passes the checks of R250 that come before NONFINITE (R200 steps 1 to 5, CP_WRAP). -/
structure ConvLegal (s : State) (dst src : Word) (w h : Nat) (kernel : Word) (kw kh : Nat) : Prop where
  notAtTop : s.cp ≠ 0xFFFFFFC0
  srcAligned : src.toNat % 4 = 0
  dstAligned : dst.toNat % 4 = 0
  kernelAligned : kernel.toNat % 8 = 0
  extents : 1 ≤ w ∧ 1 ≤ h ∧ 1 ≤ kw ∧ 1 ≤ kh
  elements : kw * kh ≤ 1024
  fits : kw / 2 ≤ w ∧ kh / 2 ≤ h
  srcInRange : src.toNat + 4 * (w * h) ≤ 2 ^ 32
  kernelInRange : kernel.toNat + 8 * (kw * kh) ≤ 2 ^ 32
  dstInRange : dst.toNat + 4 * (w * h) ≤ 2 ^ 32
  kernelApart : (pixRegion dst (w * h)).overlaps (recRegion kernel (kw * kh)) = false
  imagesApart : (pixRegion src (w * h)).overlaps (pixRegion dst (w * h)) = false ∨ (kw = 1 ∧ kh = 1 ∧ src = dst)

/-- CONV passes the NONFINITE check too (R207): factor, bias and every weight finite, every kernel read allowed. -/
structure ConvFinite (s : State) (kernel : Word) (kw kh : Nat) (factor bias : DWord) : Prop where
  factor : finiteBits factor
  bias : finiteBits bias
  reads : ∀ k < kw * kh, s.platform.memOk (readRec kernel k) = true
  weights : ∀ k < kw * kh, finiteBits (s.mem.read64 (recAddr kernel k))

/-- RESIZE without blur passes every check of R180. -/
structure ResizeLegal (s : State) (dst : Word) (dstW dstH : Nat) (src : Word) (srcW srcH : Nat) : Prop where
  notAtTop : s.cp ≠ 0xFFFFFFC0
  srcAligned : src.toNat % 4 = 0
  dstAligned : dst.toNat % 4 = 0
  xAxis : legalAxis srcW dstW
  yAxis : legalAxis srcH dstH
  srcInRange : src.toNat + 4 * (srcW * srcH) ≤ 2 ^ 32
  dstInRange : dst.toNat + 4 * (dstW * dstH) ≤ 2 ^ 32
  imagesApart : (pixRegion src (srcW * srcH)).overlaps (pixRegion dst (dstW * dstH)) = false

/-- The further checks of RESIZE with blur (R180): the scratch buffer and the blur's kernel. -/
structure ScratchLegal (dst : Word) (dstW dstH : Nat) (src : Word) (srcW srcH : Nat) (scratch : Word) : Prop where
  present : scratch ≠ 0
  aligned : scratch.toNat % 4 = 0
  fits : 2 ≤ dstW ∧ 2 ≤ dstH
  inRange : scratch.toNat + 4 * (dstW * dstH) ≤ 2 ^ 32
  srcApart : (pixRegion src (srcW * srcH)).overlaps (pixRegion scratch (dstW * dstH)) = false
  dstApart : (pixRegion dst (dstW * dstH)).overlaps (pixRegion scratch (dstW * dstH)) = false

/-! ### The running list -/

/-- The state after `k` more commands of the running list, if the core then still runs. -/
def engineAfter : Nat → State → Option State
  | 0, s => if s.busy then some s else none
  | k + 1, s =>
    if s.busy then
      match engineStep s with
      | .next t => engineAfter k t
      | _ => none
    else none

/-- The descriptor at `CP` meets the region, or a region of the command there does (R85, R290). -/
abbrev State.awaits (s : State) (r : Region) : Prop :=
  Region.overlaps ⟨s.cp.toNat, 64⟩ r = true
    ∨ ∃ i, decode (s.mem.descAt s.cp.toNat) = .ok i
        ∧ ∃ q ∈ readRegions s.platform.lutAddrBits i ++ writtenRegions i, q.overlaps r = true

/-! ### Floating point -/

/-- The magnitude is one of the format's finite ones: at most `prec` significant bits, below the limit (R12). -/
abbrev FpFormat.holds (f : FpFormat) (mag : Nat) : Prop := mag < f.limit ∧ ∃ c e, c < 2 ^ f.prec ∧ mag = c * 2 ^ e

/-- A finite value as a whole number of units of the least subnormal. -/
def signedUnits (neg : Bool) (mag : Nat) : Int := if neg then -(mag : Int) else (mag : Int)

/-! ### Safe runs -/

/-- `k` steps from `s` end in a next state: the model neither faults nor refuses. -/
def runsSafely (k : Nat) (s : State) : Prop := ∃ t, Sys2Proof.core.run k s = .next t

/-- The list that runs from `s` has ended normally in `t` (R135): stopped with DONE, no error pending. -/
abbrev endedNormally (t : State) : Prop := t.busy = false ∧ t.done = true ∧ t.err = false

end Sys2Proof.Machine
end

