-- ==== Sys2Proof/Certificates/Slice0/Obligations.lean ====
section
/-! DEFINITION. The statements for the provers. Each docstring names the rules of spec/ it formalises. -/

open Sys2Proof Sys2Proof.Machine

/-! ### Encoding -/

/-- Decode and encode agree (R100 to R114): no operand bit of a well-formed command is dropped. -/
def Obligations.DecodeOfEncodeIsTheCommand : Prop :=
  ∀ i : Instr, i.wellFormed = true → decode (encode i) = .ok i

/-- The other direction: what decodes is well formed and encodes back to the same sixteen words (R109, R112). -/
def Obligations.DecodedCommandEncodesBack : Prop :=
  ∀ (d : Desc) (i : Instr), decode d = .ok i → i.wellFormed = true ∧ encode i = d

/-- Descriptors printed in 95_test_vectors.md (programs P1 to P4) decode to the commands they stand for. -/
def Obligations.PrintedDescriptorsDecode : Prop :=
  decode ⟨0x01, 0, 0, 0, 0, 0, 0, 0, 0, 0, 0, 0, 0, 0, 0, 0⟩ = .ok .halt
  ∧ decode ⟨0x10, 0x2000, 0x2100, 0, 4, 0, 0, 0, 0, 0, 0, 0, 0, 0, 0, 0⟩ = .ok (.rgb2hsv 0x2100 0x2000 4)
  ∧ decode ⟨0x12, 0x3100, 0x3200, 0x3180, 2, 0, 0x40000000, 0, 0, 0, 0, 0, 0, 0, 0, 0⟩
      = .ok (.lerp 0x3200 0x3100 0x3180 2 0x40000000)
  ∧ decode ⟨0x20, 0x4000, 0, 0, 0, 0, 0, 0, 0, 0, 0, 0, 0, 0, 0, 0⟩ = .ok (.lutld 0x4000)
  ∧ decode ⟨0x30, 0x5000, 0x5100, 0x5200, 0x00020002, 0x00040004, 1, 0, 0, 0, 0, 0, 0, 0, 0, 0⟩
      = .ok (.resize 0x5100 4 4 0x5000 2 2 1 0x5200)
  ∧ decode ⟨0x40, 0x6000, 0x6100, 0x6400, 0x00060006, 0x00050005, 0, 0, 0x13B13B14, 0x3FB3B13B, 0, 0, 0, 0, 0, 0⟩
      = .ok (.conv 0x6100 0x6000 6 6 0x6400 5 5 0x3FB3B13B13B13B14 0)

/-- R111: a header that is none of the eight raises ILLEGAL_OPCODE with `ERR_INFO = W0`, precisely, and every header
either selects a command or faults. -/
def Obligations.IllegalHeaderFaults : Prop :=
  ∀ (s : State) (d : Desc), s.turns = [] → s.busy = true → fetch s = .ok d →
    (d.w0 ∉ legalHeaders → ∃ t, step s = .next t ∧ s.faulted 0x01 d.w0 t)
    ∧ (d.w0 ∈ legalHeaders → (∃ i, decode d = .ok i) ∨ ∃ k, decode d = .error (.reservedField k))

/-- R112: after a legal header the lowest non-zero reserved word raises RESERVED_FIELD with its index, precisely; with all
reserved words zero the descriptor is a command. The reserved words are those of R109's table. -/
def Obligations.ReservedWordFaults : Prop :=
  ∀ (s : State) (d : Desc) (op : Opcode), s.turns = [] → s.busy = true → fetch s = .ok d → d.w0 = op.header →
    (∀ k ∈ reservedIndices op, d.words.getD k 0 ≠ 0 →
      (∀ j ∈ reservedIndices op, j < k → d.words.getD j 0 = 0) →
      ∃ t, step s = .next t ∧ s.faulted 0x02 (BitVec.ofNat 32 k) t)
    ∧ ((∀ k ∈ reservedIndices op, d.words.getD k 0 = 0) → ∃ i, decode d = .ok i)

/-! ### The step of the engine -/

/-- R132: FETCH_ALIGN before any access; FETCH_BUS with the lowest refused word; else the sixteen words at `CP`. -/
def Obligations.FetchFollowsItsRule : Prop :=
  ∀ s : State, s.turns = [] → s.busy = true →
    (s.cp.toNat % 64 ≠ 0 → ∃ t, step s = .next t ∧ s.faulted 0x03 s.cp t)
    ∧ (s.cp.toNat % 64 = 0 → ∀ k < 16, s.platform.memOk ⟨.fetch, s.cp.toNat + 4 * k, 4⟩ = false →
        (∀ j < k, s.platform.memOk ⟨.fetch, s.cp.toNat + 4 * j, 4⟩ = true) →
        ∃ t, step s = .next t ∧ s.faulted 0x04 (BitVec.ofNat 32 (s.cp.toNat + 4 * k)) t)
    ∧ (s.cp.toNat % 64 = 0 → (∀ k < 16, s.platform.memOk ⟨.fetch, s.cp.toNat + 4 * k, 4⟩ = true) →
        ∃ d, fetch s = .ok d ∧ ∀ k < 16, d.words.getD k 0 = s.mem.read32 (s.cp.toNat + 4 * k))

/-- A step runs the decoded command (R135): when the descriptor at `CP` decodes, the step is `exec` of that command with
the latch holding the descriptor (R33), both with an empty schedule and on the core's turn of a schedule. -/
def Obligations.StepRunsTheDecodedCommand : Prop :=
  ∀ (s : State) (i : Instr), s.busy = true → s.cp.toNat % 64 = 0 → s.allows (fetchAccesses s.cp.toNat) →
    decode (s.mem.descAt s.cp.toNat) = .ok i →
    (s.turns = [] → step s = exec i { s with desc := s.mem.descAt s.cp.toNat })
    ∧ (∀ rest, s.turns = .core :: rest → step s = exec i { s with turns := rest, desc := s.mem.descAt s.cp.toNat })

/-- The instruction placed by `withFetchWord` is the one the very next step runs (the model's loading, log 6). -/
def Obligations.PlacedWordIsRunNext : Prop :=
  ∀ (s : State) (nbits w : Nat) (i : Instr), decodeTableWord nbits w = some i →
    step (s.withFetchWord nbits w) = exec i { s.withFetchWord nbits w with desc := descOfBits nbits w }

/-- A stopped core does nothing until the host moves (R130, R280; that the step then returns the same state is log 22). -/
def Obligations.StoppedCoreDoesNothing : Prop :=
  ∀ s : State, s.busy = false →
    (s.turns = [] → step s = .next s) ∧ (∀ rest, s.turns = .core :: rest → step s = .next { s with turns := rest })

/-- R133's sequencing check: every command but HALT raises CP_WRAP in the last descriptor slot, and HALT is legal there. -/
def Obligations.LastSlotTakesOnlyHalt : Prop :=
  ∀ (i : Instr) (s : State), s.cp = 0xFFFFFFC0 →
    (i ≠ .halt → ∃ t, exec i s = .next t ∧ s.faulted 0x05 0xFFFFFFC0 t)
    ∧ (i = .halt → ∃ t, exec i s = .next t ∧ t.done = true ∧ t.busy = false ∧ t.cp = s.cp ∧ t.err = s.err)

/-- R136: HALT stops the core with DONE, keeps `CP`, changes no memory and no other register. -/
def Obligations.HaltEndsTheList : Prop :=
  ∀ s : State, ∃ t, exec .halt s = .next t
    ∧ t = { s with busy := false, done := true, desc := t.desc, freeCount := t.freeCount }

/-- No command is refused and none stops the model, nor does the core's step: every outcome is a next state (R114, R240; that
the step of a stopped core is one is the model's choice, log 22). -/
def Obligations.EveryCommandTakesANextState : Prop :=
  (∀ (i : Instr) (s : State), ∃ t, exec i s = .next t) ∧ (∀ s : State, s.turns = [] → ∃ t, step s = .next t)

/-- A command other than HALT either completes (`CP` advances by 64, the registers of a fault untouched) or faults (`CP`
kept, stopped with ERR and a code of R241) (R134, R245). -/
def Obligations.EveryCommandCompletesOrFaults : Prop :=
  ∀ (i : Instr) (s t : State), i ≠ .halt → exec i s = .next t →
    (t.cp = s.cp + 64 ∧ s.cp ≠ 0xFFFFFFC0 ∧ t.busy = s.busy ∧ t.done = s.done ∧ t.err = s.err ∧ t.errCode = s.errCode
        ∧ t.errCp = s.errCp ∧ t.errInfo = s.errInfo ∧ t.desc = s.desc)
    ∨ (t.cp = s.cp ∧ t.busy = false ∧ t.done = s.done ∧ t.err = true ∧ t.errCp = s.cp ∧ t.errCode ∈ faultCodes)

/-! ### Faults -/

/-- R245: what raising a fault records and leaves alone, and that the core is then stopped; `irq` follows R255. That the step
of the stopped core answers the same state is the model's reading (log 22). -/
def Obligations.RaiseRecordsTheFault : Prop :=
  ∀ (s : State) (r : Raised),
    (s.raise r).errCode = r.cause.code ∧ (s.raise r).errCp = s.cp ∧ (s.raise r).errInfo = r.info
    ∧ (s.raise r).busy = false ∧ (s.raise r).err = true ∧ (s.raise r).cp = s.cp ∧ (s.raise r).done = s.done
    ∧ (s.raise r).lutv = s.lutv ∧ (s.raise r).oor = s.oor ∧ (s.raise r).mem = s.mem ∧ (s.raise r).lut = s.lut
    ∧ (s.raise r).irq = ((s.done && s.doneIe) || s.errIe)
    ∧ (s.turns = [] → step (s.raise r) = .next (s.raise r))

/-- R246: every fault of the fetch, of decoding and of validation is precise. -/
def Obligations.PreciseFaultsChangeNothingElse : Prop :=
  ∀ s : State, s.turns = [] → s.busy = true →
    (∀ r, fetch s = .error r → ∃ t, step s = .next t ∧ s.faulted r.cause.code r.info t)
    ∧ (∀ d e, fetch s = .ok d → decode d = .error e →
        ∃ t, step s = .next t ∧ s.faulted (decodeFault e).cause.code (decodeFault e).info t)
    ∧ ∀ d i r, fetch s = .ok d → decode d = .ok i → validate s i = some r →
        ∃ t, step s = .next t ∧ s.faulted r.cause.code r.info t

/-- R80, R81, R250: the first misaligned address of a command, in the order `SRC`, `DST`, `AUX` of those it uses (`AUX` of RESIZE
only when `BLUR > 0`; `SRC` of GAMMA and the kernel of CONV are multiples of 8), raises ALIGN with that address, whatever
else is wrong with the command but its place at the top of memory. -/
def Obligations.MisalignedAddressFaultsFirst : Prop :=
  ∀ (i : Instr) (s : State) (before after : List (Word × Nat)) (addr : Word) (n : Nat), s.cp ≠ 0xFFFFFFC0 →
    alignedAddresses i = before ++ (addr, n) :: after → (∀ p ∈ before, p.1.toNat % p.2 = 0) → addr.toNat % n ≠ 0 →
    ∃ t, exec i s = .next t ∧ s.faulted 0x10 addr t

/-- R163, R51: GAMMA without a loaded table raises LUT_INVALID, also with `COUNT = 0`; the checks before it pass. -/
def Obligations.GammaNeedsALoadedTable : Prop :=
  ∀ (s : State) (dst src : Word) (count : Nat),
    s.lutv = false → s.cp ≠ 0xFFFFFFC0 → src.toNat % 8 = 0 → dst.toNat % 4 = 0 →
    src.toNat + 8 * count ≤ 2 ^ 32 → dst.toNat + 4 * count ≤ 2 ^ 32 →
    (recRegion src count).overlaps (pixRegion dst count) = false →
    ∃ t, exec (.gamma dst src count) s = .next t ∧ s.faulted 0x18 0 t

/-- R207: NONFINITE reports the factor, then the bias, then the address of the first weight that is a NaN or an infinity;
a refused kernel read raises BUS instead; all precise. -/
def Obligations.NonfiniteChecksInOrder : Prop :=
  ∀ (s : State) (dst src : Word) (w h : Nat) (kernel : Word) (kw kh : Nat) (factor bias : DWord),
    ConvLegal s dst src w h kernel kw kh →
    (¬finiteBits factor →
      ∃ t, exec (.conv dst src w h kernel kw kh factor bias) s = .next t ∧ s.faulted 0x17 0xFFFFFFFF t)
    ∧ (finiteBits factor → ¬finiteBits bias →
      ∃ t, exec (.conv dst src w h kernel kw kh factor bias) s = .next t ∧ s.faulted 0x17 0xFFFFFFFE t)
    ∧ (finiteBits factor → finiteBits bias → ∀ k < kw * kh,
      (∀ j < k, s.platform.memOk (readRec kernel j) = true ∧ finiteBits (s.mem.read64 (recAddr kernel j))) →
      (s.platform.memOk (readRec kernel k) = false →
        ∃ t, exec (.conv dst src w h kernel kw kh factor bias) s = .next t
          ∧ s.faulted 0x20 (BitVec.ofNat 32 (recAddr kernel k)) t)
      ∧ (s.platform.memOk (readRec kernel k) = true → ¬finiteBits (s.mem.read64 (recAddr kernel k)) →
        ∃ t, exec (.conv dst src w h kernel kw kh factor bias) s = .next t
          ∧ s.faulted 0x17 (BitVec.ofNat 32 (recAddr kernel k)) t))

/-- The checks of CONV between ALIGN and RANGE: DIM with the number of the first zero among `W`, `H`, `KW`, `KH` (R200 step 2),
then the three conditions of KERNEL_SIZE (R203) in order, with their numbers. -/
def Obligations.KernelGeometryIsChecked : Prop :=
  ∀ (s : State) (dst src : Word) (w h : Nat) (kernel : Word) (kw kh : Nat) (factor bias : DWord),
    s.cp ≠ 0xFFFFFFC0 → src.toNat % 4 = 0 → dst.toNat % 4 = 0 → kernel.toNat % 8 = 0 →
    (∀ k < 4, [w, h, kw, kh].getD k 0 = 0 → (∀ j < k, [w, h, kw, kh].getD j 0 ≠ 0) →
      ∃ t, exec (.conv dst src w h kernel kw kh factor bias) s = .next t ∧ s.faulted 0x11 (BitVec.ofNat 32 k) t)
    ∧ (1 ≤ w → 1 ≤ h → 1 ≤ kw → 1 ≤ kh →
      (1024 < kw * kh → ∃ t, exec (.conv dst src w h kernel kw kh factor bias) s = .next t ∧ s.faulted 0x16 0 t)
      ∧ (kw * kh ≤ 1024 → w < kw / 2 →
        ∃ t, exec (.conv dst src w h kernel kw kh factor bias) s = .next t ∧ s.faulted 0x16 1 t)
      ∧ (kw * kh ≤ 1024 → kw / 2 ≤ w → h < kh / 2 →
        ∃ t, exec (.conv dst src w h kernel kw kh factor bias) s = .next t ∧ s.faulted 0x16 2 t))

/-- The checks of RESIZE between ALIGN and RANGE (R180, R184, R188, R203), each with the ones before it passing: DIM with the
number of the first zero extent, UPSAMPLE with the axis, NULL_SCRATCH, and KERNEL_SIZE of the blur's 5x5 kernel. -/
def Obligations.ResizeChecksItsOperands : Prop :=
  ∀ (s : State) (dst src : Word) (dstW dstH srcW srcH : Nat) (blur : Int) (scratch : Word),
    s.cp ≠ 0xFFFFFFC0 → src.toNat % 4 = 0 → dst.toNat % 4 = 0 → (0 < blur → scratch.toNat % 4 = 0) →
    (∀ k < 4, [srcW, srcH, dstW, dstH].getD k 0 = 0 → (∀ j < k, [srcW, srcH, dstW, dstH].getD j 0 ≠ 0) →
      ∃ t, exec (.resize dst dstW dstH src srcW srcH blur scratch) s = .next t ∧ s.faulted 0x11 (BitVec.ofNat 32 k) t)
    ∧ (1 ≤ srcW → 1 ≤ srcH → 1 ≤ dstW → 1 ≤ dstH →
      (srcW ≤ dstW ∧ dstW % srcW ≠ 0 →
        ∃ t, exec (.resize dst dstW dstH src srcW srcH blur scratch) s = .next t ∧ s.faulted 0x14 0 t)
      ∧ ((srcW ≤ dstW → dstW % srcW = 0) → srcH ≤ dstH ∧ dstH % srcH ≠ 0 →
        ∃ t, exec (.resize dst dstW dstH src srcW srcH blur scratch) s = .next t ∧ s.faulted 0x14 1 t))
    ∧ (0 < blur → legalAxis srcW dstW → legalAxis srcH dstH →
      (scratch = 0 →
        ∃ t, exec (.resize dst dstW dstH src srcW srcH blur scratch) s = .next t ∧ s.faulted 0x15 0 t)
      ∧ (scratch ≠ 0 → dstW < 2 →
        ∃ t, exec (.resize dst dstW dstH src srcW srcH blur scratch) s = .next t ∧ s.faulted 0x16 1 t)
      ∧ (scratch ≠ 0 → 2 ≤ dstW → dstH < 2 →
        ∃ t, exec (.resize dst dstW dstH src srcW srcH blur scratch) s = .next t ∧ s.faulted 0x16 2 t))

/-- R247: a validated command one of whose accesses the platform refuses raises BUS; its written regions are unspecified and
nothing outside them changes; LUTLD loses its table (R51); OOR stays set if it was. `ERR_INFO` is one of the refused
addresses (UB2). For CONV this holds when no pixel raises NUMERIC, which may come first. -/
def Obligations.RefusedAccessIsBus : Prop :=
  ∀ (s : State) (i : Instr), validate s i = none →
    (∃ a ∈ accessesOf s.platform.lutAddrBits i, s.platform.memOk a = false) →
    (∀ dst src w h kernel kw kh factor bias, i = .conv dst src w h kernel kw kh factor bias → ∀ x y, x < w → y < h →
      ((convJob s.mem dst src w h kernel kw kh factor bias).pixel s.mem x y).isSome = true) →
    ∃ t, exec i s = .next t ∧ s.mem.sameOutside t.mem (writtenRegions i)
      ∧ ({ s with mem := t.mem, lut := t.lut, lutv := t.lutv, oor := t.oor } : State).faulted 0x20 t.errInfo t
      ∧ ((∀ src, i ≠ .lutld src) → t.lut = s.lut ∧ t.lutv = s.lutv)
      ∧ (∀ src, i = .lutld src → t.lutv = false)
      ∧ ((∀ dst a b n x, i ≠ .lerp dst a b n x) → t.oor = s.oor) ∧ (s.oor = true → t.oor = true)
      ∧ ∃ a ∈ accessesOf s.platform.lutAddrBits i, s.platform.memOk a = false ∧ t.errInfo = BitVec.ofNat 32 a.addr

/-! ### Invariants -/

/-- Every step of the machine, the host's moves among them, keeps the registers consistent (R38, R42, R50) and the parameters
as they are (R54). -/
def Obligations.StepKeepsRegistersConsistent : Prop :=
  ∀ s t : State, step s = .next t → t.platform = s.platform ∧ (s.consistent → t.consistent)

/-- Every step keeps memory in its canonical form. -/
def Obligations.StepKeepsMemoryCanonical : Prop :=
  ∀ s t : State, s.mem.wf → step s = .next t → t.mem.wf

/-- Every step keeps memory inside the 32-bit address space (R52, R85): RANGE guards every write of a command. -/
def Obligations.StepKeepsMemoryInSpace : Prop :=
  ∀ s t : State, s.mem.inSpace → step s = .next t → t.mem.inSpace

/-- The machine right after reset is as R55 says and meets the invariants. The table's and the latch's zeros, memory's
contents and the parameters are the model's choices (logs 1 to 4) and not claimed here. -/
def Obligations.ResetMeetsTheInvariants : Prop :=
  State.reset.cp = 0 ∧ State.reset.statusWord = 0 ∧ State.reset.irqEnWord = 0 ∧ State.reset.errCode = 0
  ∧ State.reset.errCp = 0 ∧ State.reset.errInfo = 0 ∧ State.reset.irq = false
  ∧ State.reset.consistent ∧ State.reset.mem.wf ∧ State.reset.mem.inSpace

/-! ### Frames over all commands -/

/-- R85: no command changes a byte of memory outside its written regions, whether it completes or faults. -/
def Obligations.CommandsWriteOnlyTheirRegions : Prop :=
  ∀ (i : Instr) (s t : State), exec i s = .next t → s.mem.sameOutside t.mem (writtenRegions i)

/-- No command changes IRQ_EN, the parameters, the schedule or the host's data; only LUTLD changes the table and LUTV
(R164); only LERP changes OOR, and it never clears it (R39). -/
def Obligations.CommandsLeaveOtherRegistersAlone : Prop :=
  ∀ (i : Instr) (s t : State), exec i s = .next t →
    t.doneIe = s.doneIe ∧ t.errIe = s.errIe ∧ t.platform = s.platform ∧ t.turns = s.turns ∧ t.readData = s.readData
    ∧ ((∀ src, i ≠ .lutld src) → t.lut = s.lut ∧ t.lutv = s.lutv)
    ∧ ((∀ dst a b n x, i ≠ .lerp dst a b n x) → t.oor = s.oor)
    ∧ (s.oor = true → t.oor = true)

/-- R85: the accesses of a validated command lie in its regions: reads in its read or written ones, writes in its written
ones. -/
def Obligations.AccessesStayInTheRegions : Prop :=
  ∀ (i : Instr) (s : State), validate s i = none → ∀ a ∈ accessesOf s.platform.lutAddrBits i, ∀ x, a.addr ≤ x →
    x < a.addr + a.bytes →
    (a.kind = .read → ∃ r ∈ readRegions s.platform.lutAddrBits i ++ writtenRegions i, r.has x)
    ∧ (a.kind ≠ .read → ∃ r ∈ writtenRegions i, r.has x)

/-- R16: what a command that completes leaves in memory, LUT, LUTV and OOR is a function of the command, memory, LUT, LUTV,
OOR, `CP` and the parameters: two states that agree on these give the same result. -/
def Obligations.CompletionIsDeterministic : Prop :=
  ∀ (i : Instr) (s s' t t' : State), s.mem = s'.mem → s.lut = s'.lut → s.lutv = s'.lutv → s.oor = s'.oor → s.cp = s'.cp →
    s.platform = s'.platform → s.err = false → s'.err = false → exec i s = .next t → exec i s' = .next t' →
    t.err = false → t'.err = false ∧ t.mem = t'.mem ∧ t.lut = t'.lut ∧ t.lutv = t'.lutv ∧ t.oor = t'.oor ∧ t.cp = t'.cp

/-! ### Each command completes, and with what -/

/-- RGB2HSV completes (R144, R141): every destination word is the conversion of its source word, in place or disjoint. -/
def Obligations.Rgb2hsvConvertsEveryPixel : Prop :=
  ∀ (s : State) (dst src : Word) (count : Nat),
    s.cp ≠ 0xFFFFFFC0 → src.toNat % 4 = 0 → dst.toNat % 4 = 0 →
    src.toNat + 4 * count ≤ 2 ^ 32 → dst.toNat + 4 * count ≤ 2 ^ 32 →
    apart src dst (pixRegion src count) (pixRegion dst count) → s.allows (pixelStreamAccesses dst src count) →
    ∃ t, exec (.rgb2hsv dst src count) s = .next t ∧ t = { s with mem := t.mem, cp := s.cp + 64 }
      ∧ (∀ k < count, t.mem.pix dst k
          = let p := rgbToHsv (ch0 (s.mem.pix src k)) (ch1 (s.mem.pix src k)) (ch2 (s.mem.pix src k)); pack3 p.1 p.2.1 p.2.2)
      ∧ s.mem.sameOutside t.mem [pixRegion dst count]

/-- HSV2RGB completes (R148, R141). -/
def Obligations.Hsv2rgbConvertsEveryPixel : Prop :=
  ∀ (s : State) (dst src : Word) (count : Nat),
    s.cp ≠ 0xFFFFFFC0 → src.toNat % 4 = 0 → dst.toNat % 4 = 0 →
    src.toNat + 4 * count ≤ 2 ^ 32 → dst.toNat + 4 * count ≤ 2 ^ 32 →
    apart src dst (pixRegion src count) (pixRegion dst count) → s.allows (pixelStreamAccesses dst src count) →
    ∃ t, exec (.hsv2rgb dst src count) s = .next t ∧ t = { s with mem := t.mem, cp := s.cp + 64 }
      ∧ (∀ k < count, t.mem.pix dst k
          = let p := hsvToRgb (ch0 (s.mem.pix src k)) (ch1 (s.mem.pix src k)) (ch2 (s.mem.pix src k)); pack3 p.1 p.2.1 p.2.2)
      ∧ s.mem.sameOutside t.mem [pixRegion dst count]

/-- LERP completes (R142): every destination word packs the interpolations of the three channel pairs of its two source words,
and OOR is set exactly when it was set or some channel of some pixel was out of range (R39). -/
def Obligations.LerpInterpolatesEveryPixel : Prop :=
  ∀ (s : State) (dst srcA srcB : Word) (count : Nat) (t32 : BitVec 32),
    s.cp ≠ 0xFFFFFFC0 → srcA.toNat % 4 = 0 → dst.toNat % 4 = 0 → srcB.toNat % 4 = 0 →
    srcA.toNat + 4 * count ≤ 2 ^ 32 → srcB.toNat + 4 * count ≤ 2 ^ 32 → dst.toNat + 4 * count ≤ 2 ^ 32 →
    apart srcA dst (pixRegion srcA count) (pixRegion dst count) →
    apart srcB dst (pixRegion srcB count) (pixRegion dst count) → s.allows (lerpAccesses dst srcA srcB count) →
    let chan := fun (k : Nat) (ch : Word → Nat) =>
      lerpChan (ch (s.mem.pix srcA k)) (ch (s.mem.pix srcB k)) (binary32.decode t32.toNat)
    ∃ t, exec (.lerp dst srcA srcB count t32) s = .next t ∧ t = { s with mem := t.mem, cp := s.cp + 64, oor := t.oor }
      ∧ (∀ k < count, t.mem.pix dst k = pack3 (chan k ch0).1 (chan k ch1).1 (chan k ch2).1)
      ∧ (t.oor = true ↔ s.oor = true
          ∨ ∃ k < count, (chan k ch0).2 = true ∨ (chan k ch1).2 = true ∨ (chan k ch2).2 = true)
      ∧ s.mem.sameOutside t.mem [pixRegion dst count]

/-- LUTLD completes (R160): entry `k` of the table is byte `k` of the image, `LUTV` is 1, no memory is written. -/
def Obligations.LutldLoadsTheTable : Prop :=
  ∀ (s : State) (src : Word), s.cp ≠ 0xFFFFFFC0 → src.toNat % 4 = 0 →
    src.toNat + 2 ^ s.platform.lutAddrBits ≤ 2 ^ 32 → s.allows (lutldAccesses s.platform.lutAddrBits src) →
    ∃ t, exec (.lutld src) s = .next t ∧ t = { s with lut := t.lut, lutv := true, cp := s.cp + 64 }
      ∧ t.lut.length = 2 ^ s.platform.lutAddrBits
      ∧ ∀ k < 2 ^ s.platform.lutAddrBits, t.lut.getD k 0 = s.mem.read (src.toNat + k)

/-- GAMMA completes (R163): channel `j` of a destination word is the table entry that the top `L` bits of field `j` of its
record select. -/
def Obligations.GammaLooksUpEveryRecord : Prop :=
  ∀ (s : State) (dst src : Word) (count : Nat),
    s.lutv = true → s.cp ≠ 0xFFFFFFC0 → src.toNat % 8 = 0 → dst.toNat % 4 = 0 →
    src.toNat + 8 * count ≤ 2 ^ 32 → dst.toNat + 4 * count ≤ 2 ^ 32 →
    (recRegion src count).overlaps (pixRegion dst count) = false → s.allows (gammaAccesses dst src count) →
    ∃ t, exec (.gamma dst src count) s = .next t ∧ t = { s with mem := t.mem, cp := s.cp + 64 }
      ∧ (∀ k < count,
          let entry := fun j : Nat =>
            (s.lut.getD (s.mem.readLE (recAddr src k + 2 * j) 2 / 2 ^ (16 - s.platform.lutAddrBits)) 0).toNat
          t.mem.pix dst k = pack3 (entry 0) (entry 1) (entry 2))
      ∧ s.mem.sameOutside t.mem [pixRegion dst count]

/-- RESIZE without blur completes (R180 to R183): every destination word is a whole source word (R73). -/
def Obligations.ResizeCopiesNearestPixels : Prop :=
  ∀ (s : State) (dst src : Word) (dstW dstH srcW srcH : Nat) (blur : Int) (scratch : Word), blur ≤ 0 →
    ResizeLegal s dst dstW dstH src srcW srcH → s.allows (resampleAccesses dst dstW dstH src srcW srcH) →
    ∃ t, exec (.resize dst dstW dstH src srcW srcH blur scratch) s = .next t ∧ t = { s with mem := t.mem, cp := s.cp + 64 }
      ∧ (∀ x y, x < dstW → y < dstH →
          t.mem.pix dst (y * dstW + x) = s.mem.pix src (axisSource srcH dstH y * srcW + axisSource srcW dstW x))
      ∧ s.mem.sameOutside t.mem [pixRegion dst (dstW * dstH)]

/-- RESIZE with blur completes (R186): the scratch buffer holds the resampled image, the destination its convolution with
the blur kernel. -/
def Obligations.BlurredResizeConvolvesOnce : Prop :=
  ∀ (s : State) (dst src : Word) (dstW dstH srcW srcH : Nat) (blur : Int) (scratch : Word), 0 < blur →
    ResizeLegal s dst dstW dstH src srcW srcH → ScratchLegal dst dstW dstH src srcW srcH scratch →
    s.allows (resampleAccesses dst dstW dstH src srcW srcH ++ blurAccesses dst dstW dstH scratch) →
    ∃ t, exec (.resize dst dstW dstH src srcW srcH blur scratch) s = .next t ∧ t = { s with mem := t.mem, cp := s.cp + 64 }
      ∧ (∀ x y, x < dstW → y < dstH →
          t.mem.pix scratch (y * dstW + x) = s.mem.pix src (axisSource srcH dstH y * srcW + axisSource srcW dstW x)
          ∧ (blurJob dst dstW dstH scratch).pixel t.mem x y = some (t.mem.pix dst (y * dstW + x)))
      ∧ s.mem.sameOutside t.mem [pixRegion dst (dstW * dstH), pixRegion scratch (dstW * dstH)]

/-- CONV completes (R200, R206) when no channel is a NaN: every destination word is the applicator's word of the image as it
was, in place (1x1 kernel) or disjoint. -/
def Obligations.ConvFiltersEveryPixel : Prop :=
  ∀ (s : State) (dst src : Word) (w h : Nat) (kernel : Word) (kw kh : Nat) (factor bias : DWord),
    ConvLegal s dst src w h kernel kw kh → ConvFinite s kernel kw kh factor bias →
    s.allows (convJob s.mem dst src w h kernel kw kh factor bias).accesses →
    (∀ x y, x < w → y < h → ((convJob s.mem dst src w h kernel kw kh factor bias).pixel s.mem x y).isSome = true) →
    ∃ t, exec (.conv dst src w h kernel kw kh factor bias) s = .next t ∧ t = { s with mem := t.mem, cp := s.cp + 64 }
      ∧ (∀ x y, x < w → y < h →
          (convJob s.mem dst src w h kernel kw kh factor bias).pixel s.mem x y = some (t.mem.pix dst (y * w + x)))
      ∧ s.mem.sameOutside t.mem [pixRegion dst (w * h)]

/-- CONV raises NUMERIC at the first destination pixel, rows outermost, with a NaN channel (R205, R206), every access being
allowed; nothing outside the destination region changes (R247). -/
def Obligations.ConvNanRaisesNumeric : Prop :=
  ∀ (s : State) (dst src : Word) (w h : Nat) (kernel : Word) (kw kh : Nat) (factor bias : DWord) (x y : Nat),
    ConvLegal s dst src w h kernel kw kh → ConvFinite s kernel kw kh factor bias →
    s.allows (convJob s.mem dst src w h kernel kw kh factor bias).accesses → x < w → y < h →
    (convJob s.mem dst src w h kernel kw kh factor bias).pixel s.mem x y = none →
    (∀ x' y', x' < w → y' * w + x' < y * w + x →
      ((convJob s.mem dst src w h kernel kw kh factor bias).pixel s.mem x' y').isSome = true) →
    ∃ t, exec (.conv dst src w h kernel kw kh factor bias) s = .next t
      ∧ s.mem.sameOutside t.mem [pixRegion dst (w * h)]
      ∧ ({ s with mem := t.mem } : State).faulted 0x21 (BitVec.ofNat 32 (dst.toNat + 4 * (y * w + x))) t

/-! ### The scalar rules -/

/-- R145, R146, R147: value, saturation and hue of every colour, the hue as the branch's base plus its quotient modulo 256;
saturation 0, the quotient and the ranges of the hue in each branch, every hue produced, pure colours, greys; bits 31:24 of
the input play no part. -/
def Obligations.RgbToHsvFacts : Prop :=
  (∀ r g b, r ≤ 255 → g ≤ 255 → b ≤ 255 →
    let p := rgbToHsv r g b
    let mx := max r (max g b)
    let mn := min r (min g b)
    let quotient := fun x y : Nat => Int.tdiv (43 * ((x : Int) - y)) (mx - mn : Nat)
    p.2.2 = mx ∧ (p.2.1 = 0 ↔ mx = mn ∨ mx = 0) ∧ p.1 ≤ 255 ∧ p.2.1 ≤ 255
    ∧ (mx = 0 → p = (0, 0, 0)) ∧ (mx ≠ 0 → p.2.1 = 255 * (mx - mn) / mx) ∧ (p.2.1 = 0 → p.1 = 0)
    ∧ (1 ≤ p.2.1 → (p.1 : Int)
        = (if r = mx then quotient g b else if g = mx then 85 + quotient b r else 171 + quotient r g) % 256)
    ∧ (mx ≠ mn → (quotient g b).natAbs ≤ 43 ∧ (quotient b r).natAbs ≤ 43 ∧ (quotient r g).natAbs ≤ 43)
    ∧ (mx ≠ mn → r = mx → p.1 ≤ 43 ∨ 213 ≤ p.1)
    ∧ (mx ≠ mn → r ≠ mx → g = mx → 42 ≤ p.1 ∧ p.1 ≤ 128)
    ∧ (mx ≠ mn → r ≠ mx → g ≠ mx → 128 ≤ p.1 ∧ p.1 ≤ 214))
  ∧ (∀ k, k ≤ 255 → rgbToHsv k k k = (0, 0, k))
  ∧ (∀ h, h ≤ 255 → ∃ r g b, r ≤ 255 ∧ g ≤ 255 ∧ b ≤ 255 ∧ (rgbToHsv r g b).1 = h)
  ∧ rgbToHsv 255 0 0 = (0, 255, 255) ∧ rgbToHsv 0 255 0 = (85, 255, 255) ∧ rgbToHsv 0 0 255 = (171, 255, 255)
  ∧ rgbToHsv 255 255 0 = (43, 255, 255) ∧ rgbToHsv 0 255 255 = (128, 255, 255) ∧ rgbToHsv 255 0 255 = (213, 255, 255)
  ∧ ∀ c c' : Word, c &&& 0x00FFFFFF = c' &&& 0x00FFFFFF → rgb2hsvWord c = rgb2hsvWord c'

/-- R149 to R153: `s = 0` gives grey; else the row of the table of R152 that the region selects, of `v` and the intermediate
values of R151, and the region and the remainder are within their ranges; the largest channel is `v`; so the round trip keeps
the largest channel of every colour, and it reproduces greys. -/
def Obligations.HsvRoundTripKeepsLargestChannel : Prop :=
  (∀ h s v, h ≤ 255 → s ≤ 255 → v ≤ 255 →
    let o := hsvToRgb h s v
    let rem := (h - h / 43 * 43) * 6
    let p := v * (255 - s) / 256
    let q := v * (255 - s * rem / 256) / 256
    let t := v * (255 - s * (255 - rem) / 256) / 256
    (s = 0 → o = (v, v, v))
    ∧ (1 ≤ s →
        (h / 43 = 0 → o = (v, t, p)) ∧ (h / 43 = 1 → o = (q, v, p)) ∧ (h / 43 = 2 → o = (p, v, t))
        ∧ (h / 43 = 3 → o = (p, q, v)) ∧ (h / 43 = 4 → o = (t, p, v)) ∧ (h / 43 = 5 → o = (v, p, q)))
    ∧ max o.1 (max o.2.1 o.2.2) = v ∧ p ≤ 254 ∧ q ≤ 254 ∧ t ≤ 254 ∧ h / 43 ≤ 5 ∧ rem ≤ 252)
  ∧ ∀ r g b, r ≤ 255 → g ≤ 255 → b ≤ 255 →
    let p := rgbToHsv r g b
    let q := hsvToRgb p.1 p.2.1 p.2.2
    max q.1 (max q.2.1 q.2.2) = max r (max g b) ∧ (r = g → g = b → q = (r, g, b))

/-- R154: at `t = +0`, `-0` and `1` the interpolation gives the end points exactly; between equal channels, for every binary32
`t` from `+0` to `1`, it gives `x` or `x - 1`, and at `t = 2^30` it gives 0; no mark in any of these. -/
def Obligations.LerpInterpolatesWithinRounding : Prop :=
  (∀ x y, x ≤ 255 → y ≤ 255 →
    lerpChan x y (binary32.decode 0x00000000) = (x, false) ∧ lerpChan x y (binary32.decode 0x80000000) = (x, false)
    ∧ lerpChan x y (binary32.decode 0x3F800000) = (y, false))
  ∧ (∀ x bits, x ≤ 255 → bits ≤ 0x3F800000 →
    let c := lerpChan x x (binary32.decode bits)
    (c.1 = x ∨ c.1 + 1 = x) ∧ c.2 = false)
  ∧ (∀ x, x ≤ 255 → lerpChan x x (binary32.decode 0x4E800000) = (0, false))
  ∧ lerpChan 3 3 (binary32.decode 0x391D4952) = (2, false) ∧ lerpChan 0 255 (binary32.decode 0x3F000000) = (127, false)

/-- R143: the interpolated value, four operations each rounded once; what is stored for a NaN, an infinity and a finite value
of `mag` units of `2^-149`, and when it is marked out of range; a NaN `t` stores 0 marked; every stored channel is one. -/
def Obligations.LerpStoresAChannel : Prop :=
  (∀ x y t, lerpChan x y t = storeChan (binary32.add (binary32.mul (binary32.ofNat x) (binary32.sub (binary32.ofNat 1) t))
      (binary32.mul (binary32.ofNat y) t)))
  ∧ storeChan .nan = (0, true) ∧ storeChan (.inf false) = (255, true) ∧ storeChan (.inf true) = (0, true)
  ∧ (∀ neg mag, storeChan (.fin neg mag)
      = if neg then (if mag < 2 ^ 149 then (0, false) else (0, true))
        else if mag < 256 * 2 ^ 149 then (mag / 2 ^ 149, false) else (255, true))
  ∧ (∀ x y, lerpChan x y .nan = (0, true)) ∧ ∀ x y t, (lerpChan x y t).1 ≤ 255

/-- R162: the index is in bounds, is the code itself for `L = 16`, and entry `j` serves exactly its interval of codes. -/
def Obligations.LutIndexSelectsTopBits : Prop :=
  ∀ L l, 8 ≤ L → L ≤ 16 → l < 2 ^ 16 →
    lutIndex L l < 2 ^ L ∧ (L = 16 → lutIndex L l = l)
    ∧ ∀ j, lutIndex L l = j ↔ j * 2 ^ (16 - L) ≤ l ∧ l < (j + 1) * 2 ^ (16 - L)

/-- R182, R183, R184: the step and the source coordinate of an axis; with legal extents the step is at least 1 and every
source coordinate lies in the source; an upsampling axis that is no exact multiple would read outside it. -/
def Obligations.LegalAxesStayInTheSource : Prop :=
  ∀ src dst, 1 ≤ src → 1 ≤ dst →
    1 ≤ axisStep src dst
    ∧ (dst < src → axisStep src dst = src / dst ∧ ∀ x, axisSource src dst x = x * (src / dst))
    ∧ (src ≤ dst → axisStep src dst = dst / src ∧ ∀ x, axisSource src dst x = x / (dst / src))
    ∧ ((src ≤ dst → dst % src = 0) → ∀ x < dst, axisSource src dst x < src)
    ∧ (src ≤ dst → dst % src ≠ 0 → src ≤ axisSource src dst (dst - 1))

/-- R202: `wrap` is `(v + extent) mod extent`; for offsets no more negative than one extent it is in range and congruent to
the offset; the source pixel that a tap reads. -/
def Obligations.WrapIsInRangeAndCongruent : Prop :=
  (∀ (v : Int) (extent : Nat), 0 < extent → -(extent : Int) ≤ v →
    (wrap v extent : Int) = (v + extent) % extent ∧ wrap v extent < extent
    ∧ ∃ q : Int, v = (wrap v extent : Int) + q * extent)
  ∧ ∀ (j : ConvJob) (x y fx fy : Nat), 0 < j.w → 0 < j.h →
    j.tapIndex x y fx fy % j.w = wrap ((x : Int) - (j.kw / 2 : Nat) + fx) j.w
    ∧ j.tapIndex x y fx fy / j.w = wrap ((y : Int) - (j.kh / 2 : Nat) + fy) j.h

/-- R205: the output channel: NaN is none, infinities clamp, a finite value is rounded to the nearest integer with ties
away from zero and clamped. -/
def Obligations.OutputChannelRoundsAndClamps : Prop :=
  ∀ acc factor bias : Fp,
    let v := binary64.add (binary64.mul factor acc) bias
    (outChan acc factor bias = none ↔ v = .nan)
    ∧ (v = .inf false → outChan acc factor bias = some 255) ∧ (v = .inf true → outChan acc factor bias = some 0)
    ∧ (∀ mag, v = .fin true mag → outChan acc factor bias = some 0)
    ∧ ∀ mag, v = .fin false mag → ∀ n : Nat, 2 * n * 2 ^ 1074 ≤ 2 * mag + 2 ^ 1074 → 2 * mag < 2 * n * 2 ^ 1074 + 2 ^ 1074 →
        outChan acc factor bias = some (min n 255)

/-- R12, the rounding of every operation. A magnitude rounds to the nearest integer, a tie to the even one. An exact value of
`m / 2^d` units of the format's least subnormal rounds to an infinity when it lies half a unit in the last place or less below
the first power of two beyond the finite range, or above; else to a finite value of the format, subnormal or of at most 24 or
53 significant bits, that no other finite value is nearer to, and in a tie to the one whose last bit is zero. The sign stays. -/
def Obligations.RoundingIsToNearestEven : Prop :=
  (∀ m k,
    let q := roundNearestEven m k
    2 * m ≤ (2 * q + 1) * 2 ^ k ∧ 2 * q * 2 ^ k ≤ 2 * m + 2 ^ k
    ∧ (2 * m = (2 * q + 1) * 2 ^ k ∨ 2 * q * 2 ^ k = 2 * m + 2 ^ k → q % 2 = 0))
  ∧ (binary32.prec = 24 ∧ binary32.limit = 2 ^ (128 + 149)) ∧ (binary64.prec = 53 ∧ binary64.limit = 2 ^ (1024 + 1074))
  ∧ ∀ f, f = binary32 ∨ f = binary64 → ∀ (neg : Bool) (m d : Nat),
    let overflow := (f.limit - f.limit / 2 ^ (f.prec + 1)) * 2 ^ d
    (overflow ≤ m → f.round neg m d = .inf neg)
    ∧ (m < overflow → ∃ mag, f.round neg m d = .fin neg mag ∧ f.holds mag
        ∧ ∀ other, f.holds other → other ≠ mag →
          let error := fun n : Nat => ((m : Int) - n * 2 ^ d).natAbs
          error mag ≤ error other ∧ (error mag = error other → mag % (2 * ((mag : Int) - other).natAbs) = 0))

/-- R186: the blur pass never meets a NaN, whatever the image, so no RESIZE raises NUMERIC. -/
def Obligations.BlurNeverMeetsANan : Prop :=
  (∀ (dst : Word) (dstW dstH : Nat) (scratch : Word) (m : Memory) (x y : Nat),
    ((blurJob dst dstW dstH scratch).pixel m x y).isSome = true)
  ∧ ∀ (s t : State) (dst : Word) (dstW dstH : Nat) (src : Word) (srcW srcH : Nat) (blur : Int) (scratch : Word),
    s.errCode ≠ 0x21 → exec (.resize dst dstW dstH src srcW srcH blur scratch) s = .next t → t.errCode ≠ 0x21

/-- R189: blurring an image of one colour gives that colour, the unused byte 0. -/
def Obligations.BlurKeepsASolidColour : Prop :=
  ∀ (dst : Word) (dstW dstH : Nat) (scratch : Word) (m : Memory) (c : Word), 2 ≤ dstW → 2 ≤ dstH →
    (∀ k < dstW * dstH, m.pix scratch k = c) →
    ∀ x y, x < dstW → y < dstH → (blurJob dst dstW dstH scratch).pixel m x y = some (c &&& 0x00FFFFFF)

/-- R209: a 1x1 kernel of weight 1 with factor 1 and bias 0 is the identity on the three channels. -/
def Obligations.UnitKernelIsTheIdentity : Prop :=
  ∀ (m : Memory) (dst src : Word) (w h : Nat) (kernel : Word) (x y : Nat), x < w → y < h →
    m.read64 kernel.toNat = 0x3FF0000000000000 →
    (convJob m dst src w h kernel 1 1 0x3FF0000000000000 0).pixel m x y = some (m.pix src (y * w + x) &&& 0x00FFFFFF)

/-! ### The register window, reset, the host -/

/-- R37: a write to `CTRL`, in its fixed order; a read of it returns 0. -/
def Obligations.CtrlWriteActsInOrder : Prop :=
  ∀ (s : State) (v : Word) (rest : List Turn), s.turns = .regWrite 0x08 4 v :: rest →
    let u := { s with turns := rest }
    (v.getLsbD 31 = true → step s = .next u.resetCore)
    ∧ (v.getLsbD 31 = false → s.busy = true → step s = .next u)
    ∧ (v.getLsbD 31 = false → s.busy = false →
        let err := s.err && !v.getLsbD 2
        let accepted := v.getLsbD 0 && !err
        step s = .next { u with
          err := err
          errCode := if v.getLsbD 2 then 0 else s.errCode
          done := s.done && !v.getLsbD 1 && !accepted
          oor := s.oor && !v.getLsbD 3
          busy := accepted })
    ∧ s.readReg 0x08 = 0

/-- R55, R280, R282, R283: hard reset and soft reset alike give the reset values, keep the parameters, and change memory
only in the written regions of a command in progress. -/
def Obligations.ResetGivesTheResetValues : Prop :=
  ∀ (s : State) (v : Word) (rest : List Turn),
    (s.turns = .rst :: rest ∨ (s.turns = .regWrite 0x08 4 v :: rest ∧ v.getLsbD 31 = true)) →
    ∃ t, step s = .next t ∧ t.cp = 0 ∧ t.statusWord = 0 ∧ t.irqEnWord = 0 ∧ t.errCode = 0 ∧ t.errCp = 0 ∧ t.errInfo = 0
      ∧ t.irq = false ∧ t.platform = s.platform ∧ t.lut.length = 2 ^ s.platform.lutAddrBits ∧ t.turns = rest
      ∧ (s.busy = false → t.mem = s.mem)
      ∧ (∀ i, commandInProgress { s with turns := rest } = some i → s.mem.sameOutside t.mem (writtenRegions i))
      ∧ (commandInProgress { s with turns := rest } = none → t.mem = s.mem)

/-- R40, R41, R45: `CP` is written only while not BUSY, with any value; IRQ_EN at any time; `irq` follows R255; writes to read-only
registers and reserved offsets are ignored. -/
def Obligations.RegisterWritesFollowTheMap : Prop :=
  ∀ (s : State) (v : Word) (rest : List Turn),
    (s.turns = .regWrite 0x10 4 v :: rest →
      (s.busy = true → step s = .next { s with turns := rest })
      ∧ (s.busy = false → step s = .next { s with turns := rest, cp := v }))
    ∧ (s.turns = .regWrite 0x14 4 v :: rest →
      ∃ t, step s = .next t ∧ t = { s with turns := rest, doneIe := v.getLsbD 0, errIe := v.getLsbD 1 }
        ∧ t.irqEnWord = v &&& 3
        ∧ (t.irq = true ↔ (s.done = true ∧ v.getLsbD 0 = true) ∨ (s.err = true ∧ v.getLsbD 1 = true)))
    ∧ ∀ offset : BitVec 8, s.turns = .regWrite offset 4 v :: rest → offset.toNat % 4 = 0 → offset ≠ 0x08 → offset ≠ 0x10 →
      offset ≠ 0x14 → step s = .next { s with turns := rest }

/-- R34 to R46: what each register read returns; a read changes no register and no memory. That the answer stands in the
field `readData` is the model's choice (log 7). -/
def Obligations.RegisterReadsReturnTheMap : Prop :=
  ∀ (s : State) (offset : BitVec 8) (rest : List Turn), s.turns = .regRead offset 4 :: rest → offset.toNat % 4 = 0 →
    ∃ t, step s = .next t ∧ t = { s with turns := rest, readData := t.readData }
      ∧ (offset = 0x00 → t.readData = 0x5A504C31)
      ∧ (offset = 0x04 → t.readData = 0x00010A00 + BitVec.ofNat 32 s.platform.lutAddrBits)
      ∧ (offset = 0x08 → t.readData = 0)
      ∧ (offset = 0x0C → t.readData.getLsbD 0 = s.busy ∧ t.readData.getLsbD 1 = s.done ∧ t.readData.getLsbD 2 = s.err
          ∧ t.readData.getLsbD 3 = s.lutv ∧ t.readData.getLsbD 4 = s.oor ∧ t.readData >>> 5 = 0)
      ∧ (offset = 0x10 → t.readData = s.cp)
      ∧ (offset = 0x14 → t.readData.getLsbD 0 = s.doneIe ∧ t.readData.getLsbD 1 = s.errIe ∧ t.readData >>> 2 = 0)
      ∧ (offset = 0x18 → t.readData = s.errCode.setWidth 32)
      ∧ (offset = 0x1C → t.readData = s.errCp)
      ∧ (offset = 0x20 → t.readData = s.errInfo)
      ∧ (0x24 ≤ offset.toNat → t.readData = 0)

/-- R248: after a fault, one write of CLRERR and START restarts the list at the same descriptor, the record of the fault kept
but for its code. -/
def Obligations.ClearAndStartResumesTheList : Prop :=
  ∀ (s : State) (rest : List Turn), s.consistent → s.err = true → s.turns = .regWrite 0x08 4 5 :: rest →
    step s = .next { s with turns := rest, err := false, errCode := 0, busy := true }

/-- R82, R88, R290: the host's memory accesses that the model takes. A write that meets no descriptor and no region the running
list still has before it (none while the core is stopped) stores exactly the selected byte lanes. A read while the core is
stopped returns the word in memory. A read while BUSY returns that word or, where the command in progress writes it, the word
that command leaves or, for RESIZE with blur, the one its first pass leaves (UB3). The access by aligned words, what counts as
pending, the form of the choice, the command in progress and the field of the answer are the model's (logs 16 to 19, 7). -/
def Obligations.HostMemoryAccessesTheModelTakes : Prop :=
  ∀ (s : State) (addr : Nat) (lanes : BitVec 4) (v : Word) (rest : List Turn), addr < 2 ^ 32 →
    let a := addr / 4 * 4
    let u := { s with turns := rest }
    (s.turns = .memWrite addr lanes v :: rest → (∀ k w, engineAfter k u = some w → ¬w.awaits ⟨a, 4⟩) →
      ∃ t, step s = .next t ∧ t = { u with mem := t.mem }
        ∧ (∀ k < 4, t.mem.read (a + k) = if lanes.getLsbD k then v.extractLsb' (8 * k) 8 else s.mem.read (a + k))
        ∧ s.mem.sameOutside t.mem [⟨a, 4⟩])
    ∧ (s.turns = .memRead addr :: rest → s.busy = false → step s = .next { u with readData := s.mem.read32 a })
    ∧ (s.turns = .memRead addr :: rest → s.busy = true →
      ∃ t, step s = .next t ∧ t = { u with readData := t.readData, freeCount := t.freeCount }
        ∧ (t.readData = s.mem.read32 a
          ∨ ∃ d i, fetch u = .ok d ∧ decode d = .ok i ∧ validate u i = none
              ∧ (∃ r ∈ writtenRegions i, r.overlaps ⟨a, 4⟩ = true)
              ∧ ((∃ m, exec i u = .next m ∧ t.readData = m.mem.read32 a)
                ∨ ∃ dst dstW dstH src srcW srcH blur scratch m, i = .resize dst dstW dstH src srcW srcH blur scratch
                    ∧ 0 < blur ∧ exec (.resize dst dstW dstH src srcW srcH 0 scratch) u = .next m
                    ∧ t.readData = m.mem.read32 a)))

/-- The host moves the model stops on: a register access that is not an aligned 32-bit one (R46, UB9); while BUSY, a write that
meets a descriptor not yet executed, the one at `CP` and whatever it holds among them, or a region of a command not yet
completed, the list followed as the core runs it (R290, R90, UB4); an address beyond the 32-bit space (R52). The form of these
stops is the model's (logs 20, 17, 16). -/
def Obligations.HostMovesThatStop : Prop :=
  (∀ (s : State) (offset : BitVec 8) (bytes : Nat) (v : Word) (rest : List Turn), bytes ≠ 4 ∨ offset.toNat % 4 ≠ 0 →
    (s.turns = .regRead offset bytes :: rest ∨ s.turns = .regWrite offset bytes v :: rest) →
    step s = .refused (.registerAccessNotAligned32 offset bytes))
  ∧ (∀ (s u : State) (k addr : Nat) (lanes : BitVec 4) (v : Word) (rest : List Turn), addr < 2 ^ 32 →
    s.turns = .memWrite addr lanes v :: rest → engineAfter k { s with turns := rest } = some u →
    u.awaits ⟨addr / 4 * 4, 4⟩ → step s = .refused (.hostWriteInFlight addr))
  ∧ ∀ (s : State) (addr : Nat) (lanes : BitVec 4) (v : Word) (rest : List Turn), 2 ^ 32 ≤ addr →
    (s.turns = .memRead addr :: rest ∨ s.turns = .memWrite addr lanes v :: rest) → step s = .fault (.noSuchAddress addr)

/-! ### Further checks and operations -/

/-- RANGE and ALIAS of every command (R85, R86, R250), the checks before them passing: RANGE with the base of the first region,
read regions before written ones, that passes the end of the address space; else ALIAS with `DST` when a forbidden overlap
exists; else neither. The regions are those of R85's table. -/
def Obligations.RangeAndAliasAreChecked : Prop :=
  ∀ (i : Instr) (s : State),
    readRegions s.platform.lutAddrBits i = (regionTable s.platform.lutAddrBits i).1
    ∧ writtenRegions i = (regionTable s.platform.lutAddrBits i).2
    ∧ (s.cp ≠ 0xFFFFFFC0 → (∀ p ∈ alignedAddresses i, p.1.toNat % p.2 = 0) → sizesLegal i →
      (∀ before r after, regionsOf s.platform.lutAddrBits i = before ++ r :: after →
        (∀ q ∈ before, q.base + q.size ≤ 2 ^ 32) → 2 ^ 32 < r.base + r.size →
        ∃ t, exec i s = .next t ∧ s.faulted 0x12 (BitVec.ofNat 32 r.base) t)
      ∧ ((∀ q ∈ regionsOf s.platform.lutAddrBits i, q.base + q.size ≤ 2 ^ 32) →
        (forbiddenOverlap i → ∀ dst, destinationOf i = some dst → ∃ t, exec i s = .next t ∧ s.faulted 0x13 dst t)
        ∧ (¬forbiddenOverlap i → ∀ r, validate s i = some r → r.cause ∈ [.lutInvalid, .nonfinite, .bus])))

/-- R204, R206, R202: the word of a destination pixel is the three output channels of R205 packed, and none when one of them is
a NaN; each is taken of a sum in binary64, from `+0.0`, rows of the kernel outermost and columns innermost, both ascending, of
the weight in row-major order times the channel of the wrapped source pixel, the product rounded before the sum. CONV takes
weights, factor and bias from memory and descriptor (R200); the blur takes the kernel, factor and bias of R187. -/
def Obligations.ConvPixelIsTheKernelSum : Prop :=
  (∀ (j : ConvJob) (m : Memory) (x y : Nat),
    let source := fun fx fy : Nat =>
      m.pix j.src (wrap ((y : Int) - (j.kh / 2 : Nat) + fy) j.h * j.w + wrap ((x : Int) - (j.kw / 2 : Nat) + fx) j.w)
    let sum := fun ch : Word → Nat =>
      (List.range j.kh).foldl (fun acc fy => (List.range j.kw).foldl (fun acc fx =>
        binary64.add acc (binary64.mul (j.weights.getD (fy * j.kw + fx) (.fin false 0)) (binary64.ofNat (ch (source fx fy)))))
        acc) (.fin false 0)
    let out := fun ch => outChan (sum ch) j.factor j.bias
    (∀ c0 c1 c2, out ch0 = some c0 → out ch1 = some c1 → out ch2 = some c2 → j.pixel m x y = some (pack3 c0 c1 c2))
    ∧ (out ch0 = none ∨ out ch1 = none ∨ out ch2 = none → j.pixel m x y = none))
  ∧ (∀ (m : Memory) (dst src : Word) (w h : Nat) (kernel : Word) (kw kh : Nat) (factor bias : DWord),
    let j := convJob m dst src w h kernel kw kh factor bias
    (j.src = src ∧ j.dst = dst ∧ j.w = w ∧ j.h = h ∧ j.kw = kw ∧ j.kh = kh)
    ∧ j.factor = binary64.decode factor.toNat ∧ j.bias = binary64.decode bias.toNat ∧ j.weights.length = kw * kh
    ∧ ∀ fx fy, fx < kw → fy < kh → j.weights.getD (fy * kw + fx) (.fin false 0)
        = binary64.decode (m.read64 (kernel.toNat + 8 * (fy * kw + fx))).toNat)
  ∧ ∀ (dst : Word) (dstW dstH : Nat) (scratch : Word),
    let j := blurJob dst dstW dstH scratch
    (j.src = scratch ∧ j.dst = dst ∧ j.w = dstW ∧ j.h = dstH ∧ j.kw = 5 ∧ j.kh = 5)
    ∧ j.factor = binary64.decode 0x3FB3B13B13B13B14 ∧ j.bias = .fin false 0 ∧ j.weights.length = 25
    ∧ ∀ fx fy : Nat, fx < 5 → fy < 5 → j.weights.getD (fy * 5 + fx) (.fin false 0)
        = if ((fx : Int) - 2).natAbs + ((fy : Int) - 2).natAbs ≤ 2 then binary64.decode 0x3FF0000000000000 else .fin false 0

/-- R12: the value of every bit pattern of binary32 and binary64, in units of the least subnormal (`2^-149`, `2^-1074`), the
value of a small integer, and the operations: sum, difference and product of finite values are the exact ones rounded once
(`RoundingIsToNearestEven`), an exact zero sum is `+0` unless both operands are negative; the cases of an infinity and of a NaN.
That all NaNs are one value is the model's form of R12 (log 21). -/
def Obligations.FloatOperationsRoundOnce : Prop :=
  (binary32.scale = 149 ∧ binary64.scale = 1074)
  ∧ (∀ (sign exp frac : Nat), sign < 2 → exp < 2 ^ 8 → frac < 2 ^ 23 →
    binary32.decode (sign * 2 ^ 31 + exp * 2 ^ 23 + frac)
      = if exp = 255 then (if frac = 0 then .inf (sign == 1) else .nan)
        else if exp = 0 then .fin (sign == 1) frac else .fin (sign == 1) ((2 ^ 23 + frac) * 2 ^ (exp - 1)))
  ∧ (∀ (sign exp frac : Nat), sign < 2 → exp < 2 ^ 11 → frac < 2 ^ 52 →
    binary64.decode (sign * 2 ^ 63 + exp * 2 ^ 52 + frac)
      = if exp = 2047 then (if frac = 0 then .inf (sign == 1) else .nan)
        else if exp = 0 then .fin (sign == 1) frac else .fin (sign == 1) ((2 ^ 52 + frac) * 2 ^ (exp - 1)))
  ∧ ∀ f : FpFormat,
    (∀ n, f.ofNat n = .fin false (n * 2 ^ f.scale))
    ∧ (∀ x y, f.sub x y = f.add x y.neg) ∧ (∀ a m, Fp.neg (.fin a m) = .fin (!a) m) ∧ (∀ a, Fp.neg (.inf a) = .inf (!a))
    ∧ (∀ a m b n, f.mul (.fin a m) (.fin b n) = f.round (a != b) (m * n) f.scale)
    ∧ (∀ a m b n,
        let total := signedUnits a m + signedUnits b n
        (0 < total → f.add (.fin a m) (.fin b n) = f.round false total.natAbs 0)
        ∧ (total < 0 → f.add (.fin a m) (.fin b n) = f.round true total.natAbs 0)
        ∧ (total = 0 → f.add (.fin a m) (.fin b n) = .fin (a && b) 0))
    ∧ (∀ z, f.add .nan z = .nan ∧ f.add z .nan = .nan ∧ f.mul .nan z = .nan ∧ f.mul z .nan = .nan)
    ∧ (∀ a, f.add (.inf a) (.inf a) = .inf a ∧ f.add (.inf a) (.inf (!a)) = .nan)
    ∧ (∀ a b n, f.add (.inf a) (.fin b n) = .inf a ∧ f.add (.fin b n) (.inf a) = .inf a)
    ∧ (∀ a b, f.mul (.inf a) (.inf b) = .inf (a != b))
    ∧ ∀ a b n, (n = 0 → f.mul (.inf a) (.fin b n) = .nan ∧ f.mul (.fin b n) (.inf a) = .nan)
        ∧ (n ≠ 0 → f.mul (.inf a) (.fin b n) = .inf (a != b) ∧ f.mul (.fin b n) (.inf a) = .inf (b != a))
end

