-- ==== Sys2Proof/Laws/Checks.lean ====
section
/-! SUPPORT. The validation checks, each said once: when it passes, and how a list of checks goes on to the next one. -/

namespace Sys2Proof.Machine

/-- A check that passes hands over to the next one. -/
@[simp] theorem orElse_none_left (c : Option Raised) : ((none : Option Raised) <|> c) = c := rfl

/-- The first check that fails is the fault raised. -/
@[simp] theorem orElse_some_left (r : Raised) (c : Option Raised) : ((some r : Option Raised) <|> c) = some r := rfl

theorem orElse_eq_none_iff (c d : Option Raised) : (c <|> d) = none ↔ c = none ∧ d = none := by
  cases c <;> simp

theorem alignedTo_iff (a : Word) (n : Nat) : alignedTo a n = true ↔ a.toNat % n = 0 := by simp [alignedTo]

theorem cpWrapCheck_eq_none_iff (s : State) : cpWrapCheck s = none ↔ s.cp ≠ 0xFFFFFFC0 := by
  unfold cpWrapCheck; split <;> simp_all

theorem cpWrapCheck_top {s : State} (h : s.cp = 0xFFFFFFC0) : cpWrapCheck s = some ⟨.cpWrap, s.cp⟩ := by
  simp [cpWrapCheck, h]

theorem alignCheck_eq_none_iff (l : List (Word × Nat)) : alignCheck l = none ↔ ∀ p ∈ l, p.1.toNat % p.2 = 0 := by
  induction l with
  | nil => simp [alignCheck]
  | cons p l ih =>
    obtain ⟨a, n⟩ := p
    simp only [alignCheck, alignedTo, beq_iff_eq, List.forall_mem_cons]
    split
    · rename_i h; rw [ih]; exact ⟨fun hl => ⟨h, hl⟩, fun hl => hl.2⟩
    · rename_i h; exact ⟨(nomatch ·), fun hl => absurd hl.1 h⟩

theorem alignCheck_misaligned {a : Word} {n : Nat} (h : a.toNat % n ≠ 0) (rest : List (Word × Nat)) :
    alignCheck ((a, n) :: rest) = some ⟨.align, a⟩ := by simp [alignCheck, alignedTo, h]

/-- The address that ALIGN reports is the first misaligned one. -/
theorem alignCheck_first {before : List (Word × Nat)} {a : Word} {n : Nat} (hb : ∀ p ∈ before, p.1.toNat % p.2 = 0)
    (h : a.toNat % n ≠ 0) (after : List (Word × Nat)) : alignCheck (before ++ (a, n) :: after) = some ⟨.align, a⟩ := by
  induction before with
  | nil => exact alignCheck_misaligned h after
  | cons p l ih =>
    rw [List.forall_mem_cons] at hb
    rw [List.cons_append, alignCheck, if_pos ((alignedTo_iff _ _).mpr hb.1)]
    exact ih hb.2

theorem dimCheck_eq_none_iff (l : List Nat) : ∀ k, dimCheck k l = none ↔ ∀ n ∈ l, 1 ≤ n := by
  induction l with
  | nil => intro k; simp [dimCheck]
  | cons n l ih =>
    intro k
    simp only [dimCheck, List.forall_mem_cons]
    split
    · rename_i h; exact ⟨(nomatch ·), fun hl => absurd hl.1 (by omega)⟩
    · rename_i h; rw [ih]; exact ⟨fun hl => ⟨by omega, hl⟩, fun hl => hl.2⟩

/-- The index that DIM reports is that of the first extent that is 0. -/
theorem dimCheck_first (l : List Nat) : ∀ (k j : Nat), j < l.length → l.getD j 0 = 0 → (∀ i < j, l.getD i 0 ≠ 0) →
    dimCheck k l = some ⟨.dim, BitVec.ofNat 32 (k + j)⟩ := by
  induction l with
  | nil => intro k j h; simp at h
  | cons n l ih =>
    intro k j hj h0 hpre
    cases j with
    | zero => simp only [List.getD_cons_zero] at h0; simp [dimCheck, h0]
    | succ j =>
      have hn : n ≠ 0 := by simpa using hpre 0 (by omega)
      rw [List.getD_cons_succ] at h0
      rw [dimCheck, if_neg hn, ih (k + 1) j (by simpa using hj) h0
        (fun i hi => by simpa using hpre (i + 1) (by omega))]
      congr 3; omega

theorem Region.inRange_iff (r : Region) : r.inRange = true ↔ r.base + r.size ≤ 2 ^ 32 := by
  exact decide_eq_true_iff

theorem rangeCheck_eq_none_iff (l : List Region) : rangeCheck l = none ↔ ∀ r ∈ l, r.base + r.size ≤ 2 ^ 32 := by
  induction l with
  | nil => simp [rangeCheck]
  | cons r l ih =>
    simp only [rangeCheck, Region.inRange_iff, List.forall_mem_cons]
    split
    · rename_i h; rw [ih]; exact ⟨fun hl => ⟨h, hl⟩, fun hl => hl.2⟩
    · rename_i h; exact ⟨(nomatch ·), fun hl => absurd hl.1 h⟩

/-- The base that RANGE reports is that of the first region out of range. -/
theorem rangeCheck_first {before : List Region} {r : Region} (hb : ∀ q ∈ before, q.base + q.size ≤ 2 ^ 32)
    (h : 2 ^ 32 < r.base + r.size) (after : List Region) :
    rangeCheck (before ++ r :: after) = some ⟨.range, BitVec.ofNat 32 r.base⟩ := by
  induction before with
  | nil => exact if_neg fun hr => absurd ((Region.inRange_iff r).mp hr) (by omega)
  | cons q l ih =>
    rw [List.forall_mem_cons] at hb
    rw [List.cons_append, rangeCheck, if_pos ((Region.inRange_iff q).mpr hb.1)]
    exact ih hb.2

theorem aliasCheck_eq_none_iff (b : Bool) (dst : Word) : aliasCheck b dst = none ↔ b = false := by
  unfold aliasCheck; split <;> simp_all

theorem badUpsample_eq_false_iff (src dst : Nat) : badUpsample src dst = false ↔ (src ≤ dst → dst % src = 0) := by
  unfold badUpsample
  by_cases h : src ≤ dst <;> simp [h]

theorem upsampleCheck_eq_none_iff (srcW srcH dstW dstH : Nat) : upsampleCheck srcW srcH dstW dstH = none ↔
    (srcW ≤ dstW → dstW % srcW = 0) ∧ (srcH ≤ dstH → dstH % srcH = 0) := by
  rw [← badUpsample_eq_false_iff, ← badUpsample_eq_false_iff]
  unfold upsampleCheck
  cases badUpsample srcW dstW <;> cases badUpsample srcH dstH <;> simp

theorem scratchCheck_eq_none_iff (b : Bool) (scratch : Word) : scratchCheck b scratch = none ↔ (b = true → scratch ≠ 0) := by
  unfold scratchCheck
  cases b <;> by_cases h : scratch = 0 <;> simp [h]

theorem kernelFitCheck_eq_none_iff (w h kw kh : Nat) : kernelFitCheck w h kw kh = none ↔ kw / 2 ≤ w ∧ kh / 2 ≤ h := by
  unfold kernelFitCheck
  split
  · simp only [reduceCtorEq, false_iff]; omega
  · split
    · simp only [reduceCtorEq, false_iff]; omega
    · simp only [true_iff]; omega

theorem kernelSizeCheck_eq_none_iff (w h kw kh : Nat) : kernelSizeCheck w h kw kh = none ↔
    kw * kh ≤ 1024 ∧ kw / 2 ≤ w ∧ kh / 2 ≤ h := by
  unfold kernelSizeCheck Config.kernelMaxElems
  split
  · simp only [reduceCtorEq, false_iff]; omega
  · rw [kernelFitCheck_eq_none_iff]; omega

theorem lutCheck_eq_none_iff (s : State) : lutCheck s = none ↔ s.lutv = true := by
  unfold lutCheck; split <;> simp_all

theorem Region.overlaps_comm (r q : Region) : r.overlaps q = q.overlaps r := by
  unfold Region.overlaps
  cases decide (0 < r.size) <;> cases decide (0 < q.size) <;> cases decide (r.base < q.base + q.size)
    <;> cases decide (q.base < r.base + r.size) <;> rfl

/-- Two regions overlap exactly when they have an address in common (R13). -/
theorem Region.overlaps_iff_meets (r q : Region) : r.overlaps q = true ↔ r.meets q := by
  simp only [Region.overlaps, Bool.and_eq_true, decide_eq_true_eq, Region.meets, Region.has]
  constructor
  · rintro ⟨⟨⟨h1, h2⟩, h3⟩, h4⟩
    exact ⟨max r.base q.base, by omega, by omega⟩
  · rintro ⟨a, h1, h2⟩
    omega

/-- Regions that do not overlap have no address in common. -/
theorem Region.not_has_of_apart {r q : Region} (h : r.overlaps q = false) {a : Nat} (hr : r.has a) : ¬q.has a := by
  intro hq
  simp only [Region.overlaps, Bool.and_eq_false_iff, decide_eq_false_iff_not] at h
  simp only [Region.has] at hr hq
  omega

/-- A binary64 pattern decodes to a finite value exactly when its exponent field is not all ones. -/
theorem isFinite_decode_iff (b : DWord) : (binary64.decode b.toNat).isFinite = true ↔ finiteBits b := by
  have h1 : binary64.fracBits = 52 := rfl
  have h2 : binary64.expBits = 11 := rfl
  simp only [finiteBits, FpFormat.decode, h1, h2]
  norm_num
  split
  · rename_i h
    simp only [h]
    split <;> simp [Fp.isFinite]
  · rename_i h
    split <;> simp [Fp.isFinite, h]

/-- The weights pass when every one of them can be read and is finite. -/
theorem weightsCheck_eq_none_iff (s : State) (base : Word) (l : List Nat) : weightsCheck s base l = none ↔
    ∀ k ∈ l, s.platform.memOk (readRec base k) = true ∧ (s.mem.readF64 (recAddr base k)).isFinite = true := by
  induction l with
  | nil => simp [weightsCheck]
  | cons k l ih =>
    simp only [weightsCheck, List.forall_mem_cons]
    split
    · rename_i h
      split
      · rename_i h'; rw [ih]; exact ⟨fun hl => ⟨⟨h, h'⟩, hl⟩, fun hl => hl.2⟩
      · rename_i h'; exact ⟨(nomatch ·), fun hl => absurd hl.1.2 h'⟩
    · rename_i h; exact ⟨(nomatch ·), fun hl => absurd hl.1.1 h⟩

/-- The weights before a list of weights that pass do not decide. -/
theorem weightsCheck_append {s : State} {base : Word} {l : List Nat}
    (h : weightsCheck s base l = none) (rest : List Nat) : weightsCheck s base (l ++ rest) = weightsCheck s base rest := by
  induction l with
  | nil => rfl
  | cons k l ih =>
    have hk := (weightsCheck_eq_none_iff s base _).mp h
    have h1 := hk k (List.mem_cons_self ..)
    rw [List.cons_append, weightsCheck, if_pos h1.1, if_pos h1.2]
    exact ih ((weightsCheck_eq_none_iff s base _).mpr fun j hj => hk j (List.mem_cons_of_mem _ hj))

theorem nonfiniteCheck_eq_none_iff (s : State) (base : Word) (kw kh : Nat) (factor bias : DWord) :
    nonfiniteCheck s base kw kh factor bias = none ↔ finiteBits factor ∧ finiteBits bias
      ∧ ∀ k < kw * kh, s.platform.memOk (readRec base k) = true ∧ finiteBits (s.mem.read64 (recAddr base k)) := by
  simp only [← isFinite_decode_iff]
  unfold nonfiniteCheck
  cases (binary64.decode factor.toNat).isFinite <;> cases (binary64.decode bias.toNat).isFinite <;>
    simp [weightsCheck_eq_none_iff, List.mem_range, Memory.readF64]

end Sys2Proof.Machine
end

