-- ==== Sys2Proof/Laws/Memory.lean ====
section
/-! SUPPORT. Memory: a read after a write, the canonical form kept by every operation, canonical memories equal when they
read alike, and no operation reaching beyond the addresses it is given. -/

namespace Sys2Proof.Machine

/-! ### One byte -/

theorem Memory.read_nil (a : Nat) : Memory.read [] a = Memory.unlisted := rfl

theorem Memory.read_cons (c : Host.Cell) (m : Memory) (a : Nat) :
    Memory.read (c :: m) a = if c.1 = a then c.2 else Memory.read m a := rfl

theorem Memory.erase_cons (c : Host.Cell) (m : Memory) (a : Nat) :
    Memory.erase (c :: m) a = if c.1 = a then Memory.erase m a else c :: Memory.erase m a := rfl

theorem Memory.place_cons (c : Host.Cell) (m : Memory) (a : Nat) (b : Byte) :
    Memory.place (c :: m) a b = if a < c.1 then (a, b) :: c :: m else c :: Memory.place m a b := rfl

theorem Memory.mem_erase {m : Memory} {a : Nat} {c : Host.Cell} : c ∈ m.erase a ↔ c ∈ m ∧ c.1 ≠ a := by
  induction m with
  | nil => simp [Memory.erase]
  | cons d m ih =>
    rw [Memory.erase_cons]
    split
    · rename_i h
      rw [ih]
      constructor
      · rintro ⟨h1, h2⟩; exact ⟨List.mem_cons_of_mem _ h1, h2⟩
      · rintro ⟨h1, h2⟩
        rcases List.mem_cons.mp h1 with rfl | h1
        · exact absurd h h2
        · exact ⟨h1, h2⟩
    · rename_i h
      rw [List.mem_cons, ih, List.mem_cons]
      constructor
      · rintro (rfl | ⟨h1, h2⟩)
        · exact ⟨.inl rfl, h⟩
        · exact ⟨.inr h1, h2⟩
      · rintro ⟨rfl | h1, h2⟩
        · exact .inl rfl
        · exact .inr ⟨h1, h2⟩

theorem Memory.mem_place {m : Memory} {a : Nat} {b : Byte} {c : Host.Cell} :
    c ∈ m.place a b ↔ c = (a, b) ∨ c ∈ m := by
  induction m with
  | nil => simp [Memory.place]
  | cons d m ih =>
    rw [Memory.place_cons]
    split
    · simp
    · rw [List.mem_cons, ih, List.mem_cons]; tauto

theorem Memory.read_erase_same (m : Memory) (a : Nat) : (m.erase a).read a = Memory.unlisted := by
  induction m with
  | nil => rfl
  | cons c m ih =>
    rw [Memory.erase_cons]
    split
    · exact ih
    · rename_i h; rw [Memory.read_cons, if_neg h]; exact ih

theorem Memory.read_erase_of_ne (m : Memory) {a x : Nat} (h : x ≠ a) : (m.erase a).read x = m.read x := by
  induction m with
  | nil => rfl
  | cons c m ih =>
    rw [Memory.erase_cons]
    split
    · rename_i hc; rw [ih, Memory.read_cons, if_neg (by omega)]
    · rw [Memory.read_cons, Memory.read_cons, ih]

theorem Memory.read_place_same (m : Memory) (a : Nat) (b : Byte) (h : ∀ c ∈ m, c.1 ≠ a) :
    (m.place a b).read a = b := by
  induction m with
  | nil => simp [Memory.place, Memory.read]
  | cons c m ih =>
    rw [Memory.place_cons]
    split
    · simp [Memory.read_cons]
    · rw [Memory.read_cons, if_neg (h c (List.mem_cons_self ..))]
      exact ih fun d hd => h d (List.mem_cons_of_mem _ hd)

theorem Memory.read_place_of_ne (m : Memory) {a x : Nat} (b : Byte) (h : x ≠ a) : (m.place a b).read x = m.read x := by
  induction m with
  | nil => simp [Memory.place, Memory.read, Ne.symm h]
  | cons c m ih =>
    rw [Memory.place_cons]
    split
    · rw [Memory.read_cons, if_neg (Ne.symm h)]
    · rw [Memory.read_cons, Memory.read_cons, ih]

/-- A read after a write to the same address gives the value written. -/
@[simp] theorem Memory.read_write_same (m : Memory) (a : Nat) (b : Byte) : (m.write a b).read a = b := by
  unfold Memory.write
  split
  · rename_i h; rw [Memory.read_erase_same, h]
  · exact Memory.read_place_same _ _ _ fun c hc => (Memory.mem_erase.mp hc).2

/-- A write leaves every other address alone. -/
theorem Memory.read_write_of_ne (m : Memory) {a x : Nat} (b : Byte) (h : x ≠ a) : (m.write a b).read x = m.read x := by
  unfold Memory.write
  split
  · exact Memory.read_erase_of_ne m h
  · rw [Memory.read_place_of_ne _ _ h, Memory.read_erase_of_ne m h]

theorem Memory.read_write (m : Memory) (a x : Nat) (b : Byte) :
    (m.write a b).read x = if x = a then b else m.read x := by
  split
  · rename_i h; rw [h, Memory.read_write_same]
  · rename_i h; exact Memory.read_write_of_ne m b h

/-! ### The canonical form -/

theorem Memory.wf_nil : Memory.wf [] := ⟨List.Pairwise.nil, by simp⟩

theorem Memory.wf_erase {m : Memory} (h : m.wf) (a : Nat) : (m.erase a).wf := by
  refine ⟨?_, fun c hc => h.2 c (Memory.mem_erase.mp hc).1⟩
  have h1 := h.1
  clear h
  induction m with
  | nil => exact List.Pairwise.nil
  | cons c m ih =>
    rw [List.pairwise_cons] at h1
    rw [Memory.erase_cons]
    split
    · exact ih h1.2
    · exact List.pairwise_cons.mpr ⟨fun d hd => h1.1 d (Memory.mem_erase.mp hd).1, ih h1.2⟩

theorem Memory.wf_place {m : Memory} (h : m.wf) {a : Nat} {b : Byte} (hb : b ≠ Memory.unlisted) (ha : ∀ c ∈ m, c.1 ≠ a) :
    (m.place a b).wf := by
  refine ⟨?_, fun c hc => ?_⟩
  · have h1 := h.1
    clear h
    induction m with
    | nil => exact List.pairwise_singleton _ _
    | cons c m ih =>
      rw [List.pairwise_cons] at h1
      rw [Memory.place_cons]
      split
      · rename_i hlt
        refine List.pairwise_cons.mpr ⟨fun d hd => ?_, List.pairwise_cons.mpr h1⟩
        rcases List.mem_cons.mp hd with rfl | hd
        · exact hlt
        · exact Nat.lt_trans hlt (h1.1 d hd)
      · rename_i hge
        have hne := ha c (List.mem_cons_self ..)
        refine List.pairwise_cons.mpr ⟨fun d hd => ?_, ih (fun d hd => ha d (List.mem_cons_of_mem _ hd)) h1.2⟩
        rcases Memory.mem_place.mp hd with rfl | hd
        · show c.1 < a; omega
        · exact h1.1 d hd
  · rcases Memory.mem_place.mp hc with rfl | hc
    · exact hb
    · exact h.2 c hc

/-- Writing a byte keeps the canonical form. -/
theorem Memory.wf_write {m : Memory} (h : m.wf) (a : Nat) (b : Byte) : (m.write a b).wf := by
  unfold Memory.write
  split
  · exact Memory.wf_erase h a
  · rename_i hb; exact Memory.wf_place (Memory.wf_erase h a) hb fun c hc => (Memory.mem_erase.mp hc).2

theorem Memory.read_of_mem {m : Memory} (h : m.wf) {c : Host.Cell} (hc : c ∈ m) : m.read c.1 = c.2 := by
  have h1 := h.1
  clear h
  induction m with
  | nil => cases hc
  | cons d m ih =>
    rw [List.pairwise_cons] at h1
    rw [Memory.read_cons]
    rcases List.mem_cons.mp hc with rfl | hc
    · rw [if_pos rfl]
    · rw [if_neg (Nat.ne_of_lt (h1.1 c hc)), ih hc h1.2]

theorem Memory.mem_of_read {m : Memory} {a : Nat} (h : m.read a ≠ Memory.unlisted) : (a, m.read a) ∈ m := by
  induction m with
  | nil => exact absurd rfl h
  | cons c m ih =>
    rw [Memory.read_cons] at h ⊢
    split
    · rename_i hc; rw [← hc]; exact List.mem_cons_self ..
    · rename_i hc; rw [if_neg hc] at h; exact List.mem_cons_of_mem _ (ih h)

/-- Two canonical memories that read alike at every address are equal. -/
theorem Memory.eq_of_read_eq {m n : Memory} (hm : m.wf) (hn : n.wf) (h : ∀ a, m.read a = n.read a) : m = n := by
  have key : ∀ {m n : Memory}, m.wf → n.wf → (∀ a, m.read a = n.read a) → ∀ c ∈ m, c ∈ n := by
    intro m n hm hn h c hc
    have h1 := Memory.read_of_mem hm hc
    have h2 : n.read c.1 ≠ Memory.unlisted := by rw [← h, h1]; exact hm.2 c hc
    have h3 := Memory.mem_of_read h2
    rwa [← h, h1] at h3
  have hs : List.Perm m n := by
    refine (List.perm_ext_iff_of_nodup ?_ ?_).mpr fun c => ⟨key hm hn h c, key hn hm (fun a => (h a).symm) c⟩
    · exact hm.1.imp fun hlt heq => by rw [heq] at hlt; omega
    · exact hn.1.imp fun hlt heq => by rw [heq] at hlt; omega
  exact hs.eq_of_pairwise (fun _ _ _ _ h1 h2 => by omega) hm.1 hn.1

/-! ### A fold of writes: what it keeps -/

/-- A property of memories that every byte write at an allowed address keeps. -/
def Memory.Kept (P : Memory → Prop) (allowed : Nat → Prop) : Prop :=
  ∀ m a b, allowed a → P m → P (m.write a b)

theorem Memory.kept_wf (allowed : Nat → Prop) : Memory.Kept Memory.wf allowed := fun _ a b _ h => Memory.wf_write h a b

theorem Memory.kept_read (x : Nat) (v : Byte) : Memory.Kept (fun m => m.read x = v) (fun a => a ≠ x) :=
  fun m _ b ha h => (Memory.read_write_of_ne m b (Ne.symm ha)).trans h

/-- Every cell lies in the address space. -/
theorem Memory.kept_cells (bound : Nat) : Memory.Kept (fun m => ∀ c ∈ m, c.1 < bound) (fun a => a < bound) := by
  intro m a b ha h c hc
  unfold Memory.write at hc
  split at hc
  · exact h c (Memory.mem_erase.mp hc).1
  · rcases Memory.mem_place.mp hc with rfl | hc
    · exact ha
    · exact h c (Memory.mem_erase.mp hc).1

theorem Memory.writeLE_keeps {P : Memory → Prop} {allowed : Nat → Prop} (hP : Memory.Kept P allowed) (n : Nat) :
    ∀ (m : Memory) (a v : Nat), (∀ x, a ≤ x → x < a + n → allowed x) → P m → P (m.writeLE a n v) := by
  induction n with
  | zero => exact fun _ _ _ _ h => h
  | succ n ih =>
    intro m a v ha h
    refine ih _ _ _ (fun x h1 h2 => ha x (by omega) (by omega)) (hP m a _ (ha a (by omega) (by omega)) h)

theorem Memory.setPix_keeps {P : Memory → Prop} {allowed : Nat → Prop} (hP : Memory.Kept P allowed) {m : Memory}
    {base : Word} {k : Nat} {w : Word} (ha : ∀ x, pixAddr base k ≤ x → x < pixAddr base k + 4 → allowed x) (h : P m) :
    P (m.setPix base k w) :=
  Memory.writeLE_keeps hP 4 m _ _ ha h

theorem Memory.foldl_keeps {P : Memory → Prop} {α : Type} (f : Memory → α → Memory) (l : List α)
    (hf : ∀ m x, x ∈ l → P m → P (f m x)) (m : Memory) (h : P m) : P (l.foldl f m) := by
  induction l generalizing m with
  | nil => exact h
  | cons x l ih =>
    exact ih (fun m y hy => hf m y (List.mem_cons_of_mem _ hy)) _ (hf m x (List.mem_cons_self ..) h)

theorem Memory.havoc_keeps {P : Memory → Prop} {allowed : Nat → Prop} (hP : Memory.Kept P allowed) {m : Memory} (k : Nat)
    {r : Region} (ha : ∀ x, r.has x → allowed x) (h : P m) : P (m.havoc k r) := by
  refine Memory.foldl_keeps _ _ (fun m j hj hm => hP m _ _ (ha _ ⟨by omega, ?_⟩) hm) m h
  have := List.mem_range.mp hj
  omega

theorem State.havoc_keeps {P : Memory → Prop} {allowed : Nat → Prop} (hP : Memory.Kept P allowed) {s : State}
    {rs : List Region} (ha : ∀ r ∈ rs, ∀ x, r.has x → allowed x) (h : P s.mem) : P (s.havoc rs).mem :=
  Memory.foldl_keeps _ _ (fun _ r hr hm => Memory.havoc_keeps hP _ (ha r hr) hm) s.mem h

theorem Memory.writeBytes_keeps {P : Memory → Prop} {allowed : Nat → Prop} (hP : Memory.Kept P allowed) (bs : List Byte) :
    ∀ (m : Memory) (a : Nat), (∀ x, a ≤ x → x < a + bs.length → allowed x) → P m → P (m.writeBytes a bs) := by
  induction bs with
  | nil => exact fun _ _ _ h => h
  | cons b bs ih =>
    intro m a ha h
    rw [List.length_cons] at ha
    exact ih _ _ (fun x h1 h2 => ha x (by omega) (by omega)) (hP m a b (ha a (by omega) (by omega)) h)

theorem Memory.writeLanes_keeps {P : Memory → Prop} {allowed : Nat → Prop} (hP : Memory.Kept P allowed) {m : Memory}
    {a : Nat} {lanes : BitVec 4} {v : Word} (ha : ∀ x, a ≤ x → x < a + 4 → allowed x) (h : P m) :
    P (m.writeLanes a lanes v) := by
  refine Memory.foldl_keeps _ _ (fun m k hk hm => ?_) m h
  have := List.mem_range.mp hk
  show P (if _ then _ else _)
  split
  · exact hP m _ _ (ha _ (by omega) (by omega)) hm
  · exact hm

/-! ### Every memory operation keeps the canonical form -/

theorem Memory.wf_writeLE {m : Memory} (h : m.wf) (a n v : Nat) : (m.writeLE a n v).wf :=
  Memory.writeLE_keeps (Memory.kept_wf fun _ => True) n m a v (fun _ _ _ => trivial) h

theorem Memory.wf_write32 {m : Memory} (h : m.wf) (a : Nat) (w : Word) : (m.write32 a w).wf := Memory.wf_writeLE h a 4 _

theorem Memory.wf_setPix {m : Memory} (h : m.wf) (base : Word) (k : Nat) (w : Word) : (m.setPix base k w).wf :=
  Memory.wf_writeLE h _ 4 _

theorem Memory.wf_writeBytes {m : Memory} (h : m.wf) (a : Nat) (bs : List Byte) : (m.writeBytes a bs).wf :=
  Memory.writeBytes_keeps (Memory.kept_wf fun _ => True) bs m a (fun _ _ _ => trivial) h

theorem Memory.wf_writeLanes {m : Memory} (h : m.wf) (a : Nat) (lanes : BitVec 4) (v : Word) : (m.writeLanes a lanes v).wf :=
  Memory.writeLanes_keeps (Memory.kept_wf fun _ => True) (fun _ _ _ => trivial) h

theorem State.wf_havoc {s : State} (h : s.mem.wf) (rs : List Region) : (s.havoc rs).mem.wf :=
  State.havoc_keeps (Memory.kept_wf fun _ => True) (fun _ _ _ _ => trivial) h

/-- The memory after reset has the canonical form. -/
theorem State.wf_reset : State.reset.mem.wf := Memory.wf_nil

/-! ### Words -/

theorem Memory.read_writeLE_outside (m : Memory) (a n v : Nat) {x : Nat} (h : x < a ∨ a + n ≤ x) :
    (m.writeLE a n v).read x = m.read x :=
  Memory.writeLE_keeps (Memory.kept_read x (m.read x)) n m a v (fun y h1 h2 => by omega) rfl

theorem Memory.readLE_congr {m n : Memory} (k : Nat) : ∀ a, (∀ x, a ≤ x → x < a + k → m.read x = n.read x) →
    m.readLE a k = n.readLE a k := by
  induction k with
  | zero => exact fun _ _ => rfl
  | succ k ih =>
    intro a h
    show _ + _ = _ + _
    rw [h a (by omega) (by omega), ih (a + 1) fun x h1 h2 => h x (by omega) (by omega)]

theorem Memory.readLE_lt (m : Memory) (n : Nat) : ∀ a, m.readLE a n < 256 ^ n := by
  induction n with
  | zero => intro a; simp [Memory.readLE]
  | succ n ih =>
    intro a
    have h1 := (m.read a).isLt
    have h2 := ih (a + 1)
    show _ + 256 * _ < _
    rw [pow_succ]
    omega

/-- Reading back what was written: the low `8 n` bits of the value. -/
theorem Memory.readLE_writeLE_same (n : Nat) : ∀ (m : Memory) (a v : Nat), (m.writeLE a n v).readLE a n = v % 256 ^ n := by
  induction n with
  | zero => intro m a v; simp [Memory.readLE, Nat.mod_one]
  | succ n ih =>
    intro m a v
    show (((m.write a _).writeLE (a + 1) n (v / 256)).read a).toNat + 256 * _ = _
    rw [Memory.read_writeLE_outside _ _ _ _ (.inl (by omega)), Memory.read_write_same]
    have h : ((m.write a (BitVec.ofNat 8 v)).writeLE (a + 1) n (v / 256)).readLE (a + 1) n = v / 256 % 256 ^ n := ih _ _ _
    show _ + 256 * Memory.readLE _ (a + 1) n = _
    erw [h]
    rw [BitVec.toNat_ofNat, Nat.pow_succ 256 n, Nat.mul_comm (256 ^ n) 256, Nat.mod_mul]

/-- A word read after it was written. -/
@[simp] theorem Memory.read32_write32_same (m : Memory) (a : Nat) (w : Word) : (m.write32 a w).read32 a = w := by
  unfold Memory.read32 Memory.write32
  rw [Memory.readLE_writeLE_same]
  apply BitVec.eq_of_toNat_eq
  have := w.isLt
  simp only [BitVec.toNat_ofNat]
  omega

/-- A word read is unchanged by a word written elsewhere. -/
theorem Memory.read32_write32_disjoint (m : Memory) {a x : Nat} (w : Word) (h : x + 4 ≤ a ∨ a + 4 ≤ x) :
    (m.write32 a w).read32 x = m.read32 x := by
  unfold Memory.read32 Memory.write32
  rw [Memory.readLE_congr 4 x fun y h1 h2 => Memory.read_writeLE_outside m a 4 _ (by omega)]

@[simp] theorem Memory.pix_setPix_same (m : Memory) (base : Word) (k : Nat) (w : Word) : (m.setPix base k w).pix base k = w :=
  Memory.read32_write32_same m _ w

theorem Memory.pix_setPix_of_ne (m : Memory) (base : Word) {k j : Nat} (w : Word) (h : j ≠ k) :
    (m.setPix base k w).pix base j = m.pix base j :=
  Memory.read32_write32_disjoint m w (by unfold pixAddr; omega)

/-- The bytes outside the pixel written keep their values. -/
theorem Memory.read_setPix_outside (m : Memory) (base : Word) (k : Nat) (w : Word) {x : Nat}
    (h : x < pixAddr base k ∨ pixAddr base k + 4 ≤ x) : (m.setPix base k w).read x = m.read x :=
  Memory.read_writeLE_outside m _ 4 _ h

theorem Memory.read32_congr {m n : Memory} {a : Nat} (h : ∀ x, a ≤ x → x < a + 4 → m.read x = n.read x) :
    m.read32 a = n.read32 a := by
  unfold Memory.read32; rw [Memory.readLE_congr 4 a h]

end Sys2Proof.Machine
end

