-- ==== Sys2Proof/Laws/State.lean ====
section
/-! SUPPORT. What each update of the state leaves in each field: one lemma per field and update, each true by definition. -/

namespace Sys2Proof.Machine

/-! ### the latch forgotten (UB6) -/

@[simp] theorem State.forgetDesc_mem (s : State) : (s.forgetDesc).mem = s.mem := rfl
@[simp] theorem State.forgetDesc_cp (s : State) : (s.forgetDesc).cp = s.cp := rfl
@[simp] theorem State.forgetDesc_busy (s : State) : (s.forgetDesc).busy = s.busy := rfl
@[simp] theorem State.forgetDesc_done (s : State) : (s.forgetDesc).done = s.done := rfl
@[simp] theorem State.forgetDesc_err (s : State) : (s.forgetDesc).err = s.err := rfl
@[simp] theorem State.forgetDesc_lutv (s : State) : (s.forgetDesc).lutv = s.lutv := rfl
@[simp] theorem State.forgetDesc_oor (s : State) : (s.forgetDesc).oor = s.oor := rfl
@[simp] theorem State.forgetDesc_doneIe (s : State) : (s.forgetDesc).doneIe = s.doneIe := rfl
@[simp] theorem State.forgetDesc_errIe (s : State) : (s.forgetDesc).errIe = s.errIe := rfl
@[simp] theorem State.forgetDesc_errCode (s : State) : (s.forgetDesc).errCode = s.errCode := rfl
@[simp] theorem State.forgetDesc_errCp (s : State) : (s.forgetDesc).errCp = s.errCp := rfl
@[simp] theorem State.forgetDesc_errInfo (s : State) : (s.forgetDesc).errInfo = s.errInfo := rfl
@[simp] theorem State.forgetDesc_lut (s : State) : (s.forgetDesc).lut = s.lut := rfl
@[simp] theorem State.forgetDesc_desc (s : State) : (s.forgetDesc).desc = freeDesc s.freeCount := rfl
@[simp] theorem State.forgetDesc_platform (s : State) : (s.forgetDesc).platform = s.platform := rfl
@[simp] theorem State.forgetDesc_turns (s : State) : (s.forgetDesc).turns = s.turns := rfl
@[simp] theorem State.forgetDesc_readData (s : State) : (s.forgetDesc).readData = s.readData := rfl
@[simp] theorem State.forgetDesc_freeCount (s : State) : (s.forgetDesc).freeCount = s.freeCount + 1 := rfl

/-! ### a fault raised (R245) -/

@[simp] theorem State.raise_mem (s : State) (r : Raised) : (s.raise r).mem = s.mem := rfl
@[simp] theorem State.raise_cp (s : State) (r : Raised) : (s.raise r).cp = s.cp := rfl
@[simp] theorem State.raise_busy (s : State) (r : Raised) : (s.raise r).busy = false := rfl
@[simp] theorem State.raise_done (s : State) (r : Raised) : (s.raise r).done = s.done := rfl
@[simp] theorem State.raise_err (s : State) (r : Raised) : (s.raise r).err = true := rfl
@[simp] theorem State.raise_lutv (s : State) (r : Raised) : (s.raise r).lutv = s.lutv := rfl
@[simp] theorem State.raise_oor (s : State) (r : Raised) : (s.raise r).oor = s.oor := rfl
@[simp] theorem State.raise_doneIe (s : State) (r : Raised) : (s.raise r).doneIe = s.doneIe := rfl
@[simp] theorem State.raise_errIe (s : State) (r : Raised) : (s.raise r).errIe = s.errIe := rfl
@[simp] theorem State.raise_errCode (s : State) (r : Raised) : (s.raise r).errCode = r.cause.code := rfl
@[simp] theorem State.raise_errCp (s : State) (r : Raised) : (s.raise r).errCp = s.cp := rfl
@[simp] theorem State.raise_errInfo (s : State) (r : Raised) : (s.raise r).errInfo = r.info := rfl
@[simp] theorem State.raise_lut (s : State) (r : Raised) : (s.raise r).lut = s.lut := rfl
@[simp] theorem State.raise_desc (s : State) (r : Raised) : (s.raise r).desc = freeDesc s.freeCount := rfl
@[simp] theorem State.raise_platform (s : State) (r : Raised) : (s.raise r).platform = s.platform := rfl
@[simp] theorem State.raise_turns (s : State) (r : Raised) : (s.raise r).turns = s.turns := rfl
@[simp] theorem State.raise_readData (s : State) (r : Raised) : (s.raise r).readData = s.readData := rfl
@[simp] theorem State.raise_freeCount (s : State) (r : Raised) : (s.raise r).freeCount = s.freeCount + 1 := rfl

/-! ### `CP` advanced (R134) -/

@[simp] theorem State.advance_mem (s : State) : (s.advance).mem = s.mem := rfl
@[simp] theorem State.advance_cp (s : State) : (s.advance).cp = s.cp + 64 := rfl
@[simp] theorem State.advance_busy (s : State) : (s.advance).busy = s.busy := rfl
@[simp] theorem State.advance_done (s : State) : (s.advance).done = s.done := rfl
@[simp] theorem State.advance_err (s : State) : (s.advance).err = s.err := rfl
@[simp] theorem State.advance_lutv (s : State) : (s.advance).lutv = s.lutv := rfl
@[simp] theorem State.advance_oor (s : State) : (s.advance).oor = s.oor := rfl
@[simp] theorem State.advance_doneIe (s : State) : (s.advance).doneIe = s.doneIe := rfl
@[simp] theorem State.advance_errIe (s : State) : (s.advance).errIe = s.errIe := rfl
@[simp] theorem State.advance_errCode (s : State) : (s.advance).errCode = s.errCode := rfl
@[simp] theorem State.advance_errCp (s : State) : (s.advance).errCp = s.errCp := rfl
@[simp] theorem State.advance_errInfo (s : State) : (s.advance).errInfo = s.errInfo := rfl
@[simp] theorem State.advance_lut (s : State) : (s.advance).lut = s.lut := rfl
@[simp] theorem State.advance_desc (s : State) : (s.advance).desc = s.desc := rfl
@[simp] theorem State.advance_platform (s : State) : (s.advance).platform = s.platform := rfl
@[simp] theorem State.advance_turns (s : State) : (s.advance).turns = s.turns := rfl
@[simp] theorem State.advance_readData (s : State) : (s.advance).readData = s.readData := rfl
@[simp] theorem State.advance_freeCount (s : State) : (s.advance).freeCount = s.freeCount := rfl

/-! ### regions made unspecified (R247) -/

@[simp] theorem State.havoc_mem (s : State) (rs : List Region) : (s.havoc rs).mem = rs.foldl (fun m r => m.havoc s.freeCount r) s.mem := rfl
@[simp] theorem State.havoc_cp (s : State) (rs : List Region) : (s.havoc rs).cp = s.cp := rfl
@[simp] theorem State.havoc_busy (s : State) (rs : List Region) : (s.havoc rs).busy = s.busy := rfl
@[simp] theorem State.havoc_done (s : State) (rs : List Region) : (s.havoc rs).done = s.done := rfl
@[simp] theorem State.havoc_err (s : State) (rs : List Region) : (s.havoc rs).err = s.err := rfl
@[simp] theorem State.havoc_lutv (s : State) (rs : List Region) : (s.havoc rs).lutv = s.lutv := rfl
@[simp] theorem State.havoc_oor (s : State) (rs : List Region) : (s.havoc rs).oor = s.oor := rfl
@[simp] theorem State.havoc_doneIe (s : State) (rs : List Region) : (s.havoc rs).doneIe = s.doneIe := rfl
@[simp] theorem State.havoc_errIe (s : State) (rs : List Region) : (s.havoc rs).errIe = s.errIe := rfl
@[simp] theorem State.havoc_errCode (s : State) (rs : List Region) : (s.havoc rs).errCode = s.errCode := rfl
@[simp] theorem State.havoc_errCp (s : State) (rs : List Region) : (s.havoc rs).errCp = s.errCp := rfl
@[simp] theorem State.havoc_errInfo (s : State) (rs : List Region) : (s.havoc rs).errInfo = s.errInfo := rfl
@[simp] theorem State.havoc_lut (s : State) (rs : List Region) : (s.havoc rs).lut = s.lut := rfl
@[simp] theorem State.havoc_desc (s : State) (rs : List Region) : (s.havoc rs).desc = s.desc := rfl
@[simp] theorem State.havoc_platform (s : State) (rs : List Region) : (s.havoc rs).platform = s.platform := rfl
@[simp] theorem State.havoc_turns (s : State) (rs : List Region) : (s.havoc rs).turns = s.turns := rfl
@[simp] theorem State.havoc_readData (s : State) (rs : List Region) : (s.havoc rs).readData = s.readData := rfl
@[simp] theorem State.havoc_freeCount (s : State) (rs : List Region) : (s.havoc rs).freeCount = s.freeCount := rfl

/-! ### OOR marked (R39) -/

@[simp] theorem State.markOor_mem (s : State) (b : Bool) : (s.markOor b).mem = s.mem := rfl
@[simp] theorem State.markOor_cp (s : State) (b : Bool) : (s.markOor b).cp = s.cp := rfl
@[simp] theorem State.markOor_busy (s : State) (b : Bool) : (s.markOor b).busy = s.busy := rfl
@[simp] theorem State.markOor_done (s : State) (b : Bool) : (s.markOor b).done = s.done := rfl
@[simp] theorem State.markOor_err (s : State) (b : Bool) : (s.markOor b).err = s.err := rfl
@[simp] theorem State.markOor_lutv (s : State) (b : Bool) : (s.markOor b).lutv = s.lutv := rfl
@[simp] theorem State.markOor_oor (s : State) (b : Bool) : (s.markOor b).oor = (s.oor || b) := rfl
@[simp] theorem State.markOor_doneIe (s : State) (b : Bool) : (s.markOor b).doneIe = s.doneIe := rfl
@[simp] theorem State.markOor_errIe (s : State) (b : Bool) : (s.markOor b).errIe = s.errIe := rfl
@[simp] theorem State.markOor_errCode (s : State) (b : Bool) : (s.markOor b).errCode = s.errCode := rfl
@[simp] theorem State.markOor_errCp (s : State) (b : Bool) : (s.markOor b).errCp = s.errCp := rfl
@[simp] theorem State.markOor_errInfo (s : State) (b : Bool) : (s.markOor b).errInfo = s.errInfo := rfl
@[simp] theorem State.markOor_lut (s : State) (b : Bool) : (s.markOor b).lut = s.lut := rfl
@[simp] theorem State.markOor_desc (s : State) (b : Bool) : (s.markOor b).desc = s.desc := rfl
@[simp] theorem State.markOor_platform (s : State) (b : Bool) : (s.markOor b).platform = s.platform := rfl
@[simp] theorem State.markOor_turns (s : State) (b : Bool) : (s.markOor b).turns = s.turns := rfl
@[simp] theorem State.markOor_readData (s : State) (b : Bool) : (s.markOor b).readData = s.readData := rfl
@[simp] theorem State.markOor_freeCount (s : State) (b : Bool) : (s.markOor b).freeCount = s.freeCount := rfl

/-! ### OOR unspecified unless set (R247) -/

@[simp] theorem State.doubtOor_mem (s : State) : (s.doubtOor).mem = s.mem := rfl
@[simp] theorem State.doubtOor_cp (s : State) : (s.doubtOor).cp = s.cp := rfl
@[simp] theorem State.doubtOor_busy (s : State) : (s.doubtOor).busy = s.busy := rfl
@[simp] theorem State.doubtOor_done (s : State) : (s.doubtOor).done = s.done := rfl
@[simp] theorem State.doubtOor_err (s : State) : (s.doubtOor).err = s.err := rfl
@[simp] theorem State.doubtOor_lutv (s : State) : (s.doubtOor).lutv = s.lutv := rfl
@[simp] theorem State.doubtOor_oor (s : State) : (s.doubtOor).oor = (s.oor || Config.freeBit s.freeCount) := rfl
@[simp] theorem State.doubtOor_doneIe (s : State) : (s.doubtOor).doneIe = s.doneIe := rfl
@[simp] theorem State.doubtOor_errIe (s : State) : (s.doubtOor).errIe = s.errIe := rfl
@[simp] theorem State.doubtOor_errCode (s : State) : (s.doubtOor).errCode = s.errCode := rfl
@[simp] theorem State.doubtOor_errCp (s : State) : (s.doubtOor).errCp = s.errCp := rfl
@[simp] theorem State.doubtOor_errInfo (s : State) : (s.doubtOor).errInfo = s.errInfo := rfl
@[simp] theorem State.doubtOor_lut (s : State) : (s.doubtOor).lut = s.lut := rfl
@[simp] theorem State.doubtOor_desc (s : State) : (s.doubtOor).desc = s.desc := rfl
@[simp] theorem State.doubtOor_platform (s : State) : (s.doubtOor).platform = s.platform := rfl
@[simp] theorem State.doubtOor_turns (s : State) : (s.doubtOor).turns = s.turns := rfl
@[simp] theorem State.doubtOor_readData (s : State) : (s.doubtOor).readData = s.readData := rfl
@[simp] theorem State.doubtOor_freeCount (s : State) : (s.doubtOor).freeCount = s.freeCount := rfl

/-! ### CLRERR (R37) -/

@[simp] theorem State.clearErr_mem (s : State) : (s.clearErr).mem = s.mem := rfl
@[simp] theorem State.clearErr_cp (s : State) : (s.clearErr).cp = s.cp := rfl
@[simp] theorem State.clearErr_busy (s : State) : (s.clearErr).busy = s.busy := rfl
@[simp] theorem State.clearErr_done (s : State) : (s.clearErr).done = s.done := rfl
@[simp] theorem State.clearErr_err (s : State) : (s.clearErr).err = false := rfl
@[simp] theorem State.clearErr_lutv (s : State) : (s.clearErr).lutv = s.lutv := rfl
@[simp] theorem State.clearErr_oor (s : State) : (s.clearErr).oor = s.oor := rfl
@[simp] theorem State.clearErr_doneIe (s : State) : (s.clearErr).doneIe = s.doneIe := rfl
@[simp] theorem State.clearErr_errIe (s : State) : (s.clearErr).errIe = s.errIe := rfl
@[simp] theorem State.clearErr_errCode (s : State) : (s.clearErr).errCode = 0 := rfl
@[simp] theorem State.clearErr_errCp (s : State) : (s.clearErr).errCp = s.errCp := rfl
@[simp] theorem State.clearErr_errInfo (s : State) : (s.clearErr).errInfo = s.errInfo := rfl
@[simp] theorem State.clearErr_lut (s : State) : (s.clearErr).lut = s.lut := rfl
@[simp] theorem State.clearErr_desc (s : State) : (s.clearErr).desc = s.desc := rfl
@[simp] theorem State.clearErr_platform (s : State) : (s.clearErr).platform = s.platform := rfl
@[simp] theorem State.clearErr_turns (s : State) : (s.clearErr).turns = s.turns := rfl
@[simp] theorem State.clearErr_readData (s : State) : (s.clearErr).readData = s.readData := rfl
@[simp] theorem State.clearErr_freeCount (s : State) : (s.clearErr).freeCount = s.freeCount := rfl

/-! ### a write to IRQ_EN (R41) -/

@[simp] theorem State.writeIrqEn_mem (s : State) (v : Word) : (s.writeIrqEn v).mem = s.mem := rfl
@[simp] theorem State.writeIrqEn_cp (s : State) (v : Word) : (s.writeIrqEn v).cp = s.cp := rfl
@[simp] theorem State.writeIrqEn_busy (s : State) (v : Word) : (s.writeIrqEn v).busy = s.busy := rfl
@[simp] theorem State.writeIrqEn_done (s : State) (v : Word) : (s.writeIrqEn v).done = s.done := rfl
@[simp] theorem State.writeIrqEn_err (s : State) (v : Word) : (s.writeIrqEn v).err = s.err := rfl
@[simp] theorem State.writeIrqEn_lutv (s : State) (v : Word) : (s.writeIrqEn v).lutv = s.lutv := rfl
@[simp] theorem State.writeIrqEn_oor (s : State) (v : Word) : (s.writeIrqEn v).oor = s.oor := rfl
@[simp] theorem State.writeIrqEn_doneIe (s : State) (v : Word) : (s.writeIrqEn v).doneIe = v.getLsbD 0 := rfl
@[simp] theorem State.writeIrqEn_errIe (s : State) (v : Word) : (s.writeIrqEn v).errIe = v.getLsbD 1 := rfl
@[simp] theorem State.writeIrqEn_errCode (s : State) (v : Word) : (s.writeIrqEn v).errCode = s.errCode := rfl
@[simp] theorem State.writeIrqEn_errCp (s : State) (v : Word) : (s.writeIrqEn v).errCp = s.errCp := rfl
@[simp] theorem State.writeIrqEn_errInfo (s : State) (v : Word) : (s.writeIrqEn v).errInfo = s.errInfo := rfl
@[simp] theorem State.writeIrqEn_lut (s : State) (v : Word) : (s.writeIrqEn v).lut = s.lut := rfl
@[simp] theorem State.writeIrqEn_desc (s : State) (v : Word) : (s.writeIrqEn v).desc = s.desc := rfl
@[simp] theorem State.writeIrqEn_platform (s : State) (v : Word) : (s.writeIrqEn v).platform = s.platform := rfl
@[simp] theorem State.writeIrqEn_turns (s : State) (v : Word) : (s.writeIrqEn v).turns = s.turns := rfl
@[simp] theorem State.writeIrqEn_readData (s : State) (v : Word) : (s.writeIrqEn v).readData = s.readData := rfl
@[simp] theorem State.writeIrqEn_freeCount (s : State) (v : Word) : (s.writeIrqEn v).freeCount = s.freeCount := rfl

/-! ### the registers cleared by reset (R55) -/

@[simp] theorem State.clearRegisters_mem (s : State) : (s.clearRegisters).mem = s.mem := rfl
@[simp] theorem State.clearRegisters_cp (s : State) : (s.clearRegisters).cp = 0 := rfl
@[simp] theorem State.clearRegisters_busy (s : State) : (s.clearRegisters).busy = false := rfl
@[simp] theorem State.clearRegisters_done (s : State) : (s.clearRegisters).done = false := rfl
@[simp] theorem State.clearRegisters_err (s : State) : (s.clearRegisters).err = false := rfl
@[simp] theorem State.clearRegisters_lutv (s : State) : (s.clearRegisters).lutv = false := rfl
@[simp] theorem State.clearRegisters_oor (s : State) : (s.clearRegisters).oor = false := rfl
@[simp] theorem State.clearRegisters_doneIe (s : State) : (s.clearRegisters).doneIe = false := rfl
@[simp] theorem State.clearRegisters_errIe (s : State) : (s.clearRegisters).errIe = false := rfl
@[simp] theorem State.clearRegisters_errCode (s : State) : (s.clearRegisters).errCode = 0 := rfl
@[simp] theorem State.clearRegisters_errCp (s : State) : (s.clearRegisters).errCp = 0 := rfl
@[simp] theorem State.clearRegisters_errInfo (s : State) : (s.clearRegisters).errInfo = 0 := rfl
@[simp] theorem State.clearRegisters_lut (s : State) : (s.clearRegisters).lut = freeLut s.platform s.freeCount := rfl
@[simp] theorem State.clearRegisters_desc (s : State) : (s.clearRegisters).desc = freeDesc s.freeCount := rfl
@[simp] theorem State.clearRegisters_platform (s : State) : (s.clearRegisters).platform = s.platform := rfl
@[simp] theorem State.clearRegisters_turns (s : State) : (s.clearRegisters).turns = s.turns := rfl
@[simp] theorem State.clearRegisters_readData (s : State) : (s.clearRegisters).readData = s.readData := rfl
@[simp] theorem State.clearRegisters_freeCount (s : State) : (s.clearRegisters).freeCount = s.freeCount + 1 := rfl

end Sys2Proof.Machine
end

