-- ==== Sys2Proof/Laws/Ops.lean ====
section
/-! SUPPORT. What the shared operations can do, said once each: the accesses a state refuses, the end of a command, a fault
raised, free values, what stays outside the regions a command writes, a fetch, a host read. -/

namespace Sys2Proof.Machine

/-! ### Refused accesses -/

theorem State.refused_eq_nil_iff (s : State) (accs : List Access) : s.refused accs = [] ↔ s.allows accs := by
  simp [State.refused, State.allows, List.filter_eq_nil_iff]

theorem State.mem_refused (s : State) (accs : List Access) (w : Word) :
    w ∈ s.refused accs ↔ ∃ a ∈ accs, s.platform.memOk a = false ∧ w = BitVec.ofNat 32 a.addr := by
  simp only [State.refused, List.mem_map, List.mem_filter, Bool.not_eq_true', and_assoc]
  exact ⟨fun ⟨a, h1, h2, h3⟩ => ⟨a, h1, h2, h3.symm⟩, fun ⟨a, h1, h2, h3⟩ => ⟨a, h1, h2, h3.symm⟩⟩

/-- A free choice among some words is one of them. -/
theorem pickWord_mem (k : Nat) {ws : List Word} (h : ws ≠ []) : pickWord k ws ∈ ws := by
  have hlen : 0 < ws.length := List.length_pos_iff.mpr h
  have hlt : Config.freePick k % ws.length < ws.length := Nat.mod_lt _ hlen
  simp only [pickWord, List.getD_eq_getElem?_getD, List.getElem?_eq_getElem hlt, Option.getD_some]
  exact List.getElem_mem hlt

/-- A command all of whose accesses are allowed ends normally. -/
theorem finish_of_allows {s : State} {accs : List Access} (finished broken : State) (h : s.allows accs) :
    finish s accs finished broken = .next finished.advance := by
  simp [finish, (State.refused_eq_nil_iff s accs).mpr h]

/-- A command with a refused access raises BUS with the address of one of them. -/
theorem finish_of_refused {s : State} {accs : List Access} (finished broken : State) (h : ¬s.allows accs) :
    finish s accs finished broken = .next (broken.raise ⟨.bus, pickWord s.freeCount (s.refused accs)⟩) := by
  have hne : s.refused accs ≠ [] := fun h' => h ((State.refused_eq_nil_iff s accs).mp h')
  unfold finish
  split
  · contradiction
  · rfl

/-- All that the end of a command can be. -/
theorem finish_cases {s : State} {accs : List Access} {finished broken t : State}
    (h : finish s accs finished broken = .next t) :
    (s.allows accs ∧ t = finished.advance)
    ∨ ∃ a ∈ accs, s.platform.memOk a = false ∧ t = broken.raise ⟨.bus, BitVec.ofNat 32 a.addr⟩ := by
  by_cases ha : s.allows accs
  · rw [finish_of_allows _ _ ha] at h
    exact .inl ⟨ha, (Host.Outcome.next.inj h).symm⟩
  · rw [finish_of_refused _ _ ha] at h
    obtain ⟨a, h1, h2, h3⟩ := (State.mem_refused s accs _).mp
      (pickWord_mem s.freeCount fun h' => ha ((State.refused_eq_nil_iff s accs).mp h'))
    refine .inr ⟨a, h1, h2, ?_⟩
    rw [← h3]
    exact (Host.Outcome.next.inj h).symm

/-! ### Faults -/

/-- A fault raised leaves what an architectural fault leaves. -/
theorem State.faulted_raise (s : State) (r : Raised) : s.faulted r.cause.code r.info (s.raise r) := rfl

/-- The code of a fault is one of the sixteen. -/
theorem Cause.code_mem (c : Cause) : c.code ∈ faultCodes := by cases c <;> decide

/-! ### What stays outside some regions -/

theorem Memory.sameOutside_refl (m : Memory) (rs : List Region) : m.sameOutside m rs := fun _ _ => rfl

theorem Memory.sameOutside_trans {m n k : Memory} {rs : List Region} (h1 : m.sameOutside n rs) (h2 : n.sameOutside k rs) :
    m.sameOutside k rs := fun a ha => (h2 a ha).trans (h1 a ha)

theorem Memory.sameOutside_mono {m n : Memory} {rs qs : List Region} (h : m.sameOutside n rs) (hsub : ∀ r ∈ rs, r ∈ qs) :
    m.sameOutside n qs := fun a ha => h a fun r hr => ha r (hsub r hr)

/-- Writing one pixel of a buffer changes nothing outside its region. -/
theorem Memory.sameOutside_setPix (m : Memory) {base : Word} {k n : Nat} (w : Word) (h : k < n) :
    m.sameOutside (m.setPix base k w) [pixRegion base n] := by
  intro a ha
  have := ha _ (List.mem_singleton.mpr rfl)
  simp only [Region.has, pixRegion] at this
  exact Memory.read_setPix_outside m base k w (by unfold pixAddr; omega)

/-- Free bytes in some regions change nothing outside them. -/
theorem State.sameOutside_havoc (s : State) (rs : List Region) : s.mem.sameOutside (s.havoc rs).mem rs := by
  intro a ha
  exact State.havoc_keeps (s := s) (rs := rs) (Memory.kept_read a (s.mem.read a))
    (fun r hr x hx => fun hxa => ha r hr (hxa ▸ hx)) rfl

/-! ### Fetch -/

/-- A fetch that is aligned and allowed gives the descriptor in memory. -/
theorem fetch_ok {s : State} (h1 : s.cp.toNat % 64 = 0) (h2 : s.allows (fetchAccesses s.cp.toNat)) :
    fetch s = .ok (s.mem.descAt s.cp.toNat) := by
  simp [fetch, alignedTo, Config.descBytes, h1, (State.refused_eq_nil_iff s _).mpr h2]

/-- What a successful fetch needs and gives. -/
theorem fetch_eq_ok_iff {s : State} {d : Desc} :
    fetch s = .ok d ↔ s.cp.toNat % 64 = 0 ∧ s.allows (fetchAccesses s.cp.toNat) ∧ d = s.mem.descAt s.cp.toNat := by
  constructor
  · intro h
    unfold fetch at h
    split at h
    · rename_i ha
      split at h
      · rename_i hr
        refine ⟨by simpa [alignedTo, Config.descBytes] using ha, (State.refused_eq_nil_iff s _).mp hr, ?_⟩
        exact (Except.ok.inj h).symm
      · cases h
    · cases h
  · rintro ⟨h1, h2, rfl⟩
    exact fetch_ok h1 h2

/-- The step of the engine on a descriptor that decodes. -/
theorem engineStep_ok {s : State} {d : Desc} {i : Instr} (hf : fetch s = .ok d) (hd : decode d = .ok i) :
    engineStep s = exec i { s with desc := d } := by
  simp [engineStep, hf, hd]

/-- All that the step of the engine can be: a fetch fault, a decode fault, the command. -/
theorem engineStep_cases (s : State) :
    (∃ r, fetch s = .error r ∧ engineStep s = .next (s.raise r))
    ∨ (∃ d e, fetch s = .ok d ∧ decode d = .error e ∧ engineStep s = .next ({ s with desc := d }.raise (decodeFault e)))
    ∨ ∃ d i, fetch s = .ok d ∧ decode d = .ok i ∧ engineStep s = exec i { s with desc := d } := by
  cases hf : fetch s with
  | error r => exact .inl ⟨r, rfl, by simp [engineStep, hf]⟩
  | ok d =>
    cases hd : decode d with
    | error e => exact .inr (.inl ⟨d, e, rfl, hd, by simp [engineStep, hf, hd]⟩)
    | ok i => exact .inr (.inr ⟨d, i, rfl, hd, by simp [engineStep, hf, hd]⟩)

/-! ### Host reads -/

/-- A host read changes nothing but the host's data and the counter of the free values. -/
theorem State.hostRead_eq (s : State) (a : Nat) :
    s.hostRead a = { s with readData := (s.hostRead a).readData, freeCount := (s.hostRead a).freeCount } := by
  unfold State.hostRead
  split <;> rfl

/-- What a host read returns is one of the words it may. -/
theorem State.hostRead_mem (s : State) (a : Nat) : (s.hostRead a).readData ∈ s.hostWords a := by
  have hne : s.hostWords a ≠ [] := by
    unfold State.hostWords
    split
    · simp
    · split <;> simp
  unfold State.hostRead
  split
  · rename_i w hw
    simp [hw]
  · exact pickWord_mem _ hne

/-- While the core is stopped a host read returns the word in memory. -/
theorem State.hostRead_stopped {s : State} (h : s.busy = false) (a : Nat) :
    s.hostRead a = { s with readData := s.mem.read32 a } := by
  simp [State.hostRead, State.hostWords, commandInProgress, h]

end Sys2Proof.Machine
end

