-- ==== Sys2Proof/Laws/Stream.lean ====
section
/-! SUPPORT. The loops of the commands, each said once: the stream loop (R141), the loop of LERP, the nearest-neighbour pass and
the copy of RESIZE as stream loops, and the coordinates of an image in order. -/

namespace Sys2Proof.Machine

/-! ### Image coordinates -/

theorem mem_pixels {w h x y : Nat} : (x, y) ∈ pixels w h ↔ x < w ∧ y < h := by
  simp only [pixels, List.mem_flatMap, List.mem_range, List.mem_map, Prod.mk.injEq]
  constructor
  · rintro ⟨y', hy, x', hx, rfl, rfl⟩; exact ⟨hx, hy⟩
  · rintro ⟨hx, hy⟩; exact ⟨y, hy, x, hx, rfl, rfl⟩

/-- The coordinates of an image in order are those of the indices in order. -/
theorem pixels_eq (w h : Nat) : pixels w h = (List.range (w * h)).map fun k => (k % w, k / w) := by
  induction h with
  | zero => simp [pixels]
  | succ h ih =>
    have hstep : pixels w (h + 1) = pixels w h ++ (List.range w).map fun x => (x, h) := by
      simp [pixels, List.range_succ, List.flatMap_append]
    rw [hstep, ih, Nat.mul_succ, List.range_add, List.map_append, List.map_map]
    congr 1
    refine List.map_congr_left fun x hx => ?_
    have hx := List.mem_range.mp hx
    simp only [Function.comp_apply, Prod.mk.injEq]
    exact ⟨by rw [Nat.mul_add_mod, Nat.mod_eq_of_lt hx],
      by rw [Nat.mul_add_div (by omega), Nat.div_eq_of_lt hx, Nat.add_zero]⟩

/-- The index of a pixel lies in the image. -/
theorem pixel_index_lt {w h x y : Nat} (hx : x < w) (hy : y < h) : y * w + x < w * h := by
  calc y * w + x < y * w + w := by omega
    _ = w * (y + 1) := by rw [Nat.mul_add, Nat.mul_one, Nat.mul_comm]
    _ ≤ w * h := Nat.mul_le_mul_left w hy

theorem pixel_index_mod {w x y : Nat} (hx : x < w) : (y * w + x) % w = x := by
  rw [Nat.mul_comm, Nat.mul_add_mod, Nat.mod_eq_of_lt hx]

theorem pixel_index_div {w x y : Nat} (hx : x < w) : (y * w + x) / w = y := by
  rw [Nat.mul_comm, Nat.mul_add_div (by omega), Nat.div_eq_of_lt hx, Nat.add_zero]

theorem pixel_coords_lt {w h k : Nat} (hk : k < w * h) : k % w < w ∧ k / w < h := by
  have hw : 0 < w := Nat.pos_of_ne_zero fun h0 => by simp [h0] at hk
  exact ⟨Nat.mod_lt _ hw, Nat.div_lt_of_lt_mul hk⟩

theorem pixel_coords_index (w k : Nat) : k / w * w + k % w = k := Nat.div_add_mod' k w

/-! ### The stream loop -/

theorem streamLoop_zero (dst : Word) (elem : Memory → Nat → Word) (m : Memory) : streamLoop dst elem 0 m = m := rfl

theorem streamLoop_succ (dst : Word) (elem : Memory → Nat → Word) (n : Nat) (m : Memory) :
    streamLoop dst elem (n + 1) m = (streamLoop dst elem n m).setPix dst n (elem (streamLoop dst elem n m) n) := by
  simp [streamLoop, List.range_succ]

/-- Whatever every pixel write keeps, the stream loop keeps. -/
theorem streamLoop_keeps {P : Memory → Prop} {allowed : Nat → Prop} (hP : Memory.Kept P allowed) {dst : Word}
    (elem : Memory → Nat → Word) {count : Nat} (ha : ∀ x, (pixRegion dst count).has x → allowed x) {m : Memory} (h : P m) :
    P (streamLoop dst elem count m) := by
  refine Memory.foldl_keeps _ _ (fun m k hk hm => Memory.setPix_keeps hP (fun x h1 h2 => ha x ?_) hm) m h
  have := List.mem_range.mp hk
  simp only [Region.has, pixRegion, pixAddr] at h1 h2 ⊢
  omega

theorem streamLoop_sameOutside (dst : Word) (elem : Memory → Nat → Word) (count : Nat) (m : Memory) :
    m.sameOutside (streamLoop dst elem count m) [pixRegion dst count] := fun a ha =>
  streamLoop_keeps (Memory.kept_read a (m.read a)) elem
    (fun _ hx hxa => ha _ (List.mem_singleton.mpr rfl) (hxa ▸ hx)) rfl

/-- Every element is read as it was before the loop, when no earlier write reaches it; so every destination word is the
function of the sources as they were. -/
theorem streamLoop_pix {dst : Word} {elem : Memory → Nat → Word} {count : Nat} {m : Memory}
    (hread : ∀ k < count, ∀ m', m.sameOutside m' [pixRegion dst k] → elem m' k = elem m k) :
    ∀ k < count, (streamLoop dst elem count m).pix dst k = elem m k := by
  induction count with
  | zero => exact fun k hk => absurd hk (by omega)
  | succ n ih =>
    intro k hk
    rw [streamLoop_succ]
    by_cases hkn : k = n
    · subst hkn
      rw [Memory.pix_setPix_same]
      exact hread k hk _ (streamLoop_sameOutside dst elem k m)
    · rw [Memory.pix_setPix_of_ne _ _ _ hkn]
      exact ih (fun j hj => hread j (by omega)) k (by omega)

/-- A source that starts at the destination or shares no address with it is read as it was before the loop. -/
theorem pix_eq_of_apart {src dst : Word} {count k : Nat} {m m' : Memory}
    (ha : apart src dst (pixRegion src count) (pixRegion dst count)) (hk : k < count)
    (hm : m.sameOutside m' [pixRegion dst k]) : m'.pix src k = m.pix src k := by
  refine Memory.read32_congr fun x h1 h2 => hm x fun r hr => ?_
  rw [List.mem_singleton.mp hr]
  rcases ha with rfl | ha
  · simp only [Region.has, pixRegion, pixAddr] at h1 h2 ⊢; omega
  · have := Region.not_has_of_apart ha (a := x)
      (by simp only [Region.has, pixRegion, pixAddr] at h1 h2 ⊢; omega)
    simp only [Region.has, pixRegion] at this ⊢
    omega

/-- A record of a buffer apart from the destination is read as it was before the loop. -/
theorem readRec_eq_of_apart {src dst : Word} {count k : Nat} {m m' : Memory}
    (ha : (recRegion src count).overlaps (pixRegion dst count) = false) (hk : k < count)
    (hm : m.sameOutside m' [pixRegion dst k]) : m'.readLE (recAddr src k) 8 = m.readLE (recAddr src k) 8 := by
  refine Memory.readLE_congr 8 _ fun x h1 h2 => hm x fun r hr => ?_
  rw [List.mem_singleton.mp hr]
  have := Region.not_has_of_apart ha (a := x)
    (by simp only [Region.has, recRegion, recAddr] at h1 h2 ⊢; omega)
  simp only [Region.has, pixRegion] at this ⊢
  omega

/-- A pixel of an image apart from the region written is read as it was. -/
theorem pix_eq_of_disjoint {src dst : Word} {n count i : Nat} {m m' : Memory}
    (ha : (pixRegion src n).overlaps (pixRegion dst count) = false) (hi : i < n)
    (hm : m.sameOutside m' [pixRegion dst count]) : m'.pix src i = m.pix src i := by
  refine Memory.read32_congr fun x h1 h2 => hm x fun r hr => ?_
  rw [List.mem_singleton.mp hr]
  exact Region.not_has_of_apart ha (by simp only [Region.has, pixRegion, pixAddr] at h1 h2 ⊢; omega)

/-- A region of fewer pixels lies in the region of more. -/
theorem sameOutside_pixRegion_mono {m m' : Memory} {dst : Word} {k n : Nat} (h : m.sameOutside m' [pixRegion dst k])
    (hk : k ≤ n) : m.sameOutside m' [pixRegion dst n] := fun a ha => h a fun r hr => by
  have := ha _ (List.mem_singleton.mpr rfl)
  rw [List.mem_singleton.mp hr]
  simp only [Region.has, pixRegion] at this ⊢
  omega

/-! ### LERP -/

theorem lerpLoop_succ (dst srcA srcB : Word) (t : Fp) (n : Nat) (m : Memory) :
    lerpLoop dst srcA srcB t (n + 1) m =
      let p := lerpLoop dst srcA srcB t n m
      let c := lerpWord t (p.1.pix srcA n) (p.1.pix srcB n)
      (p.1.setPix dst n c.1, p.2 || c.2) := by
  simp [lerpLoop, List.range_succ]

/-- The memory LERP leaves is that of a stream loop. -/
theorem lerpLoop_fst (dst srcA srcB : Word) (t : Fp) (count : Nat) (m : Memory) :
    (lerpLoop dst srcA srcB t count m).1
      = streamLoop dst (fun m k => (lerpWord t (m.pix srcA k) (m.pix srcB k)).1) count m := by
  induction count with
  | zero => rfl
  | succ n ih => rw [lerpLoop_succ, streamLoop_succ, ← ih]

/-- LERP marks when some element as it was before the loop is marked. -/
theorem lerpLoop_snd {dst srcA srcB : Word} {t : Fp} {count : Nat} {m : Memory}
    (hA : ∀ k < count, ∀ m', m.sameOutside m' [pixRegion dst k] → m'.pix srcA k = m.pix srcA k)
    (hB : ∀ k < count, ∀ m', m.sameOutside m' [pixRegion dst k] → m'.pix srcB k = m.pix srcB k) :
    (lerpLoop dst srcA srcB t count m).2 = true ↔ ∃ k < count, (lerpWord t (m.pix srcA k) (m.pix srcB k)).2 = true := by
  induction count with
  | zero => simp [lerpLoop]
  | succ n ih =>
    have hm : m.sameOutside (lerpLoop dst srcA srcB t n m).1 [pixRegion dst n] := by
      rw [lerpLoop_fst]; exact streamLoop_sameOutside _ _ _ _
    rw [lerpLoop_succ]
    simp only [hA n (by omega) _ hm, hB n (by omega) _ hm, Bool.or_eq_true]
    rw [ih (fun k hk => hA k (by omega)) (fun k hk => hB k (by omega))]
    constructor
    · rintro (⟨k, hk, h⟩ | h)
      · exact ⟨k, by omega, h⟩
      · exact ⟨n, by omega, h⟩
    · rintro ⟨k, hk, h⟩
      by_cases hkn : k = n
      · exact .inr (hkn ▸ h)
      · exact .inl ⟨k, by omega, h⟩

/-! ### RESIZE -/

/-- The nearest-neighbour pass is a stream loop over the destination indices. -/
theorem resample_eq (dst : Word) (dstW dstH : Nat) (src : Word) (srcW srcH : Nat) (m : Memory) :
    resample dst dstW dstH src srcW srcH m
      = streamLoop dst (fun m k => m.pix src (sourceIndex srcW srcH dstW dstH (k % dstW) (k / dstW))) (dstW * dstH) m := by
  simp only [resample, streamLoop, pixels_eq, List.foldl_map, pixel_coords_index]

/-- The copy into the scratch buffer is a stream loop. -/
theorem copyPixels_eq (dest source : Word) (n : Nat) (m : Memory) :
    copyPixels dest source n m = streamLoop dest (fun m k => m.pix source k) n m := rfl

end Sys2Proof.Machine
end

