-- ==== Sys2Proof/Laws/Convolution.lean ====
section
/-! SUPPORT. The loop of the convolution engine (R206), said once: what its end with a memory, a refused access or a NaN means,
and that it ends with the words of the image as it was when no access is refused and no channel is a NaN. -/

namespace Sys2Proof.Machine

/-- The accesses of one destination pixel. -/
def ConvJob.pixelAccesses (j : ConvJob) (x y : Nat) : List Access := j.tapReads x y ++ [writePix j.dst (y * j.w + x)]

theorem ConvJob.accesses_eq (j : ConvJob) : j.accesses = (pixels j.w j.h).flatMap fun p => j.pixelAccesses p.1 p.2 := rfl

theorem ConvJob.mem_accesses (j : ConvJob) (a : Access) :
    a ∈ j.accesses ↔ ∃ x y, x < j.w ∧ y < j.h ∧ a ∈ j.pixelAccesses x y := by
  rw [ConvJob.accesses_eq, List.mem_flatMap]
  constructor
  · rintro ⟨⟨x, y⟩, hp, ha⟩
    exact ⟨x, y, (mem_pixels.mp hp).1, (mem_pixels.mp hp).2, ha⟩
  · rintro ⟨x, y, hx, hy, ha⟩
    exact ⟨(x, y), mem_pixels.mpr ⟨hx, hy⟩, ha⟩

/-- The platform allows the accesses of one destination pixel. -/
def ConvJob.pixelOk (j : ConvJob) (plat : Platform) (p : Nat × Nat) : Prop := ∀ a ∈ j.pixelAccesses p.1 p.2, plat.memOk a = true

theorem ConvJob.pixelOk_iff (j : ConvJob) (plat : Platform) (p : Nat × Nat) :
    j.pixelOk plat p ↔ (j.tapReads p.1 p.2).all plat.memOk = true ∧ plat.memOk (writePix j.dst (p.2 * j.w + p.1)) = true := by
  simp only [ConvJob.pixelOk, ConvJob.pixelAccesses, List.forall_mem_append, List.forall_mem_singleton, List.all_eq_true]

/-- One destination pixel, allowed and not a NaN: its word is written and the loop goes on. -/
theorem ConvJob.loop_cons_some {j : ConvJob} {plat : Platform} {p : Nat × Nat} {m : Memory} {w : Word}
    (hok : j.pixelOk plat p) (hw : j.pixel m p.1 p.2 = some w) (rest : List (Nat × Nat)) :
    j.loop plat (p :: rest) m = j.loop plat rest (m.setPix j.dst (p.2 * j.w + p.1) w) := by
  have h := (j.pixelOk_iff plat p).mp hok
  rw [ConvJob.loop, if_pos h.1, hw]
  simp [h.2]

/-- A NaN at an allowed pixel ends the loop there. -/
theorem ConvJob.loop_cons_none {j : ConvJob} {plat : Platform} {p : Nat × Nat} {m : Memory}
    (hok : j.pixelOk plat p) (hw : j.pixel m p.1 p.2 = none) (rest : List (Nat × Nat)) :
    j.loop plat (p :: rest) m = .numeric (BitVec.ofNat 32 (pixAddr j.dst (p.2 * j.w + p.1))) := by
  have h := (j.pixelOk_iff plat p).mp hok
  rw [ConvJob.loop, if_pos h.1, hw]

/-- A refused access of a pixel that is not a NaN ends the loop. -/
theorem ConvJob.loop_cons_refused {j : ConvJob} {plat : Platform} {p : Nat × Nat} {m : Memory}
    (hno : ¬j.pixelOk plat p) (hw : (j.pixel m p.1 p.2).isSome = true) (rest : List (Nat × Nat)) :
    j.loop plat (p :: rest) m = .bus := by
  obtain ⟨w, hw⟩ := Option.isSome_iff_exists.mp hw
  rw [j.pixelOk_iff plat p] at hno
  rw [ConvJob.loop]
  split
  · rename_i h1
    rw [hw]
    simp only
    rw [if_neg fun h2 => hno ⟨h1, h2⟩]
  · rfl

/-- A refused access of a pixel ends the loop there, in one of two ways. -/
theorem ConvJob.loop_cons_bad {j : ConvJob} {plat : Platform} {p : Nat × Nat} (hno : ¬j.pixelOk plat p) (m : Memory)
    (rest : List (Nat × Nat)) : j.loop plat (p :: rest) m = .bus
      ∨ j.loop plat (p :: rest) m = .numeric (BitVec.ofNat 32 (pixAddr j.dst (p.2 * j.w + p.1))) := by
  cases hw : j.pixel m p.1 p.2 with
  | some w => exact .inl (ConvJob.loop_cons_refused hno (by rw [hw]; rfl) rest)
  | none =>
    rw [ConvJob.loop]
    split
    · rw [hw]; exact .inr rfl
    · exact .inl rfl

/-- All that the loop can end with, and what each end says of the accesses; what every pixel write keeps, the loop keeps. -/
theorem ConvJob.loop_end {j : ConvJob} {plat : Platform} {P : Memory → Prop} {allowed : Nat → Prop}
    (hP : Memory.Kept P allowed) (ha : ∀ x, (pixRegion j.dst (j.w * j.h)).has x → allowed x) :
    ∀ (ps : List (Nat × Nat)) (m : Memory), (∀ p ∈ ps, p.2 * j.w + p.1 < j.w * j.h) → P m →
    match j.loop plat ps m with
    | .done m' => P m' ∧ ∀ p ∈ ps, j.pixelOk plat p
    | .bus => ∃ p ∈ ps, ¬j.pixelOk plat p
    | .numeric addr => ∃ p ∈ ps, addr = BitVec.ofNat 32 (pixAddr j.dst (p.2 * j.w + p.1)) := by
  intro ps
  induction ps with
  | nil => exact fun m _ h => ⟨h, fun p hp => absurd hp List.not_mem_nil⟩
  | cons p ps ih =>
    intro m hidx h
    have hp := hidx p (List.mem_cons_self ..)
    by_cases hok : j.pixelOk plat p
    · cases hw : j.pixel m p.1 p.2 with
      | none => rw [ConvJob.loop_cons_none hok hw]; exact ⟨p, List.mem_cons_self .., rfl⟩
      | some w =>
        rw [ConvJob.loop_cons_some hok hw]
        have hrest := ih (m.setPix j.dst (p.2 * j.w + p.1) w) (fun q hq => hidx q (List.mem_cons_of_mem _ hq))
          (Memory.setPix_keeps hP (fun x h1 h2 => ha x (by simp only [Region.has, pixRegion, pixAddr] at h1 h2 ⊢; omega)) h)
        split at hrest
        · exact ⟨hrest.1, List.forall_mem_cons.mpr ⟨hok, hrest.2⟩⟩
        · obtain ⟨q, hq, hno⟩ := hrest; exact ⟨q, List.mem_cons_of_mem _ hq, hno⟩
        · obtain ⟨q, hq, he⟩ := hrest; exact ⟨q, List.mem_cons_of_mem _ hq, he⟩
    · rcases ConvJob.loop_cons_bad hok m ps with h1 | h1 <;> rw [h1]
      · exact ⟨p, List.mem_cons_self .., hok⟩
      · exact ⟨p, List.mem_cons_self .., rfl⟩

/-- The indices of the destination pixels lie in the destination. -/
theorem ConvJob.pixels_index (j : ConvJob) : ∀ p ∈ pixels j.w j.h, p.2 * j.w + p.1 < j.w * j.h := fun p hp =>
  have h := mem_pixels.mp (show (p.1, p.2) ∈ pixels j.w j.h from hp)
  pixel_index_lt h.1 h.2

/-- All that `conv_image` can end with: a memory that differs only in the destination and every access allowed, a refused
access, or a NaN at a destination pixel. -/
theorem ConvJob.run_end (j : ConvJob) (plat : Platform) (m : Memory) :
    match j.run plat m with
    | .done m' => m.sameOutside m' [pixRegion j.dst (j.w * j.h)] ∧ ∀ a ∈ j.accesses, plat.memOk a = true
    | .bus => ∃ a ∈ j.accesses, plat.memOk a = false
    | .numeric addr => ∃ x y, x < j.w ∧ y < j.h ∧ addr = BitVec.ofNat 32 (pixAddr j.dst (y * j.w + x)) := by
  have hout : ∀ a, ¬(pixRegion j.dst (j.w * j.h)).has a → ∀ m', j.run plat m = .done m' → m'.read a = m.read a := by
    intro a ha m' hm'
    have h := ConvJob.loop_end (j := j) (plat := plat) (Memory.kept_read a (m.read a))
      (fun x hx hxa => ha (hxa ▸ hx)) (pixels j.w j.h) m j.pixels_index rfl
    rw [ConvJob.run] at hm'
    rw [hm'] at h
    exact h.1
  have h := ConvJob.loop_end (j := j) (plat := plat) (P := fun _ => True) (allowed := fun _ => True)
    (fun _ _ _ _ _ => trivial) (fun _ _ => trivial) (pixels j.w j.h) m j.pixels_index trivial
  rw [ConvJob.run] at hout ⊢
  split at h <;> rename_i heq
  · refine ⟨fun a ha => hout a (ha _ (List.mem_singleton.mpr rfl)) _ heq, fun a ha => ?_⟩
    obtain ⟨x, y, hx, hy, hmem⟩ := (j.mem_accesses a).mp ha
    exact h.2 (x, y) (mem_pixels.mpr ⟨hx, hy⟩) a hmem
  · obtain ⟨⟨x, y⟩, hp, hno⟩ := h
    simp only [ConvJob.pixelOk, not_forall, Bool.not_eq_true] at hno
    obtain ⟨a, hmem, hno⟩ := hno
    exact ⟨a, (j.mem_accesses a).mpr ⟨x, y, (mem_pixels.mp hp).1, (mem_pixels.mp hp).2, hmem⟩, hno⟩
  · obtain ⟨⟨x, y⟩, hp, he⟩ := h
    exact ⟨x, y, (mem_pixels.mp hp).1, (mem_pixels.mp hp).2, he⟩

/-- What every write into the destination keeps, `conv_image` keeps. -/
theorem ConvJob.run_keeps {j : ConvJob} {plat : Platform} {P : Memory → Prop} {allowed : Nat → Prop}
    (hP : Memory.Kept P allowed) (ha : ∀ x, (pixRegion j.dst (j.w * j.h)).has x → allowed x) {m m' : Memory}
    (hrun : j.run plat m = .done m') (h : P m) : P m' := by
  have h := ConvJob.loop_end (plat := plat) hP ha (pixels j.w j.h) m j.pixels_index h
  rw [ConvJob.run] at hrun
  rw [hrun] at h
  exact h.1

/-! ### The words it writes -/

/-- Each pixel is a function of the image as it was: no earlier write of the loop reaches what it reads. -/
def ConvJob.readsAhead (j : ConvJob) (m : Memory) : Prop :=
  ∀ k < j.w * j.h, ∀ m', m.sameOutside m' [pixRegion j.dst k] → j.pixel m' (k % j.w) (k / j.w) = j.pixel m (k % j.w) (k / j.w)

/-- The loop from the `n`-th pixel on, when the first `n` were written. -/
theorem ConvJob.loop_step {j : ConvJob} {plat : Platform} {m m' : Memory} {n : Nat} {w : Word} (hn : n < j.w * j.h)
    (hahead : j.readsAhead m) (hm : m.sameOutside m' [pixRegion j.dst n]) (hok : j.pixelOk plat (n % j.w, n / j.w))
    (hw : j.pixel m (n % j.w) (n / j.w) = some w) (rest : List (Nat × Nat)) :
    j.loop plat ((n % j.w, n / j.w) :: rest) m' = j.loop plat rest (m'.setPix j.dst n w)
      ∧ m.sameOutside (m'.setPix j.dst n w) [pixRegion j.dst (n + 1)] := by
  constructor
  · have h := ConvJob.loop_cons_some (rest := rest) hok ((hahead n hn m' hm).trans hw)
    rw [h]
    simp only [pixel_coords_index]
  · exact Memory.sameOutside_trans (sameOutside_pixRegion_mono hm (by omega)) (Memory.sameOutside_setPix m' w (by omega))

/-- From the `n`-th pixel to the last, all allowed and none a NaN: the memory holds their words and, before them, what it
held. -/
theorem ConvJob.loop_done {j : ConvJob} {plat : Platform} {m : Memory} (hahead : j.readsAhead m)
    (hok : ∀ p ∈ pixels j.w j.h, j.pixelOk plat p) (hsome : ∀ k < j.w * j.h, (j.pixel m (k % j.w) (k / j.w)).isSome = true) :
    ∀ (r n : Nat) (m' : Memory), n + r = j.w * j.h → m.sameOutside m' [pixRegion j.dst n] →
    ∃ m'', j.loop plat ((List.range' n r).map fun k => (k % j.w, k / j.w)) m' = .done m''
      ∧ (∀ k < n, m''.pix j.dst k = m'.pix j.dst k)
      ∧ ∀ k, n ≤ k → k < j.w * j.h → j.pixel m (k % j.w) (k / j.w) = some (m''.pix j.dst k) := by
  intro r
  induction r with
  | zero => exact fun n m' hn _ => ⟨m', rfl, fun _ _ => rfl, fun k h1 h2 => absurd h2 (by omega)⟩
  | succ r ih =>
    intro n m' hn hm
    have hlt : n < j.w * j.h := by omega
    obtain ⟨w, hw⟩ := Option.isSome_iff_exists.mp (hsome n hlt)
    have hok' := hok (n % j.w, n / j.w) (mem_pixels.mpr (pixel_coords_lt hlt))
    obtain ⟨h1, h2⟩ := ConvJob.loop_step hlt hahead hm hok' hw ((List.range' (n + 1) r).map fun k => (k % j.w, k / j.w))
    obtain ⟨m'', hdone, hbefore, hafter⟩ := ih (n + 1) _ (by omega) h2
    refine ⟨m'', ?_, ?_, ?_⟩
    · rw [List.range'_succ, List.map_cons, h1]; exact hdone
    · intro k hk
      rw [hbefore k (by omega), Memory.pix_setPix_of_ne _ _ _ (by omega)]
    · intro k hk1 hk2
      by_cases hkn : k = n
      · subst hkn
        rw [hbefore k (by omega), Memory.pix_setPix_same]; exact hw
      · exact hafter k (by omega) hk2

/-- `conv_image` ends with every destination word that of the image as it was. -/
theorem ConvJob.run_done {j : ConvJob} {plat : Platform} {m : Memory} (hahead : j.readsAhead m)
    (hok : ∀ a ∈ j.accesses, plat.memOk a = true)
    (hsome : ∀ x y, x < j.w → y < j.h → (j.pixel m x y).isSome = true) :
    ∃ m', j.run plat m = .done m'
      ∧ (∀ x y, x < j.w → y < j.h → j.pixel m x y = some (m'.pix j.dst (y * j.w + x)))
      ∧ m.sameOutside m' [pixRegion j.dst (j.w * j.h)] := by
  have hok' : ∀ p ∈ pixels j.w j.h, j.pixelOk plat p := fun p hp a ha =>
    hok a ((j.mem_accesses a).mpr ⟨p.1, p.2, (mem_pixels.mp hp).1, (mem_pixels.mp hp).2, ha⟩)
  obtain ⟨m', hdone, -, hword⟩ := ConvJob.loop_done (plat := plat) hahead hok'
    (fun k hk => hsome _ _ (pixel_coords_lt hk).1 (pixel_coords_lt hk).2) (j.w * j.h) 0 m (by omega)
    (Memory.sameOutside_refl _ _)
  have hrun : j.run plat m = .done m' := by
    rw [ConvJob.run, pixels_eq, List.range_eq_range']; exact hdone
  refine ⟨m', hrun, fun x y hx hy => ?_, ?_⟩
  · have h := hword (y * j.w + x) (by omega) (pixel_index_lt hx hy)
    rwa [pixel_index_mod hx, pixel_index_div hx] at h
  · have h := j.run_end plat m
    rw [hrun] at h
    exact h.1

/-- A NaN first met at pixel `k` ends the loop there. -/
theorem ConvJob.loop_numeric {j : ConvJob} {plat : Platform} {m : Memory} (hahead : j.readsAhead m)
    (hok : ∀ p ∈ pixels j.w j.h, j.pixelOk plat p) {k : Nat} (hk : k < j.w * j.h)
    (hsome : ∀ i < k, (j.pixel m (i % j.w) (i / j.w)).isSome = true) (hnone : j.pixel m (k % j.w) (k / j.w) = none) :
    ∀ (r n : Nat) (m' : Memory), n + r = j.w * j.h → n ≤ k → m.sameOutside m' [pixRegion j.dst n] →
    j.loop plat ((List.range' n r).map fun k => (k % j.w, k / j.w)) m'
      = .numeric (BitVec.ofNat 32 (pixAddr j.dst k)) := by
  intro r
  induction r with
  | zero => intro n m' hn hnk; omega
  | succ r ih =>
    intro n m' hn hnk hm
    have hlt : n < j.w * j.h := by omega
    have hok' := hok (n % j.w, n / j.w) (mem_pixels.mpr (pixel_coords_lt hlt))
    rw [List.range'_succ, List.map_cons]
    by_cases hkn : n = k
    · subst hkn
      have h := ConvJob.loop_cons_none (rest := (List.range' (n + 1) r).map fun k => (k % j.w, k / j.w)) hok'
        ((hahead n hlt m' hm).trans hnone)
      rw [h]
      simp only [pixel_coords_index]
    · obtain ⟨w, hw⟩ := Option.isSome_iff_exists.mp (hsome n (by omega))
      obtain ⟨h1, h2⟩ := ConvJob.loop_step hlt hahead hm hok' hw ((List.range' (n + 1) r).map fun k => (k % j.w, k / j.w))
      rw [h1]
      exact ih (n + 1) _ (by omega) (by omega) h2

/-- `conv_image` ends at the first destination pixel with a NaN. -/
theorem ConvJob.run_numeric {j : ConvJob} {plat : Platform} {m : Memory} (hahead : j.readsAhead m)
    (hok : ∀ a ∈ j.accesses, plat.memOk a = true) {x y : Nat} (hx : x < j.w) (hy : y < j.h)
    (hsome : ∀ x' y', x' < j.w → y' * j.w + x' < y * j.w + x → (j.pixel m x' y').isSome = true)
    (hnone : j.pixel m x y = none) :
    j.run plat m = .numeric (BitVec.ofNat 32 (pixAddr j.dst (y * j.w + x))) := by
  have hok' : ∀ p ∈ pixels j.w j.h, j.pixelOk plat p := fun p hp a ha =>
    hok a ((j.mem_accesses a).mpr ⟨p.1, p.2, (mem_pixels.mp hp).1, (mem_pixels.mp hp).2, ha⟩)
  have hw : 0 < j.w := by omega
  rw [ConvJob.run, pixels_eq, List.range_eq_range']
  refine ConvJob.loop_numeric hahead hok' (pixel_index_lt hx hy) ?_ ?_ (j.w * j.h) 0 m (by omega) (by omega)
    (Memory.sameOutside_refl _ _)
  · intro i hi
    exact hsome _ _ (Nat.mod_lt _ hw) (by rw [pixel_coords_index]; exact hi)
  · rw [pixel_index_mod hx, pixel_index_div hx]; exact hnone

/-- With no channel a NaN, a refused access ends `conv_image` with a refused access. -/
theorem ConvJob.run_bus {j : ConvJob} {plat : Platform} {m : Memory} (hahead : j.readsAhead m)
    (hno : ∃ a ∈ j.accesses, plat.memOk a = false)
    (hsome : ∀ x y, x < j.w → y < j.h → (j.pixel m x y).isSome = true) : j.run plat m = .bus := by
  have hend := j.run_end plat m
  obtain ⟨a, ha, hbad⟩ := hno
  cases hrun : j.run plat m with
  | done m' =>
    rw [hrun] at hend
    rw [hend.2 a ha] at hbad; cases hbad
  | bus => rfl
  | numeric addr =>
    exfalso
    have key : ∀ (r n : Nat) (m' : Memory), n + r = j.w * j.h → m.sameOutside m' [pixRegion j.dst n] →
        ∀ addr, j.loop plat ((List.range' n r).map fun k => (k % j.w, k / j.w)) m' ≠ .numeric addr := by
      intro r
      induction r with
      | zero => intro n m' _ _ addr h; cases h
      | succ r ih =>
        intro n m' hn hm addr h
        have hlt : n < j.w * j.h := by omega
        have hc := pixel_coords_lt hlt
        have hs := hsome _ _ hc.1 hc.2
        rw [List.range'_succ, List.map_cons] at h
        by_cases hok : j.pixelOk plat (n % j.w, n / j.w)
        · obtain ⟨w, hw⟩ := Option.isSome_iff_exists.mp hs
          obtain ⟨h1, h2⟩ := ConvJob.loop_step hlt hahead hm hok hw
            ((List.range' (n + 1) r).map fun k => (k % j.w, k / j.w))
          rw [h1] at h
          exact ih (n + 1) _ (by omega) h2 addr h
        · rw [ConvJob.loop_cons_refused hok (by simpa only [hahead n hlt m' hm] using hs)] at h
          cases h
    rw [ConvJob.run, pixels_eq, List.range_eq_range'] at hrun
    exact key (j.w * j.h) 0 m (by omega) (Memory.sameOutside_refl _ _) addr hrun

/-! ### What a pixel reads -/

/-- A pixel depends on memory only through the source pixels its taps read. -/
theorem ConvJob.pixel_congr {j : ConvJob} {m m' : Memory} {x y : Nat}
    (h : ∀ f ∈ j.taps, m'.pix j.src (j.tapIndex x y f.1 f.2) = m.pix j.src (j.tapIndex x y f.1 f.2)) :
    j.pixel m' x y = j.pixel m x y := by
  have hacc : ∀ chan, j.accumulate m' chan x y = j.accumulate m chan x y := by
    intro chan
    unfold ConvJob.accumulate
    refine List.foldl_ext _ _ _ fun acc f hf => ?_
    rw [h f hf]
  simp only [ConvJob.pixel, hacc]

/-- A tap reads a pixel of the source image, whatever its offset (R202). -/
theorem ConvJob.tapIndex_lt {j : ConvJob} (hw : 0 < j.w) (hh : 0 < j.h) (x y fx fy : Nat) :
    j.tapIndex x y fx fy < j.w * j.h := by
  have h : ∀ (v : Int) (e : Nat), 0 < e → wrap v e < e := by
    intro v e he
    have h1 := Int.emod_nonneg (v + e) (b := (e : Int)) (by omega)
    have h2 := Int.emod_lt_of_pos (v + e) (b := (e : Int)) (by omega)
    unfold wrap
    omega
  exact pixel_index_lt (h _ _ hw) (h _ _ hh)

/-- With source and destination disjoint, no write of the loop reaches what a later pixel reads. -/
theorem ConvJob.readsAhead_of_disjoint {j : ConvJob} (hw : 0 < j.w) (hh : 0 < j.h)
    (hd : (pixRegion j.src (j.w * j.h)).overlaps (pixRegion j.dst (j.w * j.h)) = false) (m : Memory) : j.readsAhead m :=
  fun _ hk _ hm => ConvJob.pixel_congr fun _ _ =>
    pix_eq_of_disjoint hd (ConvJob.tapIndex_lt hw hh _ _ _ _) (sameOutside_pixRegion_mono hm (by omega))

end Sys2Proof.Machine
end

