-- ==== Sys2Proof/Laws/Decode.lean ====
section
/-! SUPPORT. The fields of a descriptor there and back, its bytes there and back, and a descriptor placed in memory. -/

namespace Sys2Proof

/-! ### Half words and double words -/

theorem loHalf_halves {lo : Nat} (hi : Nat) (h : lo < 2 ^ 16) : loHalf (halves lo hi) = lo := by
  have : (halves lo hi).extractLsb' 0 16 = BitVec.ofNat 16 lo :=
    BitVec.extractLsb'_append_eq_right (a := BitVec.ofNat 16 hi)
  rw [loHalf, this, BitVec.toNat_ofNat, Nat.mod_eq_of_lt h]

theorem hiHalf_halves (lo : Nat) {hi : Nat} (h : hi < 2 ^ 16) : hiHalf (halves lo hi) = hi := by
  have : (halves lo hi).extractLsb' 16 16 = BitVec.ofNat 16 hi :=
    BitVec.extractLsb'_append_eq_left (b := BitVec.ofNat 16 lo)
  rw [hiHalf, this, BitVec.toNat_ofNat, Nat.mod_eq_of_lt h]

theorem halves_loHalf_hiHalf (w : Word) : halves (loHalf w) (hiHalf w) = w := by
  simp only [halves, loHalf, hiHalf, BitVec.ofNat_toNat, BitVec.setWidth_eq]
  exact (BitVec.extractLsb'_append_extractLsb'_eq_extractLsb' (by norm_num)).trans BitVec.extractLsb'_eq_self

theorem loHalf_lt (w : Word) : loHalf w < 2 ^ 16 := BitVec.isLt _

theorem hiHalf_lt (w : Word) : hiHalf w < 2 ^ 16 := BitVec.isLt _

theorem append_halves64 (x : DWord) : x.extractLsb' 32 32 ++ x.extractLsb' 0 32 = x :=
  (BitVec.extractLsb'_append_extractLsb'_eq_extractLsb' (by norm_num)).trans BitVec.extractLsb'_eq_self

/-! ### Bytes -/

theorem append_wordBytes (w : Word) :
    w.extractLsb' 24 8 ++ w.extractLsb' 16 8 ++ w.extractLsb' 8 8 ++ w.extractLsb' 0 8 = w := by
  rw [BitVec.extractLsb'_append_extractLsb'_eq_extractLsb' (by norm_num),
    BitVec.extractLsb'_append_extractLsb'_eq_extractLsb' (by norm_num),
    BitVec.extractLsb'_append_extractLsb'_eq_extractLsb' (by norm_num)]
  exact BitVec.extractLsb'_eq_self

theorem takeWord_wordBytes (w : Word) (rest : List Byte) : takeWord (wordBytes w ++ rest) = some (w, rest) := by
  show some (_, rest) = _
  rw [append_wordBytes]

theorem takeWords_flatMap (ws : List Word) (rest : List Byte) :
    takeWords ws.length (ws.flatMap wordBytes ++ rest) = some (ws, rest) := by
  induction ws with
  | nil => rfl
  | cons w ws ih =>
    rw [List.flatMap_cons, List.append_assoc, List.length_cons, takeWords, takeWord_wordBytes]
    simp only [ih]

/-- Decoding the bytes of a descriptor is decoding the descriptor. -/
theorem decodeBytes_toBytes (d : Desc) (rest : List Byte) :
    decodeBytes (d.toBytes ++ rest) = (decode d).map fun i => (i, rest) := by
  have h : takeWords 16 (d.toBytes ++ rest) = some (d.words, rest) := takeWords_flatMap d.words rest
  have hd : (Desc.ofFn fun k => d.words.getD k 0) = d := rfl
  rw [decodeBytes, h]
  simp only [hd]
  cases decode d <;> rfl

theorem decodeTableWord_eq_some_iff (nbits w : Nat) (i : Instr) :
    decodeTableWord nbits w = some i ↔ decode (descOfBits nbits w) = .ok i := by
  have h := decodeBytes_toBytes (descOfBits nbits w) []
  rw [List.append_nil] at h
  rw [decodeTableWord, h]
  cases hd : decode (descOfBits nbits w) <;> simp [Except.map]

end Sys2Proof

namespace Sys2Proof.Machine

/-! ### A descriptor in memory -/

theorem Memory.read_writeBytes (bs : List Byte) : ∀ (m : Memory) (a k : Nat), k < bs.length →
    (m.writeBytes a bs).read (a + k) = bs.getD k 0 := by
  induction bs with
  | nil => intro m a k h; simp at h
  | cons b bs ih =>
    intro m a k h
    cases k with
    | zero =>
      show (Memory.writeBytes (m.write a b) (a + 1) bs).read a = b
      rw [Memory.writeBytes_keeps (Memory.kept_read a b) bs _ _ (fun x h1 _ => by omega) (Memory.read_write_same m a b)]
    | succ k =>
      have h' : a + (k + 1) = a + 1 + k := by omega
      rw [List.getD_cons_succ, h']
      exact ih _ _ k (by simpa using h)

/-- A word of memory is its four bytes, the least significant first. -/
theorem Memory.read32_eq_append (m : Memory) (a : Nat) :
    m.read32 a = m.read (a + 3) ++ m.read (a + 2) ++ m.read (a + 1) ++ m.read a := by
  apply BitVec.eq_of_toNat_eq
  have h0 := (m.read a).isLt
  have h1 := (m.read (a + 1)).isLt
  have h2 := (m.read (a + 2)).isLt
  have h3 := (m.read (a + 3)).isLt
  have hle : m.readLE a 4 = (m.read a).toNat + 256 * ((m.read (a + 1)).toNat + 256 * ((m.read (a + 2)).toNat
      + 256 * ((m.read (a + 3)).toNat + 256 * 0))) := rfl
  rw [Memory.read32, hle]
  simp only [BitVec.toNat_append, BitVec.toNat_ofNat]
  rw [← Nat.shiftLeft_add_eq_or_of_lt h2, ← Nat.shiftLeft_add_eq_or_of_lt h1, ← Nat.shiftLeft_add_eq_or_of_lt h0]
  simp only [Nat.shiftLeft_eq]
  omega

/-- A descriptor stored as bytes is the one memory then holds there. -/
theorem Memory.descAt_writeBytes (m : Memory) (a : Nat) (d : Desc) : (m.writeBytes a d.toBytes).descAt a = d := by
  have hr : ∀ k < 64, (m.writeBytes a d.toBytes).read (a + k) = d.toBytes.getD k 0 := fun k hk =>
    Memory.read_writeBytes d.toBytes m a k hk
  have hw : ∀ k < 16, (m.writeBytes a d.toBytes).read32 (a + 4 * k) = d.words.getD k 0 := by
    intro k hk
    have h1 := hr (4 * k + 1) (by omega)
    have h2 := hr (4 * k + 2) (by omega)
    have h3 := hr (4 * k + 3) (by omega)
    simp only [← Nat.add_assoc] at h1 h2 h3
    rw [Memory.read32_eq_append, h1, h2, h3, hr (4 * k) (by omega)]
    interval_cases k <;> exact append_wordBytes _
  unfold Memory.descAt Desc.ofFn
  simp only [hw 0 (by norm_num), hw 1 (by norm_num), hw 2 (by norm_num), hw 3 (by norm_num), hw 4 (by norm_num),
    hw 5 (by norm_num), hw 6 (by norm_num), hw 7 (by norm_num), hw 8 (by norm_num), hw 9 (by norm_num),
    hw 10 (by norm_num), hw 11 (by norm_num), hw 12 (by norm_num), hw 13 (by norm_num), hw 14 (by norm_num),
    hw 15 (by norm_num)]
  rfl

end Sys2Proof.Machine
end

