-- ==== Sys2Proof/Laws/Exec.lean ====
section
/-! SUPPORT. What executing a command can do, said once for all eight: a fault of validation, or the command's own writes and
then either the next descriptor or an imprecise fault. -/

namespace Sys2Proof.Machine

/-- `u` is `s` with what the command itself may change: memory by writes into its written regions only, the table and `LUTV`
by LUTLD only, `OOR` by LERP only and never cleared. -/
structure Touches (i : Instr) (s u : State) : Prop where
  rest : u = { s with mem := u.mem, lut := u.lut, lutv := u.lutv, oor := u.oor }
  mem : ∀ (P : Memory → Prop) (allowed : Nat → Prop), Memory.Kept P allowed →
    (∀ r ∈ writtenRegions i, ∀ x, r.has x → allowed x) → P s.mem → P u.mem
  lut : (∀ src, i ≠ .lutld src) → u.lut = s.lut ∧ u.lutv = s.lutv
  lutSize : ∀ src, i = .lutld src → u.lut.length = 2 ^ s.platform.lutAddrBits
  oor : (∀ dst a b n x, i ≠ .lerp dst a b n x) → u.oor = s.oor
  oorKept : s.oor = true → u.oor = true

/-- All that the end of a validated command can be: its own changes, then the next descriptor or an imprecise fault. -/
def Ends (i : Instr) (s t : State) : Prop :=
  ∃ u, Touches i s u ∧ (t = u.advance ∨ ∃ r : Raised, (r.cause = .bus ∨ r.cause = .numeric) ∧ t = u.raise r)

/-- Writing memory alone. -/
theorem Touches.of_mem {i : Instr} {s : State} {m : Memory} (hl : ∀ src, i ≠ .lutld src)
    (hm : ∀ (P : Memory → Prop) (allowed : Nat → Prop), Memory.Kept P allowed →
      (∀ r ∈ writtenRegions i, ∀ x, r.has x → allowed x) → P s.mem → P m) : Touches i s { s with mem := m } :=
  ⟨rfl, hm, fun _ => ⟨rfl, rfl⟩, fun src h => absurd h (hl src), fun _ => rfl, fun h => h⟩

/-- Free bytes in the written regions. -/
theorem Touches.of_havoc {i : Instr} {s : State} (hl : ∀ src, i ≠ .lutld src) : Touches i s (s.havoc (writtenRegions i)) :=
  Touches.of_mem hl fun _ _ hP ha h => State.havoc_keeps hP ha h

theorem finish_ends {i : Instr} {s t finished broken : State} {accs : List Access} (hf : Touches i s finished)
    (hb : Touches i s broken) (h : finish s accs finished broken = .next t) : Ends i s t := by
  rcases finish_cases h with ⟨-, rfl⟩ | ⟨a, -, -, rfl⟩
  · exact ⟨finished, hf, .inl rfl⟩
  · exact ⟨broken, hb, .inr ⟨_, .inl rfl, rfl⟩⟩

/-- A stream loop as a command's writes. -/
theorem Touches.of_stream {i : Instr} {s : State} {dst : Word} {count : Nat} (elem : Memory → Nat → Word)
    (hl : ∀ src, i ≠ .lutld src) (hw : pixRegion dst count ∈ writtenRegions i) :
    Touches i s { s with mem := streamLoop dst elem count s.mem } :=
  Touches.of_mem hl fun _ _ hP ha h => streamLoop_keeps hP elem (ha _ hw) h

/-- Executing a command: HALT, a fault of validation, or the end of a validated command. -/
theorem exec_cases {i : Instr} {s t : State} (h : exec i s = .next t) :
    (i = .halt ∧ t = { s.forgetDesc with busy := false, done := true })
    ∨ (∃ r, validate s i = some r ∧ t = s.raise r)
    ∨ (i ≠ .halt ∧ validate s i = none ∧ Ends i s t) := by
  cases i with
  | halt => exact .inl ⟨rfl, (Host.Outcome.next.inj h).symm⟩
  | rgb2hsv dst src count =>
    right
    simp only [exec, execRgb2hsv, validate] at h ⊢
    split at h <;> rename_i hv
    · exact .inl ⟨_, hv, (Host.Outcome.next.inj h).symm⟩
    · exact .inr ⟨by simp, hv, finish_ends (Touches.of_stream _ (by simp) (List.mem_singleton.mpr rfl))
        (Touches.of_havoc (by simp)) h⟩
  | hsv2rgb dst src count =>
    right
    simp only [exec, execHsv2rgb, validate] at h ⊢
    split at h <;> rename_i hv
    · exact .inl ⟨_, hv, (Host.Outcome.next.inj h).symm⟩
    · exact .inr ⟨by simp, hv, finish_ends (Touches.of_stream _ (by simp) (List.mem_singleton.mpr rfl))
        (Touches.of_havoc (by simp)) h⟩
  | lerp dst srcA srcB count x =>
    right
    simp only [exec, execLerp, validate] at h ⊢
    split at h <;> rename_i hv
    · exact .inl ⟨_, hv, (Host.Outcome.next.inj h).symm⟩
    · refine .inr ⟨by simp, hv, finish_ends ?_ ?_ h⟩
      · refine ⟨rfl, fun P allowed hP ha hs => ?_, fun _ => ⟨rfl, rfl⟩, by simp, by simp, fun h => by simp [State.markOor, h]⟩
        show P (lerpLoop _ _ _ _ _ _).1
        rw [lerpLoop_fst]
        exact streamLoop_keeps hP _ (ha _ (List.mem_singleton.mpr rfl)) hs
      · exact ⟨rfl, fun P allowed hP ha hs => State.havoc_keeps hP ha hs, fun _ => ⟨rfl, rfl⟩, by simp, by simp,
          fun h => by simp [State.doubtOor, State.markOor, State.havoc, h]⟩
  | lutld src =>
    right
    simp only [exec, execLutld, validate] at h ⊢
    split at h <;> rename_i hv
    · exact .inl ⟨_, hv, (Host.Outcome.next.inj h).symm⟩
    · refine .inr ⟨by simp, hv, finish_ends ?_ ?_ h⟩
      · exact ⟨rfl, fun _ _ _ _ hs => hs, by simp, fun _ _ => by simp [tableAt], fun _ => rfl, fun h => h⟩
      · exact ⟨rfl, fun _ _ _ _ hs => hs, by simp, fun _ _ => by simp [freeLut], fun _ => rfl, fun h => h⟩
  | gamma dst src count =>
    right
    simp only [exec, execGamma, validate] at h ⊢
    split at h <;> rename_i hv
    · exact .inl ⟨_, hv, (Host.Outcome.next.inj h).symm⟩
    · exact .inr ⟨by simp, hv, finish_ends (Touches.of_stream _ (by simp) (List.mem_singleton.mpr rfl))
        (Touches.of_havoc (by simp)) h⟩
  | resize dst dstW dstH src srcW srcH blur scratch =>
    right
    simp only [exec, execResize, validate] at h ⊢
    split at h <;> rename_i hv
    · exact .inl ⟨_, hv, (Host.Outcome.next.inj h).symm⟩
    · refine .inr ⟨by simp, hv, ?_⟩
      have hd : pixRegion dst (dstW * dstH) ∈ writtenRegions (.resize dst dstW dstH src srcW srcH blur scratch) := by
        simp only [writtenRegions]; split <;> simp
      have hres : ∀ (P : Memory → Prop) (allowed : Nat → Prop), Memory.Kept P allowed →
          (∀ r ∈ writtenRegions (.resize dst dstW dstH src srcW srcH blur scratch), ∀ x, r.has x → allowed x) →
          P s.mem → P (resample dst dstW dstH src srcW srcH s.mem) := by
        intro P allowed hP ha hs
        rw [resample_eq]
        exact streamLoop_keeps hP _ (ha _ hd) hs
      split at h
      · rename_i hb
        have hx : pixRegion scratch (dstW * dstH) ∈ writtenRegions (.resize dst dstW dstH src srcW srcH blur scratch) := by
          simp [writtenRegions, hb]
        split at h
        · rename_i m hrun
          refine finish_ends (Touches.of_mem (by simp) fun P allowed hP ha hs => ?_) (Touches.of_havoc (by simp)) h
          refine ConvJob.run_keeps hP (ha _ hd) hrun ?_
          exact streamLoop_keeps hP _ (ha _ hx) (hres P allowed hP ha hs)
        · exact ⟨_, Touches.of_havoc (by simp), .inr ⟨_, .inl rfl, (Host.Outcome.next.inj h).symm⟩⟩
        · exact ⟨_, Touches.of_havoc (by simp), .inr ⟨_, .inr rfl, (Host.Outcome.next.inj h).symm⟩⟩
      · exact finish_ends (Touches.of_mem (by simp) hres) (Touches.of_havoc (by simp)) h
  | conv dst src w hh kernel kw kh factor bias =>
    right
    simp only [exec, execConv, validate] at h ⊢
    split at h <;> rename_i hv
    · exact .inl ⟨_, hv, (Host.Outcome.next.inj h).symm⟩
    · refine .inr ⟨by simp, hv, ?_⟩
      split at h
      · rename_i m hrun
        refine ⟨_, Touches.of_mem (by simp) fun P allowed hP ha hs => ?_, .inl (Host.Outcome.next.inj h).symm⟩
        exact ConvJob.run_keeps hP (ha _ (List.mem_singleton.mpr rfl)) hrun hs
      · exact ⟨_, Touches.of_havoc (by simp), .inr ⟨_, .inl rfl, (Host.Outcome.next.inj h).symm⟩⟩
      · exact ⟨_, Touches.of_havoc (by simp), .inr ⟨_, .inr rfl, (Host.Outcome.next.inj h).symm⟩⟩

/-- The written regions of a validated command end at or below `2^32` (R85). -/
theorem validate_inRange {i : Instr} {s : State} (h : validate s i = none) :
    ∀ r ∈ readRegions s.platform.lutAddrBits i ++ writtenRegions i, r.base + r.size ≤ 2 ^ 32 := by
  have key : regionCheck s.platform.lutAddrBits i = none → ∀ r ∈ readRegions s.platform.lutAddrBits i ++ writtenRegions i,
      r.base + r.size ≤ 2 ^ 32 := (rangeCheck_eq_none_iff _).mp
  cases i <;>
    simp only [validate, checkRgb2hsv, checkHsv2rgb, checkLerp, checkLutld, checkGamma, checkResize, checkConv, pixelStreamCheck,
      orElse_eq_none_iff] at h
  case halt => intro r hr; simp [readRegions, writtenRegions] at hr
  all_goals exact key (by tauto)

/-- What validation finds wrong is the fault the command raises. -/
theorem exec_of_invalid {i : Instr} {s : State} {r : Raised} (h : validate s i = some r) : exec i s = .next (s.raise r) := by
  cases i <;> simp only [validate] at h
  case halt => cases h
  case rgb2hsv dst src count => simp [exec, execRgb2hsv, h]
  case hsv2rgb dst src count => simp [exec, execHsv2rgb, h]
  case lerp dst srcA srcB count t => simp [exec, execLerp, h]
  case lutld src => simp [exec, execLutld, h]
  case gamma dst src count => simp [exec, execGamma, h]
  case resize dst dstW dstH src srcW srcH blur scratch => simp [exec, execResize, h]
  case conv dst src w hh kernel kw kh factor bias => simp [exec, execConv, h]

end Sys2Proof.Machine
end

