-- ==== Sys2Proof/Laws/Float.lean ====
section
/-! SUPPORT. The floating-point operations where they are exact, and where they give no NaN (R12). -/

namespace Sys2Proof.Machine

/-- A multiple of the rounding unit is not rounded. -/
theorem roundNearestEven_mul (q k : Nat) : roundNearestEven (q * 2 ^ k) k = q := by
  have hk : 0 < 2 ^ k := Nat.two_pow_pos k
  simp only [roundNearestEven, Nat.mul_div_cancel q hk, Nat.mul_mod_left, Nat.mul_zero]
  rw [if_neg]
  rintro (h | ⟨h, -⟩) <;> omega

/-- A magnitude with at most `prec` significant bits is not rounded. -/
theorem FpFormat.round_exact {f : FpFormat} {q e d : Nat} (neg : Bool) (hq : q < 2 ^ f.prec) (hd : d ≤ e)
    (hlim : q * 2 ^ (e - d) < f.limit) : f.round neg (q * 2 ^ e) d = .fin neg (q * 2 ^ (e - d)) := by
  have hlog : q ≠ 0 → Nat.log2 (q * 2 ^ e) + 1 - f.prec ≤ e := by
    intro h0
    have h1 : q * 2 ^ e < 2 ^ (f.prec + e) := by rw [pow_add]; exact Nat.mul_lt_mul_of_pos_right hq (Nat.two_pow_pos e)
    have h2 := (Nat.log2_lt (Nat.mul_ne_zero h0 (Nat.two_pow_pos e).ne')).mpr h1
    omega
  have hmag : roundNearestEven (q * 2 ^ e) (max d (Nat.log2 (q * 2 ^ e) + 1 - f.prec))
      * 2 ^ (max d (Nat.log2 (q * 2 ^ e) + 1 - f.prec) - d) = q * 2 ^ (e - d) := by
    generalize hdrop : max d (Nat.log2 (q * 2 ^ e) + 1 - f.prec) = drop
    by_cases h0 : q = 0
    · subst h0
      have := roundNearestEven_mul 0 drop
      simp only [Nat.zero_mul] at this ⊢
      rw [this, Nat.zero_mul]
    · have h1 : drop ≤ e := by have := hlog h0; omega
      have h2 : d ≤ drop := by omega
      have h3 : q * 2 ^ e = q * 2 ^ (e - drop) * 2 ^ drop := by rw [Nat.mul_assoc, ← pow_add, Nat.sub_add_cancel h1]
      rw [h3, roundNearestEven_mul, Nat.mul_assoc, ← pow_add]
      congr 2; omega
  simp only [FpFormat.round, hmag]
  rw [if_neg (by omega)]

/-- A rounded magnitude is an infinity or finite, with the sign given. -/
theorem FpFormat.round_cases (f : FpFormat) (neg : Bool) (m d : Nat) :
    f.round neg m d = .inf neg ∨ ∃ mag, f.round neg m d = .fin neg mag := by
  simp only [FpFormat.round]
  split
  · exact .inl rfl
  · exact .inr ⟨_, rfl⟩

theorem FpFormat.round_ne_nan (f : FpFormat) (neg : Bool) (m d : Nat) : f.round neg m d ≠ .nan := by
  rcases f.round_cases neg m d with h | ⟨_, h⟩ <;> rw [h] <;> simp

@[simp] theorem FpFormat.add_nan_left (f : FpFormat) (x : Fp) : f.add .nan x = .nan := by cases x <;> rfl
@[simp] theorem FpFormat.add_nan_right (f : FpFormat) (x : Fp) : f.add x .nan = .nan := by cases x <;> rfl
@[simp] theorem FpFormat.mul_nan_left (f : FpFormat) (x : Fp) : f.mul .nan x = .nan := by cases x <;> rfl
@[simp] theorem FpFormat.mul_nan_right (f : FpFormat) (x : Fp) : f.mul x .nan = .nan := by cases x <;> rfl

/-- The sum of finite values is no NaN. -/
theorem FpFormat.add_fin_ne_nan (f : FpFormat) (a b : Bool) (m n : Nat) : f.add (.fin a m) (.fin b n) ≠ .nan := by
  simp only [FpFormat.add]
  split
  · exact f.round_ne_nan _ _ _
  · split
    · exact f.round_ne_nan _ _ _
    · split
      · exact f.round_ne_nan _ _ _
      · simp

/-- The product of finite values is no NaN. -/
theorem FpFormat.mul_fin_ne_nan (f : FpFormat) (a b : Bool) (m n : Nat) : f.mul (.fin a m) (.fin b n) ≠ .nan :=
  f.round_ne_nan _ _ _

/-- The two formats have more range than precision. -/
theorem FpFormat.natLimit {f : FpFormat} (hf : f.prec ≤ 2 ^ (f.expBits - 1)) {n : Nat} (hn : n < 2 ^ f.prec) :
    n * 2 ^ f.scale < f.limit := by
  have h : 2 ^ f.prec ≤ 2 ^ 2 ^ (f.expBits - 1) := Nat.pow_le_pow_right (by norm_num) hf
  rw [FpFormat.limit, pow_add]
  exact Nat.mul_lt_mul_of_pos_right (by omega) (Nat.two_pow_pos _)

theorem prec_binary32 : binary32.prec ≤ 2 ^ (binary32.expBits - 1) := by decide
theorem prec_binary64 : binary64.prec ≤ 2 ^ (binary64.expBits - 1) := by decide

/-- Sums of small integers are exact. -/
theorem FpFormat.add_ofNat {f : FpFormat} (hf : f.prec ≤ 2 ^ (f.expBits - 1)) {a b : Nat} (h : a + b < 2 ^ f.prec) :
    f.add (f.ofNat a) (f.ofNat b) = f.ofNat (a + b) := by
  have h1 : f.add (f.ofNat a) (f.ofNat b) = f.round false ((a + b) * 2 ^ f.scale) 0 := by
    rw [Nat.add_mul]; rfl
  rw [h1, FpFormat.round_exact false h (Nat.zero_le _) (by rw [Nat.sub_zero]; exact FpFormat.natLimit hf h)]
  rfl

/-- Products of small integers are exact. -/
theorem FpFormat.mul_ofNat {f : FpFormat} (hf : f.prec ≤ 2 ^ (f.expBits - 1)) {a b : Nat} (h : a * b < 2 ^ f.prec) :
    f.mul (f.ofNat a) (f.ofNat b) = f.ofNat (a * b) := by
  have h1 : f.mul (f.ofNat a) (f.ofNat b) = f.round false (a * b * 2 ^ (f.scale + f.scale)) f.scale := by
    rw [pow_add]
    show f.round _ (a * 2 ^ f.scale * (b * 2 ^ f.scale)) _ = _
    congr 1; ring
  rw [h1, FpFormat.round_exact false h (by omega) (by rw [Nat.add_sub_cancel]; exact FpFormat.natLimit hf h),
    Nat.add_sub_cancel]
  rfl

/-- Truncation and rounding of an integer give it back. -/
theorem FpFormat.trunc_ofNat (f : FpFormat) (n : Nat) : f.trunc false (n * 2 ^ f.scale) = n := by
  simp [FpFormat.trunc, Nat.mul_div_cancel n (Nat.two_pow_pos f.scale)]

theorem FpFormat.roundHalfAway_ofNat (f : FpFormat) (n : Nat) : f.roundHalfAway false (n * 2 ^ f.scale) = n := by
  have h : (2 * (n * 2 ^ f.scale) + 2 ^ f.scale) / 2 ^ (f.scale + 1) = n := by
    have hp := Nat.two_pow_pos f.scale
    rw [pow_succ]
    have : 2 * (n * 2 ^ f.scale) + 2 ^ f.scale = 2 ^ f.scale + 2 ^ f.scale * 2 * n := by ring
    rw [this, Nat.add_mul_div_left _ _ (by omega), Nat.div_eq_of_lt (by omega), Nat.zero_add]
  simp [FpFormat.roundHalfAway, h]

end Sys2Proof.Machine
end

