-- ==== Sys2Proof/Laws/PerInstr.lean ====
section
/-! SUPPORT. The family `EncodesLegally`: the encoding of each command has a header of the opcode map (R110) and zeros in every
word its format reserves (R109). -/

namespace Sys2Proof.Laws

/-- The header of the encoding selects a command whose reserved words are all zero. -/
def EncodesLegally.Statement (i : Instr) : Prop :=
  ∃ op, Opcode.ofHeader (encode i).w0 = some op ∧ op.format.firstReserved (encode i) = none

theorem EncodesLegally.halt : EncodesLegally.Statement .halt := ⟨.halt, rfl, rfl⟩

theorem EncodesLegally.rgb2hsv (dst src : Word) (count : Nat) : EncodesLegally.Statement (.rgb2hsv dst src count) :=
  ⟨.rgb2hsv, rfl, rfl⟩

theorem EncodesLegally.hsv2rgb (dst src : Word) (count : Nat) : EncodesLegally.Statement (.hsv2rgb dst src count) :=
  ⟨.hsv2rgb, rfl, rfl⟩

theorem EncodesLegally.lerp (dst srcA srcB : Word) (count : Nat) (t : BitVec 32) :
    EncodesLegally.Statement (.lerp dst srcA srcB count t) :=
  ⟨.lerp, rfl, rfl⟩

theorem EncodesLegally.lutld (src : Word) : EncodesLegally.Statement (.lutld src) := ⟨.lutld, rfl, rfl⟩

theorem EncodesLegally.gamma (dst src : Word) (count : Nat) : EncodesLegally.Statement (.gamma dst src count) :=
  ⟨.gamma, rfl, rfl⟩

theorem EncodesLegally.resize (dst : Word) (dstW dstH : Nat) (src : Word) (srcW srcH : Nat) (blur : Int) (scratch : Word) :
    EncodesLegally.Statement (.resize dst dstW dstH src srcW srcH blur scratch) :=
  ⟨.resize, rfl, rfl⟩

theorem EncodesLegally.conv (dst src : Word) (w h : Nat) (kernel : Word) (kw kh : Nat) (factor bias : DWord) :
    EncodesLegally.Statement (.conv dst src w h kernel kw kh factor bias) :=
  ⟨.conv, rfl, rfl⟩

end Sys2Proof.Laws
end

