-- ==== Sys2Proof/Laws/Step.lean ====
section
/-! SUPPORT. What one step of the machine can be: whose move it is, and each move said once. -/

namespace Sys2Proof.Machine

/-- With an empty schedule the core moves. -/
theorem step_of_no_turns {s : State} (h : s.turns = []) : step s = coreTurn s := by simp [step, nextMove, h]

/-- Else the first agent of the schedule moves. -/
theorem step_of_turns {s : State} {t : Turn} {rest : List Turn} (h : s.turns = t :: rest) :
    step s = takeTurn t { s with turns := rest } := by simp [step, nextMove, h]

theorem coreTurn_running {s : State} (h : s.busy = true) : coreTurn s = engineStep s := by simp [coreTurn, h]

theorem coreTurn_stopped {s : State} (h : s.busy = false) : coreTurn s = .next s := by simp [coreTurn, h]

/-- The step of a running core whose descriptor decodes is the command's. -/
theorem step_runs {s : State} {d : Desc} {i : Instr} (ht : s.turns = []) (hb : s.busy = true) (hf : fetch s = .ok d)
    (hd : decode d = .ok i) : step s = exec i { s with desc := d } := by
  rw [step_of_no_turns ht, coreTurn_running hb, engineStep_ok hf hd]

/-! ### Register accesses -/

theorem aligned32_iff (offset : BitVec 8) (bytes : Nat) : aligned32 offset bytes = true ↔ bytes = 4 ∧ offset.toNat % 4 = 0 := by
  simp [aligned32]

theorem takeTurn_regRead {s : State} {offset : BitVec 8} (h : offset.toNat % 4 = 0) :
    takeTurn (.regRead offset 4) s = .next { s with readData := s.readReg offset } := by
  simp [takeTurn, (aligned32_iff offset 4).mpr ⟨rfl, h⟩]

theorem takeTurn_regWrite {s : State} {offset : BitVec 8} {v : Word} (h : offset.toNat % 4 = 0) :
    takeTurn (.regWrite offset 4 v) s = .next (s.writeReg offset v) := by
  simp [takeTurn, (aligned32_iff offset 4).mpr ⟨rfl, h⟩]

/-- A write to `CTRL` (R37) without `SRST` while the core is stopped. -/
theorem State.writeCtrl_stopped {s : State} {v : Word} (h31 : v.getLsbD 31 = false) (hb : s.busy = false) :
    s.writeCtrl v = { s with
      err := s.err && !v.getLsbD 2
      errCode := if v.getLsbD 2 then 0 else s.errCode
      done := s.done && !v.getLsbD 1 && !(v.getLsbD 0 && !(s.err && !v.getLsbD 2))
      oor := s.oor && !v.getLsbD 3
      busy := v.getLsbD 0 && !(s.err && !v.getLsbD 2) } := by
  rcases s with ⟨mem, cp, busy, done, err, lutv, oor, doneIe, errIe, errCode, errCp, errInfo, lut, desc, platform, turns,
    readData, freeCount⟩
  subst hb
  simp only [State.writeCtrl, h31, State.start, State.clearErr]
  cases v.getLsbD 2 <;> cases v.getLsbD 1 <;> cases v.getLsbD 3 <;> cases v.getLsbD 0 <;> cases err <;> cases done
    <;> cases oor <;> rfl

/-! ### Reset -/

/-- Abandoning a command changes memory alone, and only inside the written regions of the command in progress (R283). -/
theorem State.abandon_eq (s : State) : s.abandon = { s with mem := s.abandon.mem } := by
  unfold State.abandon
  split <;> rfl

theorem State.abandon_none {s : State} (h : commandInProgress s = none) : s.abandon = s := by simp [State.abandon, h]

theorem State.sameOutside_abandon {s : State} {i : Instr} (h : commandInProgress s = some i) :
    s.mem.sameOutside s.abandon.mem (writtenRegions i) := by
  rw [State.abandon, h]
  exact s.sameOutside_havoc _

/-- A command in progress has passed validation. -/
theorem commandInProgress_valid {s : State} {i : Instr} (h : commandInProgress s = some i) :
    s.busy = true ∧ validate s i = none := by
  unfold commandInProgress at h
  split at h
  · refine ⟨‹_›, ?_⟩
    split at h
    · cases h
    · split at h
      · cases h
      · split at h
        · rename_i hv
          cases h
          simpa using hv
        · cases h
  · cases h

theorem commandInProgress_stopped {s : State} (h : s.busy = false) : commandInProgress s = none := by
  simp [commandInProgress, h]

/-! ### The running list (R290) -/

/-- A region the running core is about to use, as claims say it. -/
theorem State.pendingRegions_any (s : State) (r : Region) :
    (s.pendingRegions.any fun q => q.overlaps r) = true ↔ s.awaits r := by
  unfold State.pendingRegions State.awaits
  cases hd : decode (s.mem.descAt s.cp.toNat) with
  | error e => simp [Config.descBytes]
  | ok i =>
    simp only [List.any_cons, Bool.or_eq_true, List.any_eq_true, Config.descBytes, Except.ok.injEq]
    exact or_congr Iff.rfl ⟨fun h => ⟨i, rfl, h⟩, fun ⟨_, hj, h⟩ => hj ▸ h⟩

/-- What following the running list finds within `fuel` commands. -/
theorem pendingTouch_iff (r : Region) (fuel : Nat) : ∀ s : State, pendingTouch r fuel s = true ↔
    ∃ k < fuel, ∃ u, engineAfter k s = some u ∧ u.awaits r := by
  induction fuel with
  | zero => intro s; simp [pendingTouch]
  | succ n ih =>
    intro s
    rw [pendingTouch]
    by_cases hb : s.busy = true
    · rw [if_pos hb]
      by_cases ha : (s.pendingRegions.any fun q => q.overlaps r) = true
      · rw [if_pos ha]
        exact ⟨fun _ => ⟨0, by omega, s, by simp [engineAfter, hb], (s.pendingRegions_any r).mp ha⟩, fun _ => rfl⟩
      · rw [if_neg ha]
        have h0 : ¬s.awaits r := fun h => ha ((s.pendingRegions_any r).mpr h)
        have key : ∀ k u, engineAfter k s = some u → u.awaits r → ∃ j t, k = j + 1 ∧ engineStep s = .next t
            ∧ engineAfter j t = some u := by
          intro k u hk hu
          cases k with
          | zero =>
            simp only [engineAfter, hb, if_true, Option.some.injEq] at hk
            exact absurd (hk ▸ hu) h0
          | succ j =>
            simp only [engineAfter, hb, if_true] at hk
            split at hk
            · exact ⟨j, _, rfl, ‹_›, hk⟩
            · cases hk
        split
        · rename_i t hs
          rw [ih t]
          constructor
          · rintro ⟨k, hk, u, h1, h2⟩
            exact ⟨k + 1, by omega, u, by simp [engineAfter, hb, hs, h1], h2⟩
          · rintro ⟨k, hk, u, h1, h2⟩
            obtain ⟨j, t', rfl, hs', h3⟩ := key k u h1 h2
            rw [hs] at hs'
            cases hs'
            exact ⟨j, by omega, u, h3, h2⟩
        · rename_i hs
          constructor
          · rintro ⟨⟩
          · rintro ⟨k, -, u, h1, h2⟩
            obtain ⟨j, t', rfl, hs', -⟩ := key k u h1 h2
            exact absurd hs' (hs t')
    · rw [if_neg hb]
      constructor
      · rintro ⟨⟩
      · rintro ⟨k, -, u, h1, -⟩
        cases k <;> simp [engineAfter, hb] at h1

/-- One step of a core that still runs afterwards has raised `CP` by 64, without wrapping (R133, R134). -/
theorem engineStep_rises {s t : State} (h : engineStep s = .next t) (hb : t.busy = true) :
    t.cp.toNat = s.cp.toNat + 64 := by
  have fault : ∀ (u : State) (r : Raised), t = u.raise r → False := by
    rintro u r rfl
    cases hb
  rcases engineStep_cases s with ⟨r, -, h'⟩ | ⟨d, e, -, -, h'⟩ | ⟨d, i, hf, -, h'⟩ <;> rw [h'] at h
  · exact (fault _ _ (Host.Outcome.next.inj h).symm).elim
  · exact (fault _ _ (Host.Outcome.next.inj h).symm).elim
  · rcases exec_cases h with ⟨-, rfl⟩ | ⟨r, -, rfl⟩ | ⟨hi, hv, u, hu, rfl | ⟨r, -, rfl⟩⟩
    · cases hb
    · exact (fault _ _ rfl).elim
    · have hcp : u.cp = s.cp := by rw [hu.rest]
      have ha : s.cp.toNat % 64 = 0 := (fetch_eq_ok_iff.mp hf).1
      have htop : s.cp ≠ 0xFFFFFFC0 := by
        intro htop
        have : cpWrapCheck { s with desc := d } = none := by
          cases i <;> simp only [validate, checkRgb2hsv, checkHsv2rgb, checkLerp, checkLutld, checkGamma, checkResize, checkConv,
            pixelStreamCheck, orElse_eq_none_iff] at hv
          case halt => exact absurd rfl hi
          all_goals exact hv.1
        exact (cpWrapCheck_eq_none_iff _).mp this htop
      have hne : s.cp.toNat ≠ 0xFFFFFFC0 := fun h => htop (BitVec.eq_of_toNat_eq h)
      have hlt := s.cp.isLt
      show (u.cp + 64).toNat = _
      rw [hcp, BitVec.toNat_add]
      show (s.cp.toNat + 64) % 2 ^ 32 = _
      omega
    · exact (fault _ _ rfl).elim

/-- After `k` commands `CP` is `64 k` higher. -/
theorem engineAfter_cp (k : Nat) : ∀ {s u : State}, engineAfter k s = some u → u.busy = true ∧ u.cp.toNat = s.cp.toNat + 64 * k := by
  induction k with
  | zero =>
    intro s u h
    by_cases hb : s.busy = true
    · simp only [engineAfter, hb, if_true, Option.some.injEq] at h
      subst h
      exact ⟨hb, rfl⟩
    · simp [engineAfter, hb] at h
  | succ k ih =>
    intro s u h
    by_cases hb : s.busy = true
    · simp only [engineAfter, hb, if_true] at h
      split at h
      · rename_i t hs
        obtain ⟨h1, h2⟩ := ih h
        have ht : t.busy = true := by
          cases k <;> by_cases hb' : t.busy = true <;> first | exact hb' | simp [engineAfter, hb'] at h
        exact ⟨h1, by rw [h2, engineStep_rises hs ht]; omega⟩
      · cases h
    · simp [engineAfter, hb] at h

/-- The words the host must not write now: those that some command of the running list, as the core will run it, still has
before it. -/
theorem State.inFlight_iff (s : State) (a : Nat) : s.inFlight a = true ↔ ∃ k u, engineAfter k s = some u ∧ u.awaits ⟨a, 4⟩ := by
  rw [State.inFlight, pendingTouch_iff]
  constructor
  · rintro ⟨k, -, u, h⟩
    exact ⟨k, u, h⟩
  · rintro ⟨k, u, h1, h2⟩
    have := (engineAfter_cp k h1).2
    have := u.cp.isLt
    exact ⟨k, by omega, u, h1, h2⟩

end Sys2Proof.Machine
end

