-- ==== Sys2Proof/Machine/Assembly.lean ====
section
/-! DEFINITION. The textual form of commands and data (30_encoding.md R115), as 95_test_vectors.md writes it: lines of text to the
bytes they place in memory. No step of the machine uses this file. -/

namespace Sys2Proof.Machine

/-! ### Characters, numbers -/

/-- Split at every occurrence of a character. -/
def splitAtChar (c : Char) : List Char → List (List Char)
  | [] => [[]]
  | x :: xs =>
    match splitAtChar c xs with
    | [] => [[x]]
    | w :: ws => if x = c then [] :: w :: ws else (x :: w) :: ws

/-- Without the spaces at both ends. -/
def trimSpaces (cs : List Char) : List Char :=
  ((cs.dropWhile fun c => c = ' ').reverse.dropWhile fun c => c = ' ').reverse

/-- The blocks of digit characters, each by its first character, the value of that digit and its length. -/
def digitBlocks : List (Char × Nat × Nat) := [('0', 0, 10), ('A', 10, 6), ('a', 10, 6)]

/-- The value of a digit, decimal or hexadecimal. -/
def digitValue (c : Char) : Option Nat :=
  (digitBlocks.find? fun b => b.1.toNat ≤ c.toNat && decide (c.toNat < b.1.toNat + b.2.2)).map fun b =>
    b.2.1 + (c.toNat - b.1.toNat)

/-- A digit appended to the number read so far. -/
def appendDigit (base : Nat) (acc : Option Nat) (c : Char) : Option Nat :=
  match acc, digitValue c with
  | some n, some d => if d < base then some (n * base + d) else none
  | _, _ => none

/-- A non-empty string of digits in a base. -/
def readDigits (base : Nat) (cs : List Char) : Option Nat :=
  if cs = [] then none else cs.foldl (appendDigit base) (some 0)

/-- A number, decimal or `0x` hexadecimal. -/
def readNumber : List Char → Option Nat
  | '0' :: 'x' :: ds => readDigits 16 ds
  | ds => readDigits 10 ds

/-- A number below `bound`. One that is larger does not fit its datum, and the text is refused (DESIGN CHOICE, log 27: R115
does not say). -/
def readBelow (bound : Nat) (cs : List Char) : Option Nat :=
  (readNumber cs).bind fun n => if n < bound then some n else none

/-- An integer: a number with an optional minus sign, which R115 gives to `blur` alone. -/
def readInteger : List Char → Option Int
  | '-' :: ds => (readNumber ds).map fun n => -(n : Int)
  | ds => (readNumber ds).map fun n => (n : Int)

/-! ### Floating-point operands -/

/-- `num / den` rounded to the nearest integer, a tie to the even one. -/
def nearestRatio (num den : Nat) : Nat :=
  let q := num / den
  let twice := 2 * (num % den)
  if den < twice ∨ (twice = den ∧ q % 2 = 1) then q + 1 else q

/-- The magnitude, in units of the least subnormal, nearest to `num / den`. -/
def FpFormat.nearestMag (f : FpFormat) (num den : Nat) : Nat :=
  let units := num * 2 ^ f.scale
  let drop := Nat.log2 (units / den) + 1 - f.prec
  nearestRatio units (den * 2 ^ drop) * 2 ^ drop

/-- The bit pattern of a magnitude of the format, with a sign; an infinity beyond the finite range. -/
def FpFormat.encode (f : FpFormat) (neg : Bool) (mag : Nat) : Nat :=
  let sign := neg.toNat * 2 ^ (f.fracBits + f.expBits)
  if f.limit ≤ mag then sign + (2 ^ f.expBits - 1) * 2 ^ f.fracBits
  else if mag < 2 ^ f.fracBits then sign + mag
  else
    let e := Nat.log2 mag - f.fracBits
    sign + (e + 1) * 2 ^ f.fracBits + (mag / 2 ^ e - 2 ^ f.fracBits)

/-- The digits of a decimal literal as one integer, and how many of them follow the point. -/
def readPoint (cs : List Char) : Option (Nat × Nat) :=
  match splitAtChar '.' cs with
  | [ip] => (readDigits 10 ip).map fun n => (n, 0)
  | [ip, fp] => (readDigits 10 (ip ++ fp)).map fun n => (n, fp.length)
  | _ => none

/-- An unsigned decimal literal as a ratio: digits, an optional point, an optional power of ten. -/
def readDecimal (cs : List Char) : Option (Nat × Nat) :=
  match splitAtChar 'e' cs with
  | [m] => (readPoint m).map fun p => (p.1, 10 ^ p.2)
  | [m, x] =>
    match readPoint m, readInteger x with
    | some (n, k), some e => some (n * 10 ^ e.toNat, 10 ^ (k + (-e).toNat))
    | _, _ => none
  | _ => none

/-- A decimal literal as the nearest bit pattern of the format, ties to even. -/
def FpFormat.readLiteral (f : FpFormat) : List Char → Option Nat
  | '-' :: cs => (readDecimal cs).map fun p => f.encode true (f.nearestMag p.1 p.2)
  | cs => (readDecimal cs).map fun p => f.encode false (f.nearestMag p.1 p.2)

/-- A binary32 operand: a literal or `f32:` and a bit pattern, which must fit 32 bits (DESIGN CHOICE, log 27). -/
def readF32 : List Char → Option (BitVec 32)
  | 'f' :: '3' :: '2' :: ':' :: ds => (readBelow (2 ^ 32) ds).map (BitVec.ofNat 32)
  | cs => (binary32.readLiteral cs).map (BitVec.ofNat 32)

/-- A binary64 operand: a literal or `f64:` and a bit pattern, which must fit 64 bits (DESIGN CHOICE, log 27). -/
def readF64 : List Char → Option DWord
  | 'f' :: '6' :: '4' :: ':' :: ds => (readBelow (2 ^ 64) ds).map (BitVec.ofNat 64)
  | cs => (binary64.readLiteral cs).map (BitVec.ofNat 64)

/-! ### Lines -/

/-- The labels defined, each with its address. -/
abbrev Labels := List (List Char × Nat)

/-- An address operand: a number or a label. R115 lets a symbol stand for an address, so a label is read here and in no
other operand (counts, extents, `blur`, data: DESIGN CHOICE, log 27). -/
def readAddr (labels : Labels) (cs : List Char) : Option Word :=
  match readBelow Config.spaceBytes cs with
  | some n => some (BitVec.ofNat 32 n)
  | none => (labels.find? fun p => p.1 == cs && decide (p.2 < Config.spaceBytes)).map fun p => BitVec.ofNat 32 p.2

/-- A command line's command: mnemonic and operands, destination first. -/
def readCommand (ls : Labels) (name : String) (args : List (List Char)) : Option Instr :=
  let addr := readAddr ls
  let count := readBelow (2 ^ 32)
  let extent := readBelow (2 ^ 16)
  match name, args with
  | "HALT", [] => some .halt
  | "RGB2HSV", [d, s, n] => do pure (.rgb2hsv (← addr d) (← addr s) (← count n))
  | "HSV2RGB", [d, s, n] => do pure (.hsv2rgb (← addr d) (← addr s) (← count n))
  | "LERP", [d, a, b, n, t] => do pure (.lerp (← addr d) (← addr a) (← addr b) (← count n) (← readF32 t))
  | "LUTLD", [s] => do pure (.lutld (← addr s))
  | "GAMMA", [d, s, n] => do pure (.gamma (← addr d) (← addr s) (← count n))
  | "RESIZE", [d, dw, dh, s, sw, sh, b, x] => do
    pure (.resize (← addr d) (← extent dw) (← extent dh) (← addr s) (← extent sw) (← extent sh) (← readInteger b) (← addr x))
  | "CONV", [d, s, w, h, k, kw, kh, f, b] => do
    pure (.conv (← addr d) (← addr s) (← extent w) (← extent h) (← addr k) (← extent kw) (← extent kh) (← readF64 f) (← readF64 b))
  | _, _ => none

/-- The low `n` bytes of a number, least significant first. -/
def bytesLE : Nat → Nat → List Byte
  | 0, _ => []
  | n + 1, v => BitVec.ofNat 8 v :: bytesLE n (v / 256)

/-- The bytes of a list of values, each read and laid out alike, in the order written. -/
def emitValues (emit : List Char → Option (List Byte)) : List (List Char) → Option (List Byte)
  | [] => some []
  | v :: vs =>
    match emit v, emitValues emit vs with
    | some bs, some rest => some (bs ++ rest)
    | _, _ => none

/-- The bytes that a directive or a command line emits. `.word`, `.byte` and `.f64` take one value or several between commas,
emitted in the order written: R115 gives them one value `v`, and 95_test_vectors.md writes lists in its programs (DEDUCED from
there, log 27); without a value they are refused (DESIGN CHOICE, log 27). A command's descriptor needs an address that is a multiple of 64. A
number too wide for its datum, or negative where R115 names no sign, emits nothing (DESIGN CHOICE, log 27). -/
def emitLine (ls : Labels) (at' : Nat) (name : String) (args : List (List Char)) : Option (List Byte) :=
  match name, args with
  | ".word", v :: vs => emitValues (fun cs => (readBelow (2 ^ 32) cs).map (bytesLE 4)) (v :: vs)
  | ".byte", v :: vs => emitValues (fun cs => (readBelow (2 ^ 8) cs).map (bytesLE 1)) (v :: vs)
  | ".f64", v :: vs => emitValues (fun cs => (readF64 cs).map fun w => bytesLE 8 w.toNat) (v :: vs)
  | ".pixel", [a, b, c] => do
    pure (wordBytes (pack3 (← readBelow 256 a) (← readBelow 256 b) (← readBelow 256 c)))
  | ".lin", [a, b, c] => do
    pure (bytesLE 2 (← readBelow 65536 a) ++ bytesLE 2 (← readBelow 65536 b) ++ bytesLE 2 (← readBelow 65536 c)
      ++ [0, 0])
  | _, _ =>
    match readCommand ls name args with
    | some i => if i.wellFormed && at' % Config.descBytes == 0 then some (encode i).toBytes else none
    | none => none

/-- A line that emits bytes: neither one that is empty but for a label nor `.org`. -/
def emits (name : String) : Bool :=
  match name with
  | "" => false
  | ".org" => false
  | _ => true

/-- How many bytes a line of this name with `n` operands emits. -/
def lineSize (name : String) (n : Nat) : Nat :=
  match name with
  | "" => 0
  | ".org" => 0
  | ".word" => 4 * n
  | ".byte" => n
  | ".f64" => 8 * n
  | ".pixel" => 4
  | ".lin" => 8
  | _ => Config.descBytes

/-- A line in parts: the label it defines, the name of its directive or command (empty for none), its operands. -/
structure AsmLine where
  label : Option (List Char)
  name : String
  args : List (List Char)
  deriving DecidableEq, Repr

/-- A directive or command line: its first word and, after it, operands between commas. -/
def splitStatement (label : Option (List Char)) (cs : List Char) : AsmLine :=
  let word := cs.takeWhile fun c => c ≠ ' '
  let rest := trimSpaces (cs.dropWhile fun c => c ≠ ' ')
  { label := label
    name := String.ofList word
    args := if rest = [] then [] else (splitAtChar ',' rest).map trimSpaces }

/-- One line of text; what follows a semicolon is a comment. -/
def readLine (cs : List Char) : AsmLine :=
  let body := trimSpaces (cs.takeWhile fun c => c ≠ ';')
  let word := body.takeWhile fun c => c ≠ ' '
  match word.reverse with
  | ':' :: name => splitStatement (some name.reverse) (trimSpaces (body.dropWhile fun c => c ≠ ' '))
  | _ => splitStatement none body

/-- The location counter at a line: `.org` sets it, every other line leaves it. -/
def locationAt (l : AsmLine) (at' : Nat) : Option Nat :=
  match l.name, l.args with
  | ".org", [v] => readBelow Config.spaceBytes v
  | ".org", _ => none
  | _, _ => some at'

/-- First pass: the labels with their addresses. -/
def collectLabels : List AsmLine → Nat → Option Labels
  | [], _ => some []
  | l :: ls, at' =>
    match locationAt l at' with
    | none => none
    | some a => (collectLabels ls (a + lineSize l.name l.args.length)).map fun rest => (l.label.toList.map fun n => (n, a)) ++ rest

/-- Second pass: the bytes of every line with their address, all of them inside the address space (log 27). -/
def emitLines (labels : Labels) : List AsmLine → Nat → Option (List (Nat × List Byte))
  | [], _ => some []
  | l :: ls, at' =>
    match locationAt l at' with
    | none => none
    | some a =>
      if emits l.name then
        match emitLine labels a l.name l.args with
        | none => none
        | some bs =>
          if a + bs.length ≤ Config.spaceBytes then (emitLines labels ls (a + bs.length)).map fun rest => (a, bs) :: rest
          else none
      else emitLines labels ls a

/-- Where the location counter stands before any `.org`: address 0 (DESIGN CHOICE, log 27: R115 does not say). -/
def firstLocation : Nat := 0

/-- The bytes that a program text places in memory, `none` where the text is no program (R115). The location counter
starts at `firstLocation`, a choice of the model (log 27). -/
def assemble (text : List (List Char)) : Option (List (Nat × List Byte)) :=
  let lines := text.map readLine
  (collectLabels lines firstLocation).bind fun labels => emitLines labels lines firstLocation

/-- Memory with an assembled program placed in it. -/
def Memory.withImage (m : Memory) (image : List (Nat × List Byte)) : Memory :=
  image.foldl (fun m p => m.writeBytes p.1 p.2) m

end Sys2Proof.Machine
end

