-- ==== Sys2Proof/Tests/Slice0.lean ====
section
/-! SUPPORT. Tests: ill-formed commands refused, words written out from the encoding tables decoded, one step of each command
against values printed in spec/95_test_vectors.md, and for every obligation with hypotheses a state and operands that
meet them. Each test names its source. -/

namespace Sys2Proof.Tests

open Sys2Proof.Machine

-- One theorem after the other: in parallel, this many kernel evaluations would each hold a thread's stack.
set_option Elab.async false

/-! ### Helpers -/

/-- The outcome is a next state with this property. -/
def gives (o : Host.Outcome State Fault Refusal) (p : State → Bool) : Bool :=
  match o with
  | .next t => p t
  | _ => false

/-- The outcome is an architectural fault of this code and detail that leaves memory and `CP` alone. -/
def faults (s : State) (o : Host.Outcome State Fault Refusal) (code : BitVec 8) (info : Word) : Bool :=
  gives o fun t => t.errCode == code && t.errInfo == info && t.err && !t.busy && t.mem == s.mem && t.cp == s.cp
    && t.errCp == s.cp

/-- Reset, the core running at `0x1000`. -/
def running : State := { State.reset with cp := 0x1000, busy := true }

/-- Words placed in memory from an address on. -/
def putWords (a : Nat) (ws : List Word) (s : State) : State := { s with mem := s.mem.writeBytes a (ws.flatMap wordBytes) }

/-- A command's descriptor placed at an address. -/
def putInstr (a : Nat) (i : Instr) (s : State) : State := { s with mem := s.mem.writeBytes a (encode i).toBytes }

/-- Accesses the platform refuses. -/
def deny (ds : List Denial) (s : State) : State := { s with platform := { s.platform with denied := ds } }

/-- A schedule for the agents. -/
def scheduled (ts : List Turn) (s : State) : State := { s with turns := ts }

/-! ### Well-formedness: each check refuses an ill-formed command and takes the largest value (R103, R108) -/

theorem test_wf_rgb2hsv : (Instr.rgb2hsv 0 0 (2 ^ 32)).wellFormed = false ∧ (Instr.rgb2hsv 0 0 (2 ^ 32 - 1)).wellFormed = true := by
  decide
theorem test_wf_hsv2rgb : (Instr.hsv2rgb 0 0 (2 ^ 32)).wellFormed = false ∧ (Instr.hsv2rgb 0 0 (2 ^ 32 - 1)).wellFormed = true := by
  decide
theorem test_wf_lerp : (Instr.lerp 0 0 0 (2 ^ 32) 0).wellFormed = false ∧ (Instr.lerp 0 0 0 (2 ^ 32 - 1) 0).wellFormed = true := by
  decide
theorem test_wf_gamma : (Instr.gamma 0 0 (2 ^ 32)).wellFormed = false ∧ (Instr.gamma 0 0 (2 ^ 32 - 1)).wellFormed = true := by
  decide
theorem test_wf_resize_extents : (Instr.resize 0 65536 1 0 1 1 0 0).wellFormed = false
    ∧ (Instr.resize 0 1 65536 0 1 1 0 0).wellFormed = false ∧ (Instr.resize 0 1 1 0 65536 1 0 0).wellFormed = false
    ∧ (Instr.resize 0 1 1 0 1 65536 0 0).wellFormed = false
    ∧ (Instr.resize 0 65535 65535 0 65535 65535 0 0).wellFormed = true := by decide
theorem test_wf_resize_blur : (Instr.resize 0 1 1 0 1 1 (2 ^ 31) 0).wellFormed = false
    ∧ (Instr.resize 0 1 1 0 1 1 (-(2 ^ 31) - 1) 0).wellFormed = false
    ∧ (Instr.resize 0 1 1 0 1 1 (2 ^ 31 - 1) 0).wellFormed = true ∧ (Instr.resize 0 1 1 0 1 1 (-(2 ^ 31)) 0).wellFormed = true := by
  decide
theorem test_wf_conv : (Instr.conv 0 0 65536 1 0 1 1 0 0).wellFormed = false ∧ (Instr.conv 0 0 1 65536 0 1 1 0 0).wellFormed = false
    ∧ (Instr.conv 0 0 1 1 0 65536 1 0 0).wellFormed = false ∧ (Instr.conv 0 0 1 1 0 1 65536 0 0).wellFormed = false
    ∧ (Instr.conv 0 0 65535 65535 0 65535 65535 0 0).wellFormed = true := by decide
theorem test_wf_no_numbers : Instr.halt.wellFormed = true ∧ (Instr.lutld 0xFFFFFFFF).wellFormed = true := by decide

/-! ### Decoding: words written out from the formats R104 to R109 -/

/-- Format Z (R104), opcode map R110. -/
theorem test_decode_halt : decode ⟨0x01, 0, 0, 0, 0, 0, 0, 0, 0, 0, 0, 0, 0, 0, 0, 0⟩ = .ok .halt := by decide
/-- Format P (R105): W1 SRC, W2 DST, W4 COUNT; program P1. -/
theorem test_decode_rgb2hsv : decode ⟨0x10, 0x2000, 0x2100, 0, 4, 0, 0, 0, 0, 0, 0, 0, 0, 0, 0, 0⟩
    = .ok (.rgb2hsv 0x2100 0x2000 4) := by decide
theorem test_decode_hsv2rgb : decode ⟨0x11, 0x2100, 0x2200, 0, 4, 0, 0, 0, 0, 0, 0, 0, 0, 0, 0, 0⟩
    = .ok (.hsv2rgb 0x2200 0x2100 4) := by decide
/-- Format L (R106): W3 AUX, W6 T; program P2. -/
theorem test_decode_lerp : decode ⟨0x12, 0x3100, 0x3200, 0x3180, 2, 0, 0x40000000, 0, 0, 0, 0, 0, 0, 0, 0, 0⟩
    = .ok (.lerp 0x3200 0x3100 0x3180 2 0x40000000) := by decide
/-- Format T (R107); program P2. -/
theorem test_decode_lutld : decode ⟨0x20, 0x4000, 0, 0, 0, 0, 0, 0, 0, 0, 0, 0, 0, 0, 0, 0⟩ = .ok (.lutld 0x4000) := by decide
theorem test_decode_gamma : decode ⟨0x21, 0x3000, 0x3100, 0, 2, 0, 0, 0, 0, 0, 0, 0, 0, 0, 0, 0⟩
    = .ok (.gamma 0x3100 0x3000 2) := by decide
/-- Format R (R108): W4 source extents, W5 destination extents (width in 15:0), W6 BLUR signed. -/
theorem test_decode_resize : decode ⟨0x30, 0x5000, 0x5100, 0x5200, 0x00030002, 0x00060004, 0xFFFFFFFE, 0, 0, 0, 0, 0, 0, 0, 0, 0⟩
    = .ok (.resize 0x5100 4 6 0x5000 2 3 (-2) 0x5200) := by decide
/-- Format C (R109): W4 image extents, W5 kernel extents, W8, W9 FACTOR low and high, W10, W11 BIAS; after program P4. -/
theorem test_decode_conv :
    decode ⟨0x40, 0x6000, 0x6100, 0x6400, 0x00070006, 0x00030005, 0, 0, 0x13B13B14, 0x3FB3B13B, 1, 0x40000000, 0, 0, 0, 0⟩
    = .ok (.conv 0x6100 0x6000 6 7 0x6400 5 3 0x3FB3B13B13B13B14 0x4000000000000001) := by decide

/-- R111: an opcode outside the map and a set bit in `W0[31:8]` are illegal. -/
theorem test_decode_illegal : decode ⟨0xFF, 0, 0, 0, 0, 0, 0, 0, 0, 0, 0, 0, 0, 0, 0, 0⟩ = .error (.illegalOpcode 0xFF)
    ∧ decode ⟨0x101, 0, 0, 0, 0, 0, 0, 0, 0, 0, 0, 0, 0, 0, 0, 0⟩ = .error (.illegalOpcode 0x101) := by decide
/-- R112: the lowest non-zero reserved word is reported; an ignored word is not examined. -/
theorem test_decode_reserved : decode ⟨0x10, 0, 0, 0, 0, 0, 0, 1, 0, 0, 0, 0, 0, 0, 0, 1⟩ = .error (.reservedField 7)
    ∧ decode ⟨0x20, 0, 0, 1, 0, 0, 0, 0, 0, 0, 0, 0, 0, 0, 0, 0⟩ = .error (.reservedField 3) := by decide

/-- The opcode table's numbering: `W0` in bits 31:0, `W1` in bits 63:32. -/
theorem test_tableWord : decodeTableWord 64 (0x0000400000000020) = some (.lutld 0x4000) := by decide +kernel

/-- Bytes beyond a descriptor are left for the next one; fewer than 64 are no descriptor. -/
theorem test_decodeBytes : decodeBytes ((encode .halt).toBytes ++ [7]) = .ok (.halt, [7])
    ∧ decodeBytes ((encode .halt).toBytes.take 63) = .error .truncated := by decide +kernel

/-- Every opcode of the map has a distinct header. -/
theorem test_opcodes_distinct : (opcodeTable.map fun row => row.1).Pairwise (· ≠ ·) ∧ opcodeTable.length = 8
    ∧ opcodeTable.map (fun row => row.1) = legalHeaders := by decide

/-! ### Memory, words, floating point -/

/-- Little-endian (R70): the least significant byte at the lowest address. -/
theorem test_little_endian : ((Memory.write32 [] 8 0x44332211).read 8, (Memory.write32 [] 8 0x44332211).read 11) = (0x11, 0x44) := by
  decide
/-- Writing the byte an unlisted address reads as removes the entry. -/
theorem test_canonical : ((Memory.write [] 5 1).write 5 0, (Memory.write (Memory.write [] 9 2) 4 1)) = ([], [(4, 1), (9, 2)]) := by
  decide
/-- Overlap and range of regions (R13). -/
theorem test_regions : Region.overlaps ⟨0, 4⟩ ⟨4, 4⟩ = false ∧ Region.overlaps ⟨0, 5⟩ ⟨4, 4⟩ = true
    ∧ Region.overlaps ⟨4, 0⟩ ⟨0, 9⟩ = false ∧ Region.inRange ⟨0xFFFFFFFC, 4⟩ = true ∧ Region.inRange ⟨0xFFFFFFFC, 5⟩ = false := by
  decide
/-- Section 2.7 row "largest below 0.5": the sum is rounded in binary64 before `rha`. -/
theorem test_round_once : outChan (.fin false 0) (binary64.ofNat 1) (binary64.decode 0x3FDFFFFFFFFFFFFF) = some 0
    ∧ outChan (binary64.ofNat 1) (binary64.ofNat 1) (binary64.decode 0x3FDFFFFFFFFFFFFF) = some 2 := by decide +kernel
/-- Section 2.3: a NaN and an infinity store 0 and mark; 510 saturates; 1.5 truncates. -/
theorem test_lerp_corners : lerpChan 7 200 (binary32.decode 0x7FC00000) = (0, true)
    ∧ lerpChan 5 5 (binary32.decode 0x7F800000) = (0, true) ∧ lerpChan 0 255 (binary32.decode 0x40000000) = (255, true)
    ∧ lerpChan 1 0 (binary32.decode 0xBF000000) = (1, false) := by decide +kernel
/-- Section 1.2: just below 3 truncates; `1 - t` rounds to `-2^30`. -/
theorem test_lerp_rounding : lerpChan 3 3 (binary32.decode 0x391D4952) = (2, false)
    ∧ lerpChan 3 3 (binary32.decode 0x4E800000) = (0, false) := by decide +kernel
/-- The example of R163: index of a 16-bit code for `L = 8`, 12 and 16. -/
theorem test_lut_index : lutIndex 8 0x1200 = 0x12 ∧ lutIndex 12 0x1234 = 0x123 ∧ lutIndex 16 0x1234 = 0x1234 := by decide
/-- R183, R184: strides, replication, the forbidden case. -/
theorem test_axes : axisSource 4 2 1 = 2 ∧ axisSource 2 4 3 = 1 ∧ axisSource 5 3 2 = 2 ∧ axisSource 2 3 2 = 2
    ∧ badUpsample 2 3 = true ∧ badUpsample 2 4 = false := by decide
/-- R202 at the corner of a 6 x 6 image. -/
theorem test_wrap : wrap (-1) 6 = 5 ∧ wrap (-6) 6 = 0 ∧ wrap 7 6 = 1 := by decide

/-! ### One step of each command -/

/-- R136: the example of HALT. -/
theorem test_step_halt : gives (step (putInstr 0x1000 .halt running)) (fun t =>
    t.statusWord == 2 && t.cp == 0x1000 && t.mem == (putInstr 0x1000 .halt running).mem) = true := by decide +kernel

/-- The example of R144. -/
theorem test_rgb2hsv : gives (exec (.rgb2hsv 0x2100 0x2000 1) (putWords 0x2000 [0xFF3264C8] running))
    (fun t => t.mem.pix 0x2100 0 == 0x00C8BF0E && t.cp == 0x1040) = true := by decide +kernel
/-- In place (R86), the second element too; pure green of R147. -/
theorem test_rgb2hsv_in_place : gives (exec (.rgb2hsv 0x2000 0x2000 2) (putWords 0x2000 [0x003264C8, 0x0000FF00] running))
    (fun t => t.mem.pix 0x2000 0 == 0x00C8BF0E && t.mem.pix 0x2000 1 == 0x00FFFF55) = true := by decide +kernel

/-- Section 1.1: hue 213 comes back as (246, 0, 255); `s = 0` gives grey whatever the hue (R149). -/
theorem test_hsv2rgb : gives (exec (.hsv2rgb 0x2200 0x2100 2) (putWords 0x2100 [0x00FFFFD5, 0xAB070007] running))
    (fun t => t.mem.pix 0x2200 0 == 0x00FF00F6 && t.mem.pix 0x2200 1 == 0x00070707) = true := by decide +kernel

/-- The example of R142. -/
theorem test_lerp : gives (exec (.lerp 0x3200 0x3100 0x3180 1 0x3F000000)
    (putWords 0x3180 [0x000AFF00] (putWords 0x3100 [0x003264C8] running)))
    (fun t => t.mem.pix 0x3200 0 == 0x001EB164 && !t.oor) = true := by decide +kernel
/-- Program P2, `t = 2`: saturation sets OOR. -/
theorem test_lerp_oor : gives (exec (.lerp 0x3200 0x3100 0x3180 1 0x40000000)
    (putWords 0x3180 [0x000000FF] (putWords 0x3100 [0] running)))
    (fun t => t.mem.pix 0x3200 0 == 0x000000FF && t.oor) = true := by decide +kernel

/-- R160: the table is the image, `LUTV` is set; a zero byte of the image is a zero entry. -/
theorem test_lutld : gives (exec (.lutld 0x4000) (putWords 0x4000 [0x1C160D00] running))
    (fun t => t.lutv && t.lut.getD 1 0 == 0x0D && t.lut.getD 3 0 == 0x1C && t.lut.length == 256 && t.mem.read 0x4001 == 0x0D)
    = true := by decide +kernel

/-- The example of R163, with three entries of its table. -/
theorem test_gamma : gives (exec (.gamma 0x3100 0x3000 1)
    { putWords 0x3000 [0xFFFF8000, 0x00001200] running with
      lutv := true
      lut := (((List.replicate 256 (0 : Byte)).set 0x80 0xBC).set 0xFF 0xFF).set 0x12 0x4B })
    (fun t => t.mem.pix 0x3100 0 == 0x004BFFBC) = true := by decide +kernel
/-- R163: LUT_INVALID even when there is nothing to convert. -/
theorem test_gamma_invalid : faults running (exec (.gamma 0x3100 0x3000 0) running) 0x18 0 = true := by decide +kernel

/-- The example of R180: the destination takes source indices 0, 2, 8, 10, whole words. -/
theorem test_resize : gives (exec (.resize 0x5100 2 2 0x5000 4 4 0 0)
    (putWords 0x5000 ((List.range 16).map fun k => BitVec.ofNat 32 (0xA0030201 + k)) running))
    (fun t => t.mem.pix 0x5100 0 == 0xA0030201 && t.mem.pix 0x5100 1 == 0xA0030203 && t.mem.pix 0x5100 2 == 0xA0030209
      && t.mem.pix 0x5100 3 == 0xA003020B) = true := by decide +kernel
/-- Section 1.4: the blur of a solid colour is that colour, the unused byte 0. -/
theorem test_resize_blur : (blurJob 0x5100 2 2 0x5200).pixel
    (putWords 0x5200 [0x773264C8, 0x773264C8, 0x773264C8, 0x773264C8] running).mem 1 0 = some 0x003264C8 := by decide +kernel

/-- Section 1.5: the 1x1 identity kernel, in place. -/
theorem test_conv_identity : gives (exec (.conv 0x6000 0x6000 2 1 0x6400 1 1 0x3FF0000000000000 0)
    (putWords 0x6400 [0, 0x3FF00000] (putWords 0x6000 [0xAB030201, 0x008000FF] running)))
    (fun t => t.mem.pix 0x6000 0 == 0x00030201 && t.mem.pix 0x6000 1 == 0x008000FF) = true := by decide +kernel
/-- R202, R204: with the 3x1 kernel (1, 0, 0) each pixel takes its left neighbour, wrapped. -/
theorem test_conv_wrap : gives (exec (.conv 0x6100 0x6000 3 1 0x6400 3 1 0x3FF0000000000000 0)
    (putWords 0x6400 [0, 0x3FF00000] (putWords 0x6000 [1, 2, 3] running)))
    (fun t => t.mem.pix 0x6100 0 == 3 && t.mem.pix 0x6100 1 == 1 && t.mem.pix 0x6100 2 == 2) = true := by decide +kernel

/-! ### Faults, the host (section 2.9, 2.10) -/

/-- R248: the second START after CLRERR fetches the same descriptor again. -/
theorem test_resume : gives (core.run 3 (scheduled [.core, .regWrite 0x08 4 5, .core] running))
    (fun t => t.errCode == 0x01 && t.errCp == 0x1000 && t.errInfo == 0) = true := by decide +kernel
/-- R37: START is ignored while an error is pending. -/
theorem test_start_pending : gives (step (scheduled [.regWrite 0x08 4 1] { State.reset with err := true, errCode := 1 }))
    (fun t => !t.busy && t.err) = true := by decide +kernel
/-- R255: enabling an interrupt whose cause is pending raises the line at once. -/
theorem test_irq : gives (step (scheduled [.regWrite 0x14 4 3] { State.reset with done := true }))
    (fun t => t.irq && t.irqEnWord == 3) = true := by decide +kernel
/-- R36: `CONFIG` with `L = 8`. -/
theorem test_config : State.reset.readReg 0x04 = 0x00010A08 := by decide
/-- A host write of two byte lanes. -/
theorem test_host_lanes : gives (step (scheduled [.memWrite 0x102 0b0110#4 0x44332211] State.reset))
    (fun t => t.mem.read32 0x100 == 0x00332200) = true := by decide +kernel
/-- A list as the host runs it: CP, START, two steps, DONE (R135). -/
theorem test_list : gives (core.run 4 (scheduled [.regWrite 0x10 4 0x1000, .regWrite 0x08 4 1, .core, .core]
    (putInstr 0x1040 .halt (putInstr 0x1000 (.rgb2hsv 0x2000 0x2000 1) State.reset)))) (fun t => decide (endedNormally t))
    = true := by decide +kernel
/-- A descriptor that reads as all zeros is ILLEGAL_OPCODE (R111). -/
theorem test_zero_memory : faults running (step running) 0x01 0 = true := by decide +kernel

/-- R115: a line of text and a directive. -/
theorem test_assemble : (assemble ["  .org 0x1000".toList, "a: LUTLD a ; comment".toList, ".pixel 200, 100, 50".toList]).map
    (fun l => l.map fun p => (p.1, p.2.length, p.2.getD 0 0, p.2.getD 5 0)) = some [(0x1000, 64, 0x20, 0x10), (0x1040, 4, 200, 0)] := by
  decide +kernel
/-- Section 2.7: 1e300 and -10.0 as binary64; `0.1` as binary32 (section 1.2). -/
theorem test_literals : binary64.readLiteral "1e300".toList = some 0x7E37E43C8800759C
    ∧ binary64.readLiteral "-10.0".toList = some 0xC024000000000000 ∧ binary32.readLiteral "0.1".toList = some 0x3DCCCCCD := by
  decide +kernel
/-- R115 and log 27: a bit pattern as written; one too wide, a datum too wide or negative, and a label as a count are refused. -/
theorem test_assemble_refuses : readF32 "f32:0x391D4952".toList = some 0x391D4952 ∧ readF32 "f32:0x100000000".toList = none
    ∧ assemble [".byte 0xfF".toList] = some [(0, [0xFF])] ∧ assemble [".byte 256".toList] = none
    ∧ assemble [".word -1".toList] = none ∧ assemble ["a: RGB2HSV a, a, a".toList] = none := by decide +kernel
/-- The lists of values of P2 and P7 in 95_test_vectors.md, with a label after one; a directive without a value is refused. -/
theorem test_assemble_lists : assemble [".byte 0x00,0x00, 0xFF,0x3F, 0x00,0x40, 0xEE,0xEE".toList]
      = some [(0, [0x00, 0x00, 0xFF, 0x3F, 0x00, 0x40, 0xEE, 0xEE])]
    ∧ assemble [".f64 0,-1,0".toList]
      = some [(0, List.replicate 8 0 ++ [0, 0, 0, 0, 0, 0, 0xF0, 0xBF] ++ List.replicate 8 0)]
    ∧ (assemble [".word 1,2,3, 4".toList, ".org 0x40".toList, "LUTLD a".toList, ".word 5, 6".toList, "a:".toList]).map
      (fun l => l.map fun p => (p.1, p.2.take 8))
      = some [(0, [1, 0, 0, 0, 2, 0, 0, 0]), (0x40, [0x20, 0, 0, 0, 0x88, 0, 0, 0]), (0x80, [5, 0, 0, 0, 6, 0, 0, 0])]
    ∧ assemble [".word".toList] = none ∧ assemble [".byte 1,".toList] = none := by decide +kernel
/-- R90, R290: the first command copies a descriptor over the next one, so the region of the command it will become is the
running list's too; an address that no command of the list touches is free to the host. -/
def rewriting : State :=
  putInstr 0x2000 (.rgb2hsv 0x3000 0x3000 1) (putInstr 0x1000 (.resize 0x1040 16 1 0x2000 16 1 0 0) running)
theorem test_host_write_ahead :
    (match step (scheduled [.memWrite 0x3000 0xF#4 1] rewriting) with | .refused r => r == .hostWriteInFlight 0x3000 | _ => false)
      = true
    ∧ gives (step (scheduled [.memWrite 0x3004 0xF#4 1] rewriting)) (fun t => t.mem.read32 0x3004 == 1) = true := by
  decide +kernel

/-! ### Witnesses: for each obligation with hypotheses, a state and operands that meet them -/

theorem witness_DecodeOfEncodeIsTheCommand : (Instr.resize 0xFFFFFFFF 65535 0 0 0 65535 (-(2 ^ 31)) 0xFFFFFFFF).wellFormed = true
    ∧ (Instr.conv 0 0xFFFFFFFF 65535 0 0 0 65535 0xFFFFFFFFFFFFFFFF 0).wellFormed = true := by decide
theorem witness_DecodedCommandEncodesBack : decode (encode (.lerp 0xFFFFFFFF 1 2 0xFFFFFFFF 0x7FC00000))
    = .ok (.lerp 0xFFFFFFFF 1 2 0xFFFFFFFF 0x7FC00000) := by decide +kernel

/-- An illegal header with every bit above the opcode zero, and a legal header with a reserved word set. -/
theorem witness_IllegalHeaderFaults :
    (running.turns = [] ∧ running.busy = true ∧ fetch running = .ok (running.mem.descAt 0x1000)
      ∧ (running.mem.descAt 0x1000).w0 ∉ legalHeaders)
    ∧ fetch (putWords 0x1000 [1, 1] running) = .ok ((putWords 0x1000 [1, 1] running).mem.descAt 0x1000)
    ∧ ((putWords 0x1000 [1, 1] running).mem.descAt 0x1000).w0 ∈ legalHeaders := by decide +kernel
/-- The last reserved word alone; no reserved word. -/
theorem witness_ReservedWordFaults :
    (let s := putWords 0x103C [1] (putWords 0x1000 [1] running)
     fetch s = .ok (s.mem.descAt 0x1000) ∧ (s.mem.descAt 0x1000).w0 = Opcode.halt.header ∧ 15 ∈ reservedIndices .halt
       ∧ (s.mem.descAt 0x1000).words.getD 15 0 ≠ 0
       ∧ ∀ j ∈ reservedIndices .halt, j < 15 → (s.mem.descAt 0x1000).words.getD j 0 = 0)
    ∧ (let s := putWords 0x1000 [1] running
       fetch s = .ok (s.mem.descAt 0x1000) ∧ ∀ k ∈ reservedIndices .halt, (s.mem.descAt 0x1000).words.getD k 0 = 0) := by
  decide +kernel
/-- `CP` one past a descriptor; the last word refused and no earlier one; nothing refused, in the last slot. -/
theorem witness_FetchFollowsItsRule :
    ({ running with cp := 0x1001 } : State).cp.toNat % 64 ≠ 0
    ∧ (let s := deny [⟨.fetch, 4, 0x103C, 0x103C⟩] running
       s.turns = [] ∧ s.busy = true ∧ s.cp.toNat % 64 = 0 ∧ s.platform.memOk ⟨.fetch, s.cp.toNat + 4 * 15, 4⟩ = false
         ∧ ∀ j < 15, s.platform.memOk ⟨.fetch, s.cp.toNat + 4 * j, 4⟩ = true)
    ∧ (let s := { running with cp := 0xFFFFFFC0 }
       s.cp.toNat % 64 = 0 ∧ ∀ k < 16, s.platform.memOk ⟨.fetch, s.cp.toNat + 4 * k, 4⟩ = true) := by decide +kernel
theorem witness_StepRunsTheDecodedCommand :
    let s := putInstr 0x1000 (.lutld 0x4000) running
    s.busy = true ∧ s.cp.toNat % 64 = 0 ∧ s.allows (fetchAccesses s.cp.toNat) ∧ s.turns = []
      ∧ decode (s.mem.descAt s.cp.toNat) = .ok (.lutld 0x4000) ∧ (scheduled [.core] s).turns = .core :: [] := by decide +kernel
theorem witness_PlacedWordIsRunNext : decodeTableWord 512 0x0000400000000020 = some (.lutld 0x4000)
    ∧ decodeTableWord 32 1 = some .halt := by decide +kernel
theorem witness_StoppedCoreDoesNothing : State.reset.busy = false ∧ State.reset.turns = []
    ∧ (scheduled [.core, .rst] State.reset).turns = .core :: [.rst] := by decide
theorem witness_LastSlotTakesOnlyHalt : ({ running with cp := 0xFFFFFFC0 } : State).cp = 0xFFFFFFC0
    ∧ Instr.lutld 0 ≠ .halt := by decide
/-- A running core and a stopped one. -/
theorem witness_EveryCommandTakesANextState : running.turns = [] ∧ gives (step running) (fun t => t.err) = true
    ∧ State.reset.turns = [] ∧ gives (step State.reset) (fun t => !t.busy) = true
    ∧ gives (exec .halt running) (fun t => t.done) = true := by decide +kernel
/-- A command that completes and one that faults. -/
theorem witness_EveryCommandCompletesOrFaults :
    gives (exec (.rgb2hsv 0x2000 0x2000 0) running) (fun t => t.cp == 0x1040) = true
    ∧ gives (exec (.rgb2hsv 0x2000 0x2001 0) running) (fun t => t.err) = true ∧ Instr.rgb2hsv 0x2000 0x2000 0 ≠ .halt := by
  decide +kernel
theorem witness_RaiseRecordsTheFault : running.turns = [] := by decide
/-- A misaligned `CP`; a descriptor of zeros; a command that validation refuses. -/
theorem witness_PreciseFaultsChangeNothingElse : running.turns = [] ∧ running.busy = true
    ∧ fetch { running with cp := 0x1004 } = .error ⟨.fetchAlign, 0x1004⟩
    ∧ fetch running = .ok (running.mem.descAt 0x1000) ∧ decode (running.mem.descAt 0x1000) = .error (.illegalOpcode 0)
    ∧ fetch (putInstr 0x1000 (.gamma 0 4 0) running) = .ok (encode (.gamma 0 4 0))
    ∧ decode (encode (.gamma 0 4 0)) = .ok (.gamma 0 4 0)
    ∧ validate (putInstr 0x1000 (.gamma 0 4 0) running) (.gamma 0 4 0) = some ⟨.align, 4⟩ := by decide +kernel
/-- Each of the three addresses as the first misaligned one; the scratch of a blurring RESIZE; a kernel and a record that are
multiples of 4 only. -/
theorem witness_MisalignedAddressFaultsFirst : running.cp ≠ 0xFFFFFFC0
    ∧ (alignedAddresses (.lerp 2 1 3 0 0) = [] ++ (1, 4) :: [(2, 4), (3, 4)] ∧ (1 : Word).toNat % 4 ≠ 0)
    ∧ (alignedAddresses (.lerp 2 4 3 0 0) = [(4, 4)] ++ (2, 4) :: [(3, 4)] ∧ (4 : Word).toNat % 4 = 0 ∧ (2 : Word).toNat % 4 ≠ 0)
    ∧ (alignedAddresses (.lerp 8 4 3 0 0) = [(4, 4), (8, 4)] ++ (3, 4) :: [] ∧ (8 : Word).toNat % 4 = 0 ∧ (3 : Word).toNat % 4 ≠ 0)
    ∧ alignedAddresses (.resize 8 1 1 4 1 1 1 3) = [(4, 4), (8, 4)] ++ (3, 4) :: []
    ∧ alignedAddresses (.resize 8 1 1 4 1 1 0 3) = [(4, 4), (8, 4)]
    ∧ (alignedAddresses (.conv 8 4 1 1 12 1 1 0 0) = [(4, 4), (8, 4)] ++ (12, 8) :: [] ∧ (12 : Word).toNat % 8 ≠ 0)
    ∧ (alignedAddresses (.gamma 8 12 1) = [] ++ (12, 8) :: [(8, 4)]) := by decide
/-- No element, and one record in the last eight bytes of memory. -/
theorem witness_GammaNeedsALoadedTable : running.lutv = false ∧ running.cp ≠ 0xFFFFFFC0 ∧ (0xFFFFFFF8 : Word).toNat % 8 = 0
    ∧ (0 : Word).toNat % 4 = 0 ∧ (0xFFFFFFF8 : Word).toNat + 8 * 1 ≤ 2 ^ 32 ∧ (0 : Word).toNat + 4 * 1 ≤ 2 ^ 32
    ∧ (recRegion 0xFFFFFFF8 1).overlaps (pixRegion 0 1) = false ∧ (recRegion 0 0).overlaps (pixRegion 0 0) = false := by
  decide +kernel

/-- A 2 x 2 image, a 2 x 1 kernel at the top of memory. -/
theorem legal_conv (s : State) (h : s.cp = 0x1000) : ConvLegal s 0x6100 0x6000 2 2 0xFFFFFFF0 2 1 := by
  constructor <;> first | decide | (rw [h]; decide)
/-- Factor infinite; bias a NaN; the second weight refused, or an infinity, the first finite (zero). -/
theorem witness_NonfiniteChecksInOrder :
    ConvLegal running 0x6100 0x6000 2 2 0xFFFFFFF0 2 1 ∧ ¬finiteBits 0x7FF0000000000000 ∧ finiteBits 0x7FEFFFFFFFFFFFFF
    ∧ ¬finiteBits 0x7FF8000000000001 ∧ finiteBits 0
    ∧ (let s := deny [⟨.read, 8, 0xFFFFFFF8, 0xFFFFFFF8⟩] running
       ConvLegal s 0x6100 0x6000 2 2 0xFFFFFFF0 2 1 ∧ s.platform.memOk (readRec 0xFFFFFFF0 1) = false
         ∧ ∀ j < 1, s.platform.memOk (readRec 0xFFFFFFF0 j) = true ∧ finiteBits (s.mem.read64 (recAddr 0xFFFFFFF0 j)))
    ∧ (let s := putWords 0xFFFFFFF8 [0, 0xFFF00000] running
       ConvLegal s 0x6100 0x6000 2 2 0xFFFFFFF0 2 1 ∧ s.platform.memOk (readRec 0xFFFFFFF0 1) = true
         ∧ ¬finiteBits (s.mem.read64 (recAddr 0xFFFFFFF0 1)) ∧ finiteBits (s.mem.read64 (recAddr 0xFFFFFFF0 0))) :=
  ⟨legal_conv _ rfl, by decide +kernel, by decide +kernel, by decide +kernel, by decide +kernel,
    ⟨legal_conv _ rfl, by decide +kernel, by decide +kernel⟩,
    ⟨legal_conv _ rfl, by decide +kernel, by decide +kernel, by decide +kernel⟩⟩
/-- Each extent zero, the ones before it not; 1025 elements; a kernel 4 wide on an image 1 wide; a kernel 4 high on an image 1
high, which 3 halves would fit. -/
theorem witness_KernelGeometryIsChecked : running.cp ≠ 0xFFFFFFC0 ∧ (0x6000 : Word).toNat % 4 = 0
    ∧ (0x6100 : Word).toNat % 4 = 0 ∧ (0x6400 : Word).toNat % 8 = 0
    ∧ [0, 0, 0, 0].getD 0 0 = 0 ∧ ([1, 0, 0, 0].getD 1 0 = 0 ∧ ∀ j < 1, [1, 0, 0, 0].getD j 0 ≠ 0)
    ∧ ([1, 1, 0, 1].getD 2 0 = 0 ∧ ∀ j < 2, [1, 1, 0, 1].getD j 0 ≠ 0)
    ∧ ([1, 1, 1, 0].getD 3 0 = 0 ∧ ∀ j < 3, [1, 1, 1, 0].getD j 0 ≠ 0)
    ∧ 1 ≤ 1 ∧ 1 ≤ 41 ∧ 1 ≤ 25 ∧ 1024 < 41 * 25
    ∧ (1 ≤ 4 ∧ 4 * 1 ≤ 1024 ∧ 1 < 4 / 2) ∧ (1 * 4 ≤ 1024 ∧ 1 / 2 ≤ 1 ∧ 1 < 4 / 2) ∧ ¬1 < 3 / 2 ∧ ¬1024 < 32 * 32 := by decide
/-- Each extent zero alone; `2` to `3` on either axis; a blur without scratch, of width 1, of height 1. -/
theorem witness_ResizeChecksItsOperands : running.cp ≠ 0xFFFFFFC0 ∧ (0x5000 : Word).toNat % 4 = 0
    ∧ (0x5100 : Word).toNat % 4 = 0 ∧ ((0 : Int) < 1 → (0x5200 : Word).toNat % 4 = 0) ∧ ((0 : Int) < 1 → (0 : Word).toNat % 4 = 0)
    ∧ [0, 0, 0, 0].getD 0 0 = 0 ∧ ([1, 0, 1, 1].getD 1 0 = 0 ∧ ∀ j < 1, [1, 0, 1, 1].getD j 0 ≠ 0)
    ∧ ([1, 1, 0, 1].getD 2 0 = 0 ∧ ∀ j < 2, [1, 1, 0, 1].getD j 0 ≠ 0)
    ∧ ([1, 1, 1, 0].getD 3 0 = 0 ∧ ∀ j < 3, [1, 1, 1, 0].getD j 0 ≠ 0)
    ∧ (1 ≤ 2 ∧ 1 ≤ 3 ∧ 2 ≤ 3 ∧ 3 % 2 ≠ 0) ∧ (2 ≤ 2 → 2 % 2 = 0)
    ∧ ((0 : Int) < 1 ∧ legalAxis 1 1 ∧ legalAxis 5 2 ∧ (0x5200 : Word) ≠ 0 ∧ 1 < 2 ∧ 2 ≤ 2) := by decide
/-- A refused pixel, a refused byte of a table image, a refused tap of a convolution. -/
theorem witness_RefusedAccessIsBus :
    (let s := deny [⟨.write, 4, 0x2104, 0x2104⟩] running
     validate s (.rgb2hsv 0x2100 0x2000 2) = none
       ∧ ∃ a ∈ accessesOf s.platform.lutAddrBits (.rgb2hsv 0x2100 0x2000 2), s.platform.memOk a = false)
    ∧ (let s := deny [⟨.read, 1, 0x40FF, 0x40FF⟩] running
       validate s (.lutld 0x4000) = none ∧ ∃ a ∈ accessesOf s.platform.lutAddrBits (.lutld 0x4000), s.platform.memOk a = false)
    ∧ (let s := deny [⟨.read, 4, 0x6000, 0x6000⟩] running
       validate s (.conv 0x6100 0x6000 1 1 0x6400 1 1 0 0) = none
         ∧ (∃ a ∈ accessesOf s.platform.lutAddrBits (.conv 0x6100 0x6000 1 1 0x6400 1 1 0 0), s.platform.memOk a = false)
         ∧ ((convJob s.mem 0x6100 0x6000 1 1 0x6400 1 1 0 0).pixel s.mem 0 0).isSome = true) := by decide +kernel

/-- The reset state is consistent and a step of it answers a next state; so does a step of a running one. -/
theorem witness_StepKeepsRegistersConsistent : State.reset.consistent ∧ gives (step State.reset) (fun _ => true) = true
    ∧ running.consistent ∧ gives (step (putInstr 0x1000 .halt running)) (fun t => t.done) = true := by decide +kernel
theorem witness_StepKeepsMemoryCanonical : (putWords 0x2000 [0xFF3264C8] running).mem.wf
    ∧ gives (step (putInstr 0x1000 (.rgb2hsv 0x2000 0x2000 1) (putWords 0x2000 [0xFF3264C8] running)))
      (fun t => t.mem.pix 0x2000 0 == 0x00C8BF0E) = true := by decide +kernel
theorem witness_StepKeepsMemoryInSpace : (putWords 0xFFFFFFFC [0xFF3264C8] running).mem.inSpace
    ∧ gives (step (putInstr 0x1000 (.rgb2hsv 0xFFFFFFFC 0xFFFFFFFC 1) (putWords 0xFFFFFFFC [0xFF3264C8] running)))
      (fun t => t.mem.pix 0xFFFFFFFC 0 == 0x00C8BF0E) = true := by decide +kernel
theorem witness_CommandsWriteOnlyTheirRegions : gives (exec (.hsv2rgb 0x2000 0x2000 1) (putWords 0x2000 [5] running))
    (fun t => t.mem == [] && t.cp == 0x1040) = true := by decide +kernel
theorem witness_CommandsLeaveOtherRegistersAlone : gives (exec (.lerp 0x2000 0x2000 0x2000 1 0) { running with oor := true })
    (fun t => t.oor && t.cp == 0x1040) = true ∧ (∀ src, Instr.lerp 0x2000 0x2000 0x2000 1 0 ≠ .lutld src) :=
  ⟨by decide +kernel, by simp⟩
theorem witness_AccessesStayInTheRegions : validate running (.resize 0x5100 2 2 0x5000 4 4 1 0x5200) = none
    ∧ writePix 0x5200 3 ∈ accessesOf 8 (.resize 0x5100 2 2 0x5000 4 4 1 0x5200)
    ∧ readPix 0x5000 10 ∈ accessesOf 8 (.resize 0x5100 2 2 0x5000 4 4 1 0x5200) := by decide +kernel
/-- Two states that differ in other registers. -/
theorem witness_CompletionIsDeterministic :
    let s := putWords 0x2000 [0xFF3264C8] running
    let s' := { s with doneIe := true, errCp := 5, freeCount := 9 }
    s.mem = s'.mem ∧ s.lut = s'.lut ∧ s.cp = s'.cp ∧ s.platform = s'.platform ∧ s.err = false ∧ s'.err = false
      ∧ gives (exec (.rgb2hsv 0x2100 0x2000 1) s) (fun t => !t.err) = true
      ∧ gives (exec (.rgb2hsv 0x2100 0x2000 1) s') (fun t => !t.err) = true := by decide +kernel

/-- In place in the last word of memory; disjoint. -/
theorem witness_Rgb2hsvConvertsEveryPixel : running.cp ≠ 0xFFFFFFC0 ∧ (0xFFFFFFFC : Word).toNat % 4 = 0
    ∧ (0xFFFFFFFC : Word).toNat + 4 * 1 ≤ 2 ^ 32 ∧ apart 0xFFFFFFFC 0xFFFFFFFC (pixRegion 0xFFFFFFFC 1) (pixRegion 0xFFFFFFFC 1)
    ∧ running.allows (pixelStreamAccesses 0xFFFFFFFC 0xFFFFFFFC 1) := by decide +kernel
theorem witness_Hsv2rgbConvertsEveryPixel : running.cp ≠ 0xFFFFFFC0 ∧ (0x2000 : Word).toNat % 4 = 0 ∧ (0x2008 : Word).toNat % 4 = 0
    ∧ (0x2000 : Word).toNat + 4 * 2 ≤ 2 ^ 32 ∧ (0x2008 : Word).toNat + 4 * 2 ≤ 2 ^ 32
    ∧ apart 0x2000 0x2008 (pixRegion 0x2000 2) (pixRegion 0x2008 2) ∧ running.allows (pixelStreamAccesses 0x2008 0x2000 2) := by
  decide +kernel
/-- One source in place, the other disjoint. -/
theorem witness_LerpInterpolatesEveryPixel : running.cp ≠ 0xFFFFFFC0 ∧ (0x3000 : Word).toNat % 4 = 0 ∧ (0x3008 : Word).toNat % 4 = 0
    ∧ (0x3000 : Word).toNat + 4 * 2 ≤ 2 ^ 32 ∧ (0x3008 : Word).toNat + 4 * 2 ≤ 2 ^ 32
    ∧ apart 0x3000 0x3000 (pixRegion 0x3000 2) (pixRegion 0x3000 2) ∧ apart 0x3008 0x3000 (pixRegion 0x3008 2) (pixRegion 0x3000 2)
    ∧ running.allows (lerpAccesses 0x3000 0x3000 0x3008 2) := by decide +kernel
/-- The image in the last 256 bytes of memory. -/
theorem witness_LutldLoadsTheTable : running.cp ≠ 0xFFFFFFC0 ∧ (0xFFFFFF00 : Word).toNat % 4 = 0
    ∧ (0xFFFFFF00 : Word).toNat + 2 ^ running.platform.lutAddrBits ≤ 2 ^ 32
    ∧ running.allows (lutldAccesses running.platform.lutAddrBits 0xFFFFFF00) := by decide +kernel
/-- A record in the last eight bytes of memory, its word right before it. -/
theorem witness_GammaLooksUpEveryRecord :
    let s := { running with lutv := true }
    s.lutv = true ∧ s.cp ≠ 0xFFFFFFC0 ∧ (0xFFFFFFF8 : Word).toNat % 8 = 0 ∧ (0xFFFFFFF4 : Word).toNat % 4 = 0
      ∧ (0xFFFFFFF8 : Word).toNat + 8 * 1 ≤ 2 ^ 32 ∧ (0xFFFFFFF4 : Word).toNat + 4 * 1 ≤ 2 ^ 32
      ∧ (recRegion 0xFFFFFFF8 1).overlaps (pixRegion 0xFFFFFFF4 1) = false
      ∧ s.allows (gammaAccesses 0xFFFFFFF4 0xFFFFFFF8 1) := by decide +kernel
theorem witness_ResizeCopiesNearestPixels : ResizeLegal running 0x5100 4 2 0x5000 2 5
    ∧ running.allows (resampleAccesses 0x5100 4 2 0x5000 2 5) :=
  ⟨by constructor <;> decide, by decide +kernel⟩
theorem witness_BlurredResizeConvolvesOnce : ResizeLegal running 0x5100 2 2 0x5000 1 4
    ∧ ScratchLegal 0x5100 2 2 0x5000 1 4 0x5110
    ∧ running.allows (resampleAccesses 0x5100 2 2 0x5000 1 4 ++ blurAccesses 0x5100 2 2 0x5110) :=
  ⟨by constructor <;> decide, by constructor <;> decide, by decide +kernel⟩
theorem finite_conv : ConvFinite running 0xFFFFFFF0 2 1 0x3FF0000000000000 0 :=
  ⟨by decide +kernel, by decide +kernel, by decide +kernel, by decide +kernel⟩
/-- Disjoint images; and in place with a 1x1 kernel. -/
theorem witness_ConvFiltersEveryPixel : ConvLegal running 0x6100 0x6000 2 2 0xFFFFFFF0 2 1
    ∧ ConvFinite running 0xFFFFFFF0 2 1 0x3FF0000000000000 0
    ∧ running.allows (convJob running.mem 0x6100 0x6000 2 2 0xFFFFFFF0 2 1 0x3FF0000000000000 0).accesses
    ∧ (∀ x y, x < 2 → y < 2 →
      ((convJob running.mem 0x6100 0x6000 2 2 0xFFFFFFF0 2 1 0x3FF0000000000000 0).pixel running.mem x y).isSome = true)
    ∧ ConvLegal running 0x6000 0x6000 2 2 0xFFFFFFF0 1 1 :=
  ⟨legal_conv _ rfl, finite_conv, by decide +kernel,
    fun x y hx hy => (show ∀ x < 2, ∀ y < 2, ((convJob running.mem 0x6100 0x6000 2 2 0xFFFFFFF0 2 1 0x3FF0000000000000 0).pixel
      running.mem x y).isSome = true by decide +kernel) x hx y hy,
    by constructor <;> decide⟩
/-- Weights of the largest magnitude and opposite signs: infinity minus infinity at the first pixel. -/
def overflowing : State :=
  putWords 0xFFFFFFF0 [0xFFFFFFFF, 0x7FEFFFFF, 0xFFFFFFFF, 0xFFEFFFFF] (putWords 0x6000 [0xFF, 0xFF] running)
theorem witness_ConvNanRaisesNumeric : ConvLegal overflowing 0x6100 0x6000 2 2 0xFFFFFFF0 2 1
    ∧ ConvFinite overflowing 0xFFFFFFF0 2 1 0x3FF0000000000000 0
    ∧ overflowing.allows (convJob overflowing.mem 0x6100 0x6000 2 2 0xFFFFFFF0 2 1 0x3FF0000000000000 0).accesses
    ∧ (convJob overflowing.mem 0x6100 0x6000 2 2 0xFFFFFFF0 2 1 0x3FF0000000000000 0).pixel overflowing.mem 0 0 = none :=
  ⟨legal_conv _ rfl, ⟨by decide +kernel, by decide +kernel, by decide +kernel, by decide +kernel⟩, by decide +kernel,
    by decide +kernel⟩

/-- A colour in each branch, black, a grey, a tie of red and green, and two words that differ in the unused byte. -/
theorem witness_RgbToHsvFacts : (rgbToHsv 255 0 255).2.1 = 255 ∧ (rgbToHsv 0 255 1).2.1 = 255 ∧ (rgbToHsv 1 0 255).2.1 = 255
    ∧ (rgbToHsv 9 9 8).1 = 43 ∧ max 0 (max 0 0) = 0 ∧ (rgbToHsv 255 255 255).2.1 = 0
    ∧ (0xAB000000 : Word) &&& 0x00FFFFFF = 0 &&& 0x00FFFFFF ∧ max 255 (max 0 255) ≠ min 255 (min 0 255) := by decide
/-- The first and the last hue of each sector; `s` 0 and 1; a grey. -/
theorem witness_HsvRoundTripKeepsLargestChannel : [0, 42, 43, 85, 86, 128, 129, 171, 172, 214, 215, 255].map (fun h => h / 43)
    = [0, 0, 1, 1, 2, 2, 3, 3, 4, 4, 5, 5] ∧ hsvToRgb 255 0 7 = (7, 7, 7) ∧ hsvToRgb 213 255 255 = (246, 0, 255)
    ∧ hsvToRgb 255 1 255 = (255, 253, 254) ∧ (7 = 7 ∧ 7 ≤ 255) := by decide
theorem witness_LerpInterpolatesWithinRounding : 255 ≤ 255 ∧ 0x3F800000 ≤ 0x3F800000 := by decide
theorem witness_LutIndexSelectsTopBits : 8 ≤ 8 ∧ 16 ≤ 16 ∧ 65535 < 2 ^ 16 ∧ (255 * 2 ^ (16 - 8) ≤ 65535 ∧ 65535 < (255 + 1) * 2 ^ (16 - 8)) := by
  decide
/-- An exact multiple, no multiple, a shrinking axis. -/
theorem witness_LegalAxesStayInTheSource : (1 ≤ 2 ∧ 1 ≤ 4 ∧ 2 ≤ 4 ∧ 4 % 2 = 0) ∧ (1 ≤ 3 ∧ 2 ≤ 3 ∧ 3 % 2 ≠ 0)
    ∧ (1 ≤ 5 ∧ 3 < 5 ∧ (5 ≤ 3 → 3 % 5 = 0)) := by decide
theorem witness_WrapIsInRangeAndCongruent : (0 : Nat) < 1 ∧ -((1 : Nat) : Int) ≤ -1 ∧ wrap (-1) 1 = 0 := by decide
/-- The five kinds of value: NaN, both infinities, a negative one, a tie (2.5, nearest 3). -/
theorem witness_OutputChannelRoundsAndClamps :
    binary64.add (binary64.mul (.fin false 0) (.inf false)) (.fin false 0) = .nan
    ∧ binary64.add (binary64.mul (binary64.ofNat 1) (.inf false)) (.fin false 0) = .inf false
    ∧ binary64.add (binary64.mul (binary64.ofNat 1) (.inf true)) (.fin false 0) = .inf true
    ∧ binary64.add (binary64.mul (binary64.ofNat 1) (.fin true 1)) (.fin false 0) = .fin true 1
    ∧ binary64.add (binary64.mul (binary64.ofNat 1) (.fin false (5 * 2 ^ 1073))) (.fin false 0) = .fin false (5 * 2 ^ 1073)
    ∧ 2 * 3 * 2 ^ 1074 ≤ 2 * (5 * 2 ^ 1073) + 2 ^ 1074 ∧ 2 * (5 * 2 ^ 1073) < 2 * 3 * 2 ^ 1074 + 2 ^ 1074 := by decide +kernel
/-- A tie of `roundNearestEven`: 3 / 2 goes to 2. -/
theorem witness_RoundingIsToNearestEven : roundNearestEven 3 1 = 2 ∧ 2 * roundNearestEven 3 1 * 2 ^ 1 = 2 * 3 + 2 ^ 1 := by decide
/-- In binary32: a value at the overflow bound and one below it; a tie of 25 bits, both neighbours of which are finite values
of the format. -/
theorem witness_RoundingIsToNearestEven_format :
    binary32.round true (binary32.limit - binary32.limit / 2 ^ 25) 0 = .inf true
    ∧ binary32.round true (binary32.limit - binary32.limit / 2 ^ 25 - 1) 0 = .fin true (binary32.limit - binary32.limit / 2 ^ 24)
    ∧ binary32.round false (2 ^ 24 + 1) 0 = .fin false (2 ^ 24) ∧ binary32.holds (2 ^ 24) ∧ binary32.holds (2 ^ 24 + 2)
    ∧ ((2 ^ 24 + 1 : Int) - 2 ^ 24).natAbs = ((2 ^ 24 + 1 : Int) - (2 ^ 24 + 2)).natAbs :=
  ⟨by decide +kernel, by decide +kernel, by decide +kernel, ⟨by decide +kernel, 1, 24, by decide, by decide⟩,
    ⟨by decide +kernel, 2 ^ 23 + 1, 1, by decide, by decide⟩, by decide⟩
/-- A RESIZE with blur that completes, and one that faults, from a state with no error recorded. -/
theorem witness_BlurNeverMeetsANan : running.errCode ≠ 0x21
    ∧ gives (exec (.resize 0x5100 2 2 0x5000 1 1 1 0x5200) running) (fun t => !t.err) = true
    ∧ gives (exec (.resize 0x5100 2 2 0x5000 1 1 1 0) running) (fun t => t.errCode == 0x15) = true := by decide +kernel
theorem witness_BlurKeepsASolidColour : 2 ≤ 2 ∧ 0 < 2 ∧ ∀ k < 2 * 2, (putWords 0x5200 [7, 7, 7, 7] running).mem.pix 0x5200 k = 7 := by
  decide +kernel
theorem witness_UnitKernelIsTheIdentity : 0 < 1
    ∧ (putWords 0x6400 [0, 0x3FF00000] running).mem.read64 (0x6400 : Word).toNat = 0x3FF0000000000000 := by decide +kernel

/-- Soft reset with every other bit set; a write while BUSY; a write of all four bits with an error pending. -/
theorem witness_CtrlWriteActsInOrder :
    ((scheduled [.regWrite 0x08 4 0xFFFFFFFF] running).turns = .regWrite 0x08 4 0xFFFFFFFF :: []
      ∧ (0xFFFFFFFF : Word).getLsbD 31 = true)
    ∧ ((scheduled [.regWrite 0x08 4 0x0F] running).turns = .regWrite 0x08 4 0x0F :: []
      ∧ (0x0F : Word).getLsbD 31 = false ∧ (scheduled [.regWrite 0x08 4 0x0F] running).busy = true)
    ∧ (scheduled [.regWrite 0x08 4 0x0F] { State.reset with err := true, errCode := 1 }).turns = .regWrite 0x08 4 0x0F :: []
    ∧ (scheduled [.regWrite 0x08 4 0x0F] { State.reset with err := true, errCode := 1 }).busy = false := by decide
/-- `rst` during a command that passes validation; soft reset while stopped; `rst` on a descriptor that is no command. -/
theorem witness_ResetGivesTheResetValues :
    ((scheduled [.rst] running).turns = .rst :: [] ∧ commandInProgress running = none
      ∧ commandInProgress (putInstr 0x1000 (.rgb2hsv 0x2000 0x2000 1) running) = some (.rgb2hsv 0x2000 0x2000 1))
    ∧ (scheduled [.regWrite 0x08 4 0x80000000] State.reset).turns = .regWrite 0x08 4 0x80000000 :: []
    ∧ (0x80000000 : Word).getLsbD 31 = true ∧ (scheduled [.regWrite 0x08 4 0x80000000] State.reset).busy = false := by
  decide +kernel
/-- `CP` while BUSY and stopped, a value that is no multiple of 64; IRQ_EN; the first and last other offsets. -/
theorem witness_RegisterWritesFollowTheMap :
    ((scheduled [.regWrite 0x10 4 1] running).turns = .regWrite 0x10 4 1 :: [] ∧ (scheduled [.regWrite 0x10 4 1] running).busy = true)
    ∧ (scheduled [.regWrite 0x10 4 1] State.reset).busy = false
    ∧ (scheduled [.regWrite 0x14 4 3] running).turns = .regWrite 0x14 4 3 :: []
    ∧ (scheduled [.regWrite 0xFC 4 3] running).turns = .regWrite 0xFC 4 3 :: [] ∧ (0xFC : BitVec 8).toNat % 4 = 0
    ∧ (0xFC : BitVec 8) ≠ 0x08 ∧ (0xFC : BitVec 8) ≠ 0x10 ∧ (0xFC : BitVec 8) ≠ 0x14 ∧ (0x00 : BitVec 8).toNat % 4 = 0 := by decide
/-- Every named offset and the first and last reserved one. -/
theorem witness_RegisterReadsReturnTheMap : (scheduled [.regRead 0x24 4] running).turns = .regRead 0x24 4 :: []
    ∧ (∀ o ∈ ([0x00, 0x04, 0x08, 0x0C, 0x10, 0x14, 0x18, 0x1C, 0x20, 0x24, 0xFC] : List (BitVec 8)), o.toNat % 4 = 0)
    ∧ 0x24 ≤ (0x24 : BitVec 8).toNat := by decide
theorem witness_ClearAndStartResumesTheList :
    let s := scheduled [.regWrite 0x08 4 5] { State.reset with err := true, errCode := 1 }
    s.consistent ∧ s.err = true ∧ s.turns = .regWrite 0x08 4 5 :: [] := by decide +kernel
/-- The last byte of memory while the core is stopped; while it runs, a write beside a list and a read of the word that its
command writes. -/
theorem witness_HostMemoryAccessesTheModelTakes :
    (State.reset.busy = false ∧ 0xFFFFFFFF < 2 ^ 32
      ∧ (scheduled [.memWrite 0xFFFFFFFF 0b1000#4 1] State.reset).turns = .memWrite 0xFFFFFFFF 0b1000#4 1 :: []
      ∧ (scheduled [.memRead 0xFFFFFFFF] State.reset).turns = .memRead 0xFFFFFFFF :: []
      ∧ ∀ k w, engineAfter k State.reset = some w → ¬w.awaits ⟨0xFFFFFFFC, 4⟩)
    ∧ (rewriting.busy = true ∧ (∀ k w, engineAfter k rewriting = some w → ¬w.awaits ⟨0x3004, 4⟩)
      ∧ fetch rewriting = .ok (rewriting.mem.descAt 0x1000)
      ∧ decode (rewriting.mem.descAt 0x1000) = .ok (.resize 0x1040 16 1 0x2000 16 1 0 0)
      ∧ validate rewriting (.resize 0x1040 16 1 0x2000 16 1 0 0) = none
      ∧ (pixRegion 0x1040 16).overlaps ⟨0x107C, 4⟩ = true) := by
  have free : ∀ (s : State) (a : Nat), s.inFlight a = false → ∀ k w, engineAfter k s = some w → ¬w.awaits ⟨a, 4⟩ :=
    fun s a h k w h1 h2 => Bool.false_ne_true (h.symm.trans ((s.inFlight_iff a).mpr ⟨k, w, h1, h2⟩))
  exact ⟨⟨by decide, by decide, by decide, by decide, free _ _ (by decide +kernel)⟩,
    ⟨by decide, free _ _ (by decide +kernel), by decide +kernel⟩⟩
/-- A two-byte access, a misaligned one; a write into the descriptor at `CP`, be it HALT's or no command's, and into a
destination; into a region of the command that the next descriptor will hold; an address too large. -/
theorem witness_HostMovesThatStop : (2 ≠ 4) ∧ (0x02 : BitVec 8).toNat % 4 ≠ 0
    ∧ (engineAfter 0 running = some running ∧ Region.overlaps ⟨running.cp.toNat, 64⟩ ⟨0x103F / 4 * 4, 4⟩ = true)
    ∧ (engineAfter 0 (putInstr 0x1000 .halt running) = some (putInstr 0x1000 .halt running)
      ∧ Region.overlaps ⟨(putInstr 0x1000 .halt running).cp.toNat, 64⟩ ⟨0x1000, 4⟩ = true)
    ∧ ((pixRegion 0x1040 16).overlaps ⟨0x107F / 4 * 4, 4⟩ = true
      ∧ decode (rewriting.mem.descAt rewriting.cp.toNat) = .ok (.resize 0x1040 16 1 0x2000 16 1 0 0))
    ∧ (engineAfter 1 rewriting).map (fun u => (u.cp, decide (decode (u.mem.descAt u.cp.toNat) = .ok (.rgb2hsv 0x3000 0x3000 1))))
      = some (0x1040, true)
    ∧ (pixRegion 0x3000 1).overlaps ⟨0x3003 / 4 * 4, 4⟩ = true ∧ 2 ^ 32 ≤ 0x100000000 := by decide +kernel

/-- For RANGE a region that passes the end by one byte, after one that ends there; for ALIAS each forbidden overlap of R86 by
one word, the bounds of the sizes among them; and a command with neither. -/
theorem witness_RangeAndAliasAreChecked : running.cp ≠ 0xFFFFFFC0
    ∧ (regionsOf 8 (.rgb2hsv 0xFFFFFFFC 0xFFFFFFF8 2) = [⟨0xFFFFFFF8, 8⟩] ++ ⟨0xFFFFFFFC, 8⟩ :: []
      ∧ 0xFFFFFFF8 + 8 ≤ 2 ^ 32 ∧ 2 ^ 32 < 0xFFFFFFFC + 8 ∧ ∀ p ∈ alignedAddresses (.rgb2hsv 0xFFFFFFFC 0xFFFFFFF8 2), p.1.toNat % p.2 = 0)
    ∧ regionsOf 8 (.resize 0x5100 2 2 0x5000 1 1 1 0xFFFFFFFC)
      = [⟨0x5000, 4⟩, ⟨0x5100, 16⟩] ++ ⟨0xFFFFFFFC, 16⟩ :: []
    ∧ forbiddenOverlap (.hsv2rgb 0x2004 0x2000 2) ∧ forbiddenOverlap (.lerp 0x2004 0x3000 0x2000 2 0)
    ∧ forbiddenOverlap (.gamma 0x2000 0x2000 1) ∧ forbiddenOverlap (.resize 0x5004 2 2 0x5000 1 2 0 0)
    ∧ forbiddenOverlap (.resize 0x5100 2 2 0x5000 1 1 1 0x510C) ∧ sizesLegal (.resize 0x5100 2 2 0x5000 1 1 1 0x510C)
    ∧ forbiddenOverlap (.conv 0x6000 0x6000 1 1 0x6400 2 1 0 0) ∧ sizesLegal (.conv 0x6000 0x6000 1 1 0x6400 2 1 0 0)
    ∧ forbiddenOverlap (.conv 0x6400 0x6000 1 1 0x6400 1 1 0 0)
    ∧ ¬forbiddenOverlap (.conv 0x6000 0x6000 1 1 0x6400 1 1 0 0) ∧ ¬forbiddenOverlap (.rgb2hsv 0x2000 0x2000 2) := by
  refine ⟨by decide, by decide, by decide, ?_, ?_, ?_, ?_, ?_, ?_, ?_, ?_, ?_, ?_, ?_⟩
  · exact ⟨⟨0x2004, by decide, by decide⟩, by decide⟩
  · exact .inr ⟨⟨0x2004, by decide, by decide⟩, by decide⟩
  · exact ⟨0x2000, by decide, by decide⟩
  · exact .inl ⟨0x5004, by decide, by decide⟩
  · exact .inr ⟨by decide, .inr ⟨0x510C, by decide, by decide⟩⟩
  · exact ⟨by decide, by decide, fun _ => by decide⟩
  · exact .inr ⟨⟨0x6000, by decide, by decide⟩, by decide⟩
  · exact ⟨by decide, by decide⟩
  · exact .inl ⟨0x6400, by decide, by decide⟩
  · rintro (⟨a, h1, h2⟩ | ⟨-, h⟩)
    · exact absurd h1.2 (Nat.not_lt.mpr (Nat.le_trans (by decide) h2.1))
    · exact h (by decide)
  · exact fun h => h.2 rfl
/-- A pixel with three channels and one with a NaN; the last weight of a kernel; the corner and the centre of the blur's. -/
theorem witness_ConvPixelIsTheKernelSum :
    (blurJob 0x5100 2 2 0x5200).pixel (putWords 0x5200 [7, 7, 7, 7] running).mem 0 0 = some 7
    ∧ (convJob overflowing.mem 0x6100 0x6000 2 2 0xFFFFFFF0 2 1 0x3FF0000000000000 0).pixel overflowing.mem 0 0 = none
    ∧ (convJob overflowing.mem 0x6100 0x6000 2 2 0xFFFFFFF0 2 1 0x3FF0000000000000 0).weights.getD (0 * 2 + 1) (.fin false 0)
      = binary64.decode 0xFFEFFFFFFFFFFFFF
    ∧ blurKernel.getD (4 * 5 + 4) .nan = .fin false 0 ∧ blurKernel.getD (2 * 5 + 2) .nan = binary64.ofNat 1 := by decide +kernel
/-- The largest fields of both formats; an infinity and a NaN; sums above, below and at zero; a product with a zero. -/
theorem witness_FloatOperationsRoundOnce : 1 < 2 ∧ 255 < 2 ^ 8 ∧ 0x7FFFFF < 2 ^ 23 ∧ 2047 < 2 ^ 11 ∧ 0xFFFFFFFFFFFFF < 2 ^ 52
    ∧ binary32.decode 0xFFFFFFFF = .nan ∧ binary32.decode 0xFF800000 = .inf true
    ∧ binary32.decode 0x807FFFFF = .fin true 0x7FFFFF ∧ binary64.decode 0x3FF0000000000000 = .fin false (2 ^ 1074)
    ∧ 0 < signedUnits true 1 + signedUnits false 2 ∧ signedUnits true 2 + signedUnits false 1 < 0
    ∧ signedUnits true 1 + signedUnits false 1 = 0 ∧ binary32.mul (.inf true) (.fin false 0) = .nan := by decide +kernel

end Sys2Proof.Tests
end

section
/-! PROOFS. Rounding (00_scope.md R12): to an integer, to a format, and where the result is an infinity. -/

namespace Sys2Proof.Machine

/-! ### Rounding to an integer -/

/-- The rounded quotient is within one half of the exact one, and even when it is exactly one half away. -/
theorem roundNearestEven_spec (m k : Nat) :
    2 * m ≤ (2 * roundNearestEven m k + 1) * 2 ^ k ∧ 2 * roundNearestEven m k * 2 ^ k ≤ 2 * m + 2 ^ k
    ∧ (2 * m = (2 * roundNearestEven m k + 1) * 2 ^ k ∨ 2 * roundNearestEven m k * 2 ^ k = 2 * m + 2 ^ k →
      roundNearestEven m k % 2 = 0) := by
  have hm : 2 ^ k * (m / 2 ^ k) + m % 2 ^ k = m := Nat.div_add_mod m (2 ^ k)
  have hr : m % 2 ^ k < 2 ^ k := Nat.mod_lt _ (Nat.two_pow_pos k)
  unfold roundNearestEven
  generalize m / 2 ^ k = q, m % 2 ^ k = r at *
  generalize 2 ^ k = unit at *
  have hup : (2 * (q + 1) + 1) * unit = 2 * (unit * q) + 3 * unit := by ring
  have hup' : 2 * (q + 1) * unit = 2 * (unit * q) + 2 * unit := by ring
  have hdown : (2 * q + 1) * unit = 2 * (unit * q) + unit := by ring
  have hdown' : 2 * q * unit = 2 * (unit * q) := by ring
  simp only
  split
  · rw [hup, hup']; omega
  · rw [hdown, hdown']; omega

/-- No integer is nearer than the rounded quotient; one as near is its neighbour, and then the quotient is even. -/
theorem roundNearestEven_nearest (m k : Nat) {j : Nat} (hj : j ≠ roundNearestEven m k) :
    ((m : Int) - roundNearestEven m k * 2 ^ k).natAbs ≤ ((m : Int) - j * 2 ^ k).natAbs
    ∧ (((m : Int) - roundNearestEven m k * 2 ^ k).natAbs = ((m : Int) - j * 2 ^ k).natAbs →
        roundNearestEven m k % 2 = 0 ∧ ((roundNearestEven m k : Int) - j).natAbs = 1) := by
  obtain ⟨hlow, hhigh, heven⟩ := roundNearestEven_spec m k
  generalize roundNearestEven m k = q at *
  have hunit : 0 < 2 ^ k := Nat.two_pow_pos k
  have hgap : ((q : Int) * 2 ^ k - j * 2 ^ k).natAbs = ((q : Int) - j).natAbs * 2 ^ k := by
    rw [← sub_mul, Int.natAbs_mul, Int.natAbs_pow]; rfl
  have hpos : 1 ≤ ((q : Int) - j).natAbs := by omega
  have hnear : 2 ^ k ≤ ((q : Int) - j).natAbs * 2 ^ k := Nat.le_mul_of_pos_left _ hpos
  have hfar : ((q : Int) - j).natAbs ≠ 1 → 2 * 2 ^ k ≤ ((q : Int) - j).natAbs * 2 ^ k := fun h =>
    Nat.mul_le_mul_right _ (by omega)
  have hq : ((q * 2 ^ k : Nat) : Int) = q * 2 ^ k := by push_cast; rfl
  have hup : (2 * q + 1) * 2 ^ k = 2 * (q * 2 ^ k) + 2 ^ k := by ring
  have hdown : 2 * q * 2 ^ k = 2 * (q * 2 ^ k) := by ring
  rw [hup] at hlow heven
  rw [hdown] at hhigh heven
  rw [← hq] at hgap ⊢
  generalize ((q : Int) - j).natAbs * 2 ^ k = gap at *
  generalize q * 2 ^ k = Q, (j : Int) * 2 ^ k = J, 2 ^ k = unit at *
  omega

/-! ### The magnitude that `round` gives before the test for overflow -/

/-- How many low bits rounding drops: down to `prec` significant bits, and to whole units at least. -/
def FpFormat.dropped (f : FpFormat) (m d : Nat) : Nat := max d (Nat.log2 m + 1 - f.prec)

/-- The rounded magnitude, the exponent unbounded above. -/
def FpFormat.roundedMag (f : FpFormat) (m d : Nat) : Nat :=
  roundNearestEven m (f.dropped m d) * 2 ^ (f.dropped m d - d)

theorem FpFormat.round_eq (f : FpFormat) (neg : Bool) (m d : Nat) :
    f.round neg m d = if f.limit ≤ f.roundedMag m d then .inf neg else .fin neg (f.roundedMag m d) := rfl

theorem FpFormat.le_dropped (f : FpFormat) (m d : Nat) : d ≤ f.dropped m d := Nat.le_max_left _ _

/-- What is kept has at most `prec` bits. -/
theorem FpFormat.lt_two_pow_dropped (f : FpFormat) (m d : Nat) : m < 2 ^ (f.prec + f.dropped m d) := by
  have hbits : Nat.log2 m + 1 ≤ f.prec + f.dropped m d := by
    have := Nat.le_max_right d (Nat.log2 m + 1 - f.prec)
    unfold FpFormat.dropped
    omega
  exact lt_of_lt_of_le Nat.lt_log2_self (Nat.pow_le_pow_right (by norm_num) hbits)

/-- When a bit of a unit or more is dropped, what is kept has `prec` bits. -/
theorem FpFormat.two_pow_dropped_le {f : FpFormat} {m d : Nat} (h : d < f.dropped m d) :
    2 ^ (f.fracBits + f.dropped m d) ≤ m := by
  have hdrop : f.dropped m d = Nat.log2 m - f.fracBits := by
    unfold FpFormat.dropped FpFormat.prec at *
    omega
  have hm : m ≠ 0 := by
    rintro rfl
    rw [Nat.log2_zero] at hdrop
    omega
  rw [show f.fracBits + f.dropped m d = Nat.log2 m by omega]
  exact Nat.log2_self_le hm

theorem FpFormat.roundNearestEven_dropped_le (f : FpFormat) (m d : Nat) :
    roundNearestEven m (f.dropped m d) ≤ 2 ^ f.prec := by
  obtain ⟨-, hhigh, -⟩ := roundNearestEven_spec m (f.dropped m d)
  have hm := f.lt_two_pow_dropped m d
  rw [pow_add] at hm
  have hlt : 2 * roundNearestEven m (f.dropped m d) * 2 ^ f.dropped m d < (2 * 2 ^ f.prec + 1) * 2 ^ f.dropped m d :=
    calc _ ≤ 2 * m + 2 ^ f.dropped m d := hhigh
      _ < 2 * (2 ^ f.prec * 2 ^ f.dropped m d) + 2 ^ f.dropped m d := by omega
      _ = _ := by ring
  have := Nat.lt_of_mul_lt_mul_right hlt
  omega

/-! ### The values of a format, the exponent unbounded above -/

/-- The magnitude has at most `prec` significant bits. -/
abbrev FpFormat.fits (f : FpFormat) (mag : Nat) : Prop := ∃ c e, c < 2 ^ f.prec ∧ mag = c * 2 ^ e

theorem FpFormat.fits_two_pow (f : FpFormat) (e : Nat) : f.fits (2 ^ e) :=
  ⟨1, e, Nat.one_lt_two_pow (by simp [FpFormat.prec]), (Nat.one_mul _).symm⟩

theorem FpFormat.fits_roundedMag (f : FpFormat) (m d : Nat) : f.fits (f.roundedMag m d) := by
  rcases (f.roundNearestEven_dropped_le m d).lt_or_eq with h | h
  · exact ⟨_, _, h, rfl⟩
  · rw [FpFormat.roundedMag, h, ← pow_add]
    exact f.fits_two_pow _

/-- A value of the format is a multiple of `2 ^ g` or small against it. -/
theorem FpFormat.fits_cases {f : FpFormat} {n : Nat} (h : f.fits n) (g : Nat) :
    (∃ j, n = j * 2 ^ g) ∨ n < 2 ^ (f.fracBits + g) := by
  obtain ⟨c, e, hc, rfl⟩ := h
  rcases Nat.lt_or_ge e g with heg | heg
  · right
    calc c * 2 ^ e < 2 ^ f.prec * 2 ^ e := Nat.mul_lt_mul_of_pos_right hc (Nat.two_pow_pos e)
      _ = 2 ^ (f.prec + e) := (pow_add _ _ _).symm
      _ ≤ 2 ^ (f.fracBits + g) := Nat.pow_le_pow_right (by norm_num) (by unfold FpFormat.prec; omega)
  · exact .inl ⟨c * 2 ^ (e - g), by rw [Nat.mul_assoc, ← pow_add, Nat.sub_add_cancel heg]⟩

/-- A value of the format is a multiple of the rounding unit, or below the binade of the magnitude to round. -/
theorem FpFormat.fits_cases_dropped {f : FpFormat} {n : Nat} (h : f.fits n) (m d : Nat) :
    (∃ j, n = j * 2 ^ (f.dropped m d - d))
    ∨ n < 2 ^ (f.fracBits + (f.dropped m d - d)) ∧ 2 ^ (f.fracBits + f.dropped m d) ≤ m := by
  rcases (f.le_dropped m d).eq_or_lt with hd | hd
  · exact .inl ⟨n, by rw [← hd, Nat.sub_self, pow_zero, Nat.mul_one]⟩
  · exact (fits_cases h _).imp_right fun hn => ⟨hn, two_pow_dropped_le hd⟩

/-! ### No other value is nearer -/

/-- How far `n` units are from `m / 2 ^ d`, in units of `2 ^ (-d)`. -/
def roundingError (m d n : Nat) : Nat := ((m : Int) - n * 2 ^ d).natAbs

theorem roundingError_eq (m d n : Nat) : roundingError m d n = (m - n * 2 ^ d) + (n * 2 ^ d - m) := by
  have hn : ((n * 2 ^ d : Nat) : Int) = n * 2 ^ d := by push_cast; rfl
  rw [roundingError, ← hn]
  omega

theorem roundingError_mul {d g : Nat} (h : d ≤ g) (m j : Nat) :
    roundingError m d (j * 2 ^ (g - d)) = roundingError m g j := by
  have hpow : (2 : Int) ^ g = 2 ^ (g - d) * 2 ^ d := by rw [← pow_add, Nat.sub_add_cancel h]
  rw [roundingError, roundingError, hpow]
  push_cast
  rw [mul_assoc]

/-- No value of the format is nearer than the rounded magnitude; in a tie its last bit is zero. -/
theorem FpFormat.roundedMag_nearest {f : FpFormat} {m d other : Nat} (hfits : f.fits other)
    (hne : other ≠ f.roundedMag m d) :
    roundingError m d (f.roundedMag m d) ≤ roundingError m d other
    ∧ (roundingError m d (f.roundedMag m d) = roundingError m d other →
        f.roundedMag m d % (2 * ((f.roundedMag m d : Int) - other).natAbs) = 0) := by
  have hd := f.le_dropped m d
  have hcases := fits_cases_dropped hfits m d
  unfold FpFormat.roundedMag at *
  generalize f.dropped m d = g at *
  rw [roundingError_mul hd]
  rcases hcases with ⟨j, rfl⟩ | ⟨hsmall, hm⟩
  · rw [roundingError_mul hd]
    have hj : j ≠ roundNearestEven m g := fun h => hne (by rw [h])
    obtain ⟨hle, htie⟩ := roundNearestEven_nearest m g hj
    refine ⟨hle, fun heq => ?_⟩
    obtain ⟨heven, hone⟩ := htie heq
    have hgap : ((roundNearestEven m g * 2 ^ (g - d) : Nat) - (j * 2 ^ (g - d) : Nat) : Int).natAbs = 2 ^ (g - d) := by
      push_cast
      rw [← sub_mul, Int.natAbs_mul, hone, Nat.one_mul, Int.natAbs_pow]; rfl
    rw [hgap, Nat.mul_mod_mul_right, heven, Nat.zero_mul]
  · have hbinade : roundingError m g (roundNearestEven m g) ≤ roundingError m g (2 ^ f.fracBits) := by
      by_cases hq : 2 ^ f.fracBits = roundNearestEven m g
      · rw [hq]
      · exact (roundNearestEven_nearest m g hq).1
    have hscaled : other * 2 ^ d < 2 ^ f.fracBits * 2 ^ g :=
      calc other * 2 ^ d < 2 ^ (f.fracBits + (g - d)) * 2 ^ d := Nat.mul_lt_mul_of_pos_right hsmall (Nat.two_pow_pos d)
        _ = 2 ^ f.fracBits * 2 ^ g := by rw [← pow_add, ← pow_add, Nat.add_assoc, Nat.sub_add_cancel hd]
    have hother : roundingError m g (2 ^ f.fracBits) < roundingError m d other := by
      rw [pow_add] at hm
      rw [roundingError_eq, roundingError_eq]
      omega
    exact ⟨(hbinade.trans_lt hother).le, fun heq => absurd heq (hbinade.trans_lt hother).ne⟩

/-! ### Overflow -/

section Overflow

variable {f : FpFormat} {g : Nat} (hlim : f.limit = 2 ^ (f.prec + (g + 1)))
include hlim

/-- The values below the limit end `2 ^ (g + 1)` units, the last place of the top binade, below it. -/
theorem FpFormat.fits_le_of_lt_limit {n : Nat} (hfits : f.fits n) (hn : n < f.limit) :
    n ≤ (2 ^ f.prec - 1) * 2 ^ (g + 1) := by
  rw [hlim, pow_add] at hn
  rcases fits_cases hfits (g + 1) with ⟨j, rfl⟩ | hsmall
  · have := Nat.lt_of_mul_lt_mul_right hn
    exact Nat.mul_le_mul_right _ (by omega)
  · have hhalf : 2 ^ f.fracBits ≤ 2 ^ f.prec - 1 := by
      have := Nat.two_pow_pos f.fracBits
      rw [FpFormat.prec, pow_succ]
      omega
    rw [pow_add] at hsmall
    exact hsmall.le.trans (Nat.mul_le_mul_right _ hhalf)

/-- The overflow bound lies half way between the largest value below the limit and the limit. -/
theorem FpFormat.two_mul_overflow :
    2 * (f.limit - f.limit / 2 ^ (f.prec + 1)) = f.limit + (2 ^ f.prec - 1) * 2 ^ (g + 1) := by
  have hdiv : f.limit / 2 ^ (f.prec + 1) = 2 ^ g := by
    rw [hlim, show f.prec + (g + 1) = g + (f.prec + 1) by omega, pow_add, Nat.mul_div_cancel _ (Nat.two_pow_pos _)]
  have hle : 2 ^ (g + 1) ≤ 2 ^ f.prec * 2 ^ (g + 1) := Nat.le_mul_of_pos_left _ (Nat.two_pow_pos _)
  rw [hdiv, hlim, Nat.sub_mul, Nat.one_mul, pow_add]
  rw [pow_succ] at *
  omega

/-- The rounded magnitude reaches the limit exactly from the overflow bound on: on either side of the bound the limit and the
largest value below it are rivals, and on the bound itself the latter is odd. -/
theorem FpFormat.limit_le_roundedMag_iff (m d : Nat) :
    f.limit ≤ f.roundedMag m d ↔ (f.limit - f.limit / 2 ^ (f.prec + 1)) * 2 ^ d ≤ m := by
  have hbelow := fits_le_of_lt_limit hlim (f.fits_roundedMag m d)
  have hbound := congrArg (· * 2 ^ d) (two_mul_overflow hlim)
  have hprec : 2 ^ f.prec = 2 * 2 ^ f.fracBits := by rw [FpFormat.prec, pow_succ, Nat.mul_comm]
  have hfrac : 0 < 2 ^ f.fracBits := Nat.two_pow_pos _
  have hulp : f.limit = (2 ^ f.prec - 1) * 2 ^ (g + 1) + 2 ^ (g + 1) := by
    rw [hlim, pow_add, ← Nat.succ_mul]
    congr 1
    omega
  have hulpD : 0 < 2 ^ (g + 1) * 2 ^ d := by positivity
  generalize htop : (2 ^ f.prec - 1) * 2 ^ (g + 1) = top at *
  generalize hmag : f.roundedMag m d = mag at *
  generalize f.limit - f.limit / 2 ^ (f.prec + 1) = bound at *
  simp only [Nat.add_mul, Nat.mul_assoc] at hbound
  have hlimD : f.limit * 2 ^ d = top * 2 ^ d + 2 ^ (g + 1) * 2 ^ d := by rw [hulp, Nat.add_mul]
  constructor
  · intro hle
    by_contra hlt
    have hfits : f.fits top := ⟨2 ^ f.prec - 1, g + 1, by omega, htop.symm⟩
    have hne : top ≠ f.roundedMag m d := by have := Nat.two_pow_pos (g + 1); omega
    obtain ⟨hnear, -⟩ := roundedMag_nearest hfits hne
    have hleD : f.limit * 2 ^ d ≤ mag * 2 ^ d := Nat.mul_le_mul_right _ hle
    rw [hmag, roundingError_eq, roundingError_eq] at hnear
    omega
  · intro hle
    by_contra hlt
    have hfits : f.fits f.limit := hlim ▸ f.fits_two_pow _
    have hne : f.limit ≠ f.roundedMag m d := by omega
    obtain ⟨hnear, htie⟩ := roundedMag_nearest hfits hne
    have hleD : mag * 2 ^ d ≤ top * 2 ^ d := Nat.mul_le_mul_right _ (hbelow (Nat.lt_of_not_le hlt))
    rw [hmag, roundingError_eq, roundingError_eq] at hnear htie
    have hmagTop : mag = top := Nat.eq_of_mul_eq_mul_right (Nat.two_pow_pos d) (by omega)
    have hgap : ((mag : Int) - f.limit).natAbs = 2 ^ (g + 1) := by omega
    have heven := htie (by omega)
    rw [hgap, hmagTop, ← htop, Nat.mul_mod_mul_right] at heven
    have hodd : (2 ^ f.prec - 1) % 2 = 1 := by omega
    rw [hodd, Nat.one_mul] at heven
    exact absurd heven (Nat.two_pow_pos _).ne'

/-- Rounding to the format: an infinity from the overflow bound on, else the nearest finite value, a tie to the even one. -/
theorem FpFormat.round_nearest (neg : Bool) (m d : Nat) :
    let overflow := (f.limit - f.limit / 2 ^ (f.prec + 1)) * 2 ^ d
    (overflow ≤ m → f.round neg m d = .inf neg)
    ∧ (m < overflow → ∃ mag, f.round neg m d = .fin neg mag ∧ f.holds mag
        ∧ ∀ other, f.holds other → other ≠ mag →
          roundingError m d mag ≤ roundingError m d other
          ∧ (roundingError m d mag = roundingError m d other → mag % (2 * ((mag : Int) - other).natAbs) = 0)) := by
  refine ⟨fun h => ?_, fun h => ⟨f.roundedMag m d, ?_⟩⟩
  · rw [f.round_eq, if_pos ((limit_le_roundedMag_iff hlim m d).mpr h)]
  · have hlt : ¬f.limit ≤ f.roundedMag m d := mt (limit_le_roundedMag_iff hlim m d).mp (Nat.not_le.mpr h)
    refine ⟨by rw [f.round_eq, if_neg hlt], ⟨Nat.lt_of_not_le hlt, f.fits_roundedMag m d⟩, ?_⟩
    rintro other ⟨-, hfits⟩ hne
    exact roundedMag_nearest hfits hne

end Overflow

theorem limit_binary32 : binary32.limit = 2 ^ (128 + 149) := by
  rw [FpFormat.limit, show 2 ^ (binary32.expBits - 1) + binary32.scale = 128 + 149 from rfl]

theorem limit_binary64 : binary64.limit = 2 ^ (1024 + 1074) := by
  rw [FpFormat.limit, show 2 ^ (binary64.expBits - 1) + binary64.scale = 1024 + 1074 from rfl]

/-- Settles O47: the integer rounding by its two cases, each format by its limit. -/
theorem roundingIsToNearestEven : Obligations.RoundingIsToNearestEven := by
  refine ⟨roundNearestEven_spec, ⟨rfl, limit_binary32⟩, ⟨rfl, limit_binary64⟩, ?_⟩
  rintro f (rfl | rfl) neg m d
  · refine FpFormat.round_nearest (g := 252) ?_ neg m d
    rw [limit_binary32, show 128 + 149 = binary32.prec + (252 + 1) from rfl]
  · refine FpFormat.round_nearest (g := 2044) ?_ neg m d
    rw [limit_binary64, show 1024 + 1074 = binary64.prec + (2044 + 1) from rfl]

end Sys2Proof.Machine
end

section
/-! PROOFS. The values of bit patterns and the floating-point operations (00_scope.md R12). -/

namespace Sys2Proof.Machine

/-! ### The value of a bit pattern -/

/-- A bit pattern put together from its three fields decodes to the value IEEE 754 gives them. -/
theorem FpFormat.decode_fields (f : FpFormat) {sign exp frac : Nat} (hs : sign < 2) (he : exp < 2 ^ f.expBits)
    (hf : frac < 2 ^ f.fracBits) :
    f.decode (sign * 2 ^ (f.fracBits + f.expBits) + exp * 2 ^ f.fracBits + frac)
      = if exp = 2 ^ f.expBits - 1 then (if frac = 0 then .inf (sign == 1) else .nan)
        else if exp = 0 then .fin (sign == 1) frac else .fin (sign == 1) ((2 ^ f.fracBits + frac) * 2 ^ (exp - 1)) := by
  generalize hbits : sign * 2 ^ (f.fracBits + f.expBits) + exp * 2 ^ f.fracBits + frac = bits
  have hsplit : bits = 2 ^ f.fracBits * (2 ^ f.expBits * sign + exp) + frac := by rw [← hbits, pow_add]; ring
  have hfrac : bits % 2 ^ f.fracBits = frac := by rw [hsplit, Nat.mul_add_mod, Nat.mod_eq_of_lt hf]
  have hhigh : bits / 2 ^ f.fracBits = 2 ^ f.expBits * sign + exp := by
    rw [hsplit, Nat.mul_add_div (Nat.two_pow_pos _), Nat.div_eq_of_lt hf, Nat.add_zero]
  have hexp : bits / 2 ^ f.fracBits % 2 ^ f.expBits = exp := by rw [hhigh, Nat.mul_add_mod, Nat.mod_eq_of_lt he]
  have hsign : bits / 2 ^ (f.fracBits + f.expBits) = sign := by
    rw [pow_add, ← Nat.div_div_eq_div_mul, hhigh, Nat.mul_add_div (Nat.two_pow_pos _), Nat.div_eq_of_lt he, Nat.add_zero]
  have hneg : decide (sign % 2 = 1) = (sign == 1) := by rw [Nat.mod_eq_of_lt hs]; rfl
  simp only [FpFormat.decode, hfrac, hexp, hsign, hneg]

/-! ### Sums and products -/

/-- An exact zero is not rounded. -/
theorem FpFormat.round_zero (f : FpFormat) (neg : Bool) : f.round neg 0 0 = .fin neg 0 := by
  have h := f.round_exact (q := 0) (e := 0) neg (Nat.two_pow_pos _) (le_refl 0)
    (by rw [Nat.zero_mul]; exact Nat.two_pow_pos _)
  simpa using h

theorem FpFormat.add_fin_same_sign (f : FpFormat) (a : Bool) (m n : Nat) :
    f.add (.fin a m) (.fin a n) = f.round a (m + n) 0 := by simp [FpFormat.add]

theorem FpFormat.add_fin_opposite_sign (f : FpFormat) (a : Bool) (m n : Nat) :
    f.add (.fin a m) (.fin (!a) n)
      = if n < m then f.round a (m - n) 0 else if m < n then f.round (!a) (n - m) 0 else .fin false 0 := by
  simp [FpFormat.add]

/-- Adding magnitudes of one sign adds the values. -/
theorem signedUnits_add_same (a : Bool) (m n : Nat) : signedUnits a m + signedUnits a n = signedUnits a (m + n) := by
  cases a <;> simp only [signedUnits] <;> push_cast <;> ring

/-- A smaller magnitude of the other sign is taken away. -/
theorem signedUnits_add_opposite (a : Bool) {m n : Nat} (h : n ≤ m) :
    signedUnits a m + signedUnits (!a) n = signedUnits a (m - n) := by
  cases a <;> simp [signedUnits, Nat.cast_sub h, sub_eq_add_neg, add_comm]

theorem signedUnits_eq_zero_iff (a : Bool) (k : Nat) : signedUnits a k = 0 ↔ k = 0 := by cases a <;> simp [signedUnits]

/-- A magnitude rounded with a sign, said of the signed value. -/
theorem FpFormat.round_eq_signed (f : FpFormat) (a : Bool) (k : Nat) :
    f.round a k 0 = if signedUnits a k = 0 then .fin a 0
      else f.round (decide (signedUnits a k < 0)) (signedUnits a k).natAbs 0 := by
  by_cases hk : k = 0
  · rw [if_pos ((signedUnits_eq_zero_iff a k).mpr hk), hk, f.round_zero]
  · rw [if_neg (mt (signedUnits_eq_zero_iff a k).mp hk)]
    cases a with
    | false => simp [signedUnits, (Int.natCast_nonneg k).not_gt]
    | true => simp [signedUnits, Nat.pos_of_ne_zero hk]

/-- The sum of finite values is their exact sum rounded once; an exact zero is `+0` unless both are negative (R12). -/
theorem FpFormat.add_fin_eq_round (f : FpFormat) (a b : Bool) (m n : Nat) :
    f.add (.fin a m) (.fin b n)
      = if signedUnits a m + signedUnits b n = 0 then .fin (a && b) 0
        else f.round (decide (signedUnits a m + signedUnits b n < 0)) (signedUnits a m + signedUnits b n).natAbs 0 := by
  by_cases hab : b = a
  · rw [hab, f.add_fin_same_sign, f.round_eq_signed, signedUnits_add_same, Bool.and_self]
  · obtain rfl : b = !a := Bool.eq_not.mpr hab
    rw [f.add_fin_opposite_sign]
    rcases Nat.lt_trichotomy n m with h | h | h
    · have hne : signedUnits a (m - n) ≠ 0 := mt (signedUnits_eq_zero_iff a _).mp (Nat.sub_ne_zero_of_lt h)
      rw [if_pos h, f.round_eq_signed, signedUnits_add_opposite a h.le, if_neg hne, if_neg hne]
    · have hzero : signedUnits a m + signedUnits (!a) n = 0 := by
        rw [signedUnits_add_opposite a h.le, signedUnits_eq_zero_iff, h, Nat.sub_self]
      rw [if_neg h.not_lt, if_neg h.not_gt, if_pos hzero, Bool.and_not_self]
    · have hsum : signedUnits a m + signedUnits (!a) n = signedUnits (!a) (n - m) := by
        rw [add_comm, ← signedUnits_add_opposite (!a) h.le, Bool.not_not]
      have hne : signedUnits (!a) (n - m) ≠ 0 := mt (signedUnits_eq_zero_iff (!a) _).mp (Nat.sub_ne_zero_of_lt h)
      rw [if_neg h.not_gt, if_pos h, f.round_eq_signed, hsum, if_neg hne, if_neg hne]

theorem FpFormat.mul_inf_fin (f : FpFormat) (a b : Bool) (n : Nat) :
    f.mul (.inf a) (.fin b n) = if n = 0 then .nan else .inf (a != b) := rfl

theorem FpFormat.mul_fin_inf (f : FpFormat) (a b : Bool) (n : Nat) :
    f.mul (.fin b n) (.inf a) = if n = 0 then .nan else .inf (b != a) := rfl

/-- Settles O60: bit patterns field by field, sums by their signed total, the remaining cases by the definitions. -/
theorem floatOperationsRoundOnce : Obligations.FloatOperationsRoundOnce := by
  refine ⟨⟨by decide, by decide⟩, fun sign exp frac => binary32.decode_fields, fun sign exp frac => binary64.decode_fields,
    fun f => ?_⟩
  refine ⟨fun _ => rfl, fun _ _ => rfl, fun _ _ => rfl, fun _ => rfl, fun _ _ _ _ => rfl, fun a m b n => ?sum,
    fun z => ⟨f.add_nan_left z, f.add_nan_right z, f.mul_nan_left z, f.mul_nan_right z⟩, fun a => ?infSum,
    fun a b n => ⟨rfl, rfl⟩, fun _ _ => rfl, fun a b n => ⟨fun hn => ?zeroTimesInf, fun hn => ?finTimesInf⟩⟩
  case sum =>
    refine ⟨fun h => ?_, fun h => ?_, fun h => ?_⟩
    · rw [f.add_fin_eq_round, if_neg h.ne', decide_eq_false h.not_gt]
    · rw [f.add_fin_eq_round, if_neg h.ne, decide_eq_true h]
    · rw [f.add_fin_eq_round, if_pos h]
  case infSum => simp [FpFormat.add]
  case zeroTimesInf => simp [FpFormat.mul_inf_fin, FpFormat.mul_fin_inf, hn]
  case finTimesInf => simp [FpFormat.mul_inf_fin, FpFormat.mul_fin_inf, hn]

end Sys2Proof.Machine
end

section
/-! PROOFS. Determinism of a command that completes (00_scope.md R16): validation, the loops and the end of a command see of a
state only what `SameInputs` names. -/

namespace Sys2Proof.Machine

/-- Two states that agree on what R16 names, `CP`, the parameters and whether an error is pending. -/
structure SameInputs (s s' : State) : Prop where
  mem : s.mem = s'.mem
  lut : s.lut = s'.lut
  lutv : s.lutv = s'.lutv
  oor : s.oor = s'.oor
  cp : s.cp = s'.cp
  platform : s.platform = s'.platform
  err : s.err = s'.err

namespace SameInputs

variable {s s' : State} (h : SameInputs s s')
include h

/-! ### Validation sees no more of the state -/

theorem cpWrapCheck_eq : cpWrapCheck s = cpWrapCheck s' := by rw [cpWrapCheck, cpWrapCheck, h.cp]

theorem lutCheck_eq : lutCheck s = lutCheck s' := by rw [lutCheck, lutCheck, h.lutv]

theorem weightsCheck_eq (base : Word) (l : List Nat) : weightsCheck s base l = weightsCheck s' base l := by
  induction l with
  | nil => rfl
  | cons k rest ih => rw [weightsCheck, weightsCheck, ih, h.platform, h.mem]

theorem nonfiniteCheck_eq (base : Word) (kw kh : Nat) (factor bias : DWord) :
    nonfiniteCheck s base kw kh factor bias = nonfiniteCheck s' base kw kh factor bias := by
  rw [nonfiniteCheck, nonfiniteCheck, h.weightsCheck_eq]

/-- Validation finds the same fault, or none, in both states. -/
theorem validate_eq (i : Instr) : validate s i = validate s' i := by
  cases i with
  | halt => rfl
  | rgb2hsv | hsv2rgb =>
    simp only [validate, checkRgb2hsv, checkHsv2rgb, pixelStreamCheck, h.cpWrapCheck_eq, h.platform]
  | lerp | lutld | resize =>
    simp only [validate, checkLerp, checkLutld, checkResize, h.cpWrapCheck_eq, h.platform]
  | gamma => simp only [validate, checkGamma, h.cpWrapCheck_eq, h.platform, h.lutCheck_eq]
  | conv => simp only [validate, checkConv, h.cpWrapCheck_eq, h.platform, h.nonfiniteCheck_eq]

theorem allows_iff (accs : List Access) : s.allows accs ↔ s'.allows accs := by
  rw [State.allows, State.allows, h.platform]

/-! ### Updates keep the agreement -/

theorem advance : SameInputs s.advance s'.advance :=
  { h with cp := by simp [h.cp] }

theorem withMem {m m' : Memory} (hm : m = m') : SameInputs { s with mem := m } { s' with mem := m' } :=
  { h with mem := hm }

theorem withTable {l l' : List Byte} (hl : l = l') (valid : Bool) :
    SameInputs { s with lut := l, lutv := valid } { s' with lut := l', lutv := valid } :=
  { h with lut := hl, lutv := rfl }

theorem markOor (mark : Bool) : SameInputs (s.markOor mark) (s'.markOor mark) :=
  { h with oor := by simp [h.oor] }

/-- An end without a fault is the normal end, and it is so for both states. -/
theorem of_finish {accs : List Access} {fin fin' broken broken' t t' : State} (hfin : SameInputs fin fin')
    (ht : finish s accs fin broken = .next t) (ht' : finish s' accs fin' broken' = .next t') (herr : t.err = false) :
    SameInputs t t' := by
  rcases finish_cases ht with ⟨hallow, rfl⟩ | ⟨_, -, -, rfl⟩
  · rw [finish_of_allows _ _ ((h.allows_iff accs).mp hallow)] at ht'
    cases ht'
    exact hfin.advance
  · simp at herr

end SameInputs

/-- A fault raised is no completion. -/
theorem not_completes_of_raise {s t : State} {r : Raised}
    (ht : (.next (s.raise r) : Host.Outcome State Fault Refusal) = .next t) : t.err ≠ false := by
  cases ht
  simp

/-- A command that completes from one of two such states, and takes its step from the other, leaves two such states. -/
theorem exec_sameInputs {s s' t t' : State} {i : Instr} (h : SameInputs s s') (ht : exec i s = .next t)
    (ht' : exec i s' = .next t') (herr : t.err = false) : SameInputs t t' := by
  cases hv : validate s i with
  | some r =>
    rw [exec_of_invalid hv] at ht
    exact absurd herr (not_completes_of_raise ht)
  | none =>
    have hv' : validate s' i = none := (h.validate_eq i).symm.trans hv
    cases i <;> simp only [validate] at hv hv'
    case halt =>
      cases ht
      cases ht'
      exact { h with }
    case rgb2hsv dst src count =>
      simp only [exec, execRgb2hsv, hv, hv'] at ht ht'
      exact h.of_finish (h.withMem (by rw [h.mem])) ht ht' herr
    case hsv2rgb dst src count =>
      simp only [exec, execHsv2rgb, hv, hv'] at ht ht'
      exact h.of_finish (h.withMem (by rw [h.mem])) ht ht' herr
    case lerp dst srcA srcB count x =>
      simp only [exec, execLerp, hv, hv'] at ht ht'
      exact h.of_finish (by rw [h.mem]; exact (h.withMem rfl).markOor _) ht ht' herr
    case lutld src =>
      simp only [exec, execLutld, hv, hv'] at ht ht'
      have haccs : lutldAccesses s.platform.lutAddrBits src = lutldAccesses s'.platform.lutAddrBits src := by rw [h.platform]
      rw [haccs] at ht
      exact h.of_finish (h.withTable (by rw [h.mem, h.platform]) true) ht ht' herr
    case gamma dst src count =>
      simp only [exec, execGamma, hv, hv'] at ht ht'
      exact h.of_finish (h.withMem (by rw [h.mem, h.lut, h.platform])) ht ht' herr
    case resize dst dstW dstH src srcW srcH blur scratch =>
      have hend : blurPass s.platform dst dstW dstH scratch (resample dst dstW dstH src srcW srcH s.mem)
          = blurPass s'.platform dst dstW dstH scratch (resample dst dstW dstH src srcW srcH s'.mem) := by
        rw [h.mem, h.platform]
      simp only [exec, execResize, hv, hv', hend] at ht ht'
      split at ht
      next hb =>
        rw [if_pos hb] at ht'
        split at ht <;> rename_i hrun <;> simp only [hrun] at ht'
        · exact h.of_finish (h.withMem rfl) ht ht' herr
        · exact absurd herr (not_completes_of_raise ht)
        · exact absurd herr (not_completes_of_raise ht)
      next hb =>
        rw [if_neg hb] at ht'
        exact h.of_finish (h.withMem (by rw [h.mem])) ht ht' herr
    case conv dst src w hh kernel kw kh factor bias =>
      have hend : (convJob s.mem dst src w hh kernel kw kh factor bias).run s.platform s.mem
          = (convJob s'.mem dst src w hh kernel kw kh factor bias).run s'.platform s'.mem := by
        rw [h.mem, h.platform]
      simp only [exec, execConv, hv, hv', hend] at ht ht'
      split at ht <;> rename_i hrun <;> simp only [hrun] at ht'
      · cases ht
        cases ht'
        exact (h.withMem rfl).advance
      · exact absurd herr (not_completes_of_raise ht)
      · exact absurd herr (not_completes_of_raise ht)

/-- Settles O29, by a relation between two states that every completing command keeps. -/
theorem completionIsDeterministic : Obligations.CompletionIsDeterministic := by
  intro i s s' t t' hmem hlut hlutv hoor hcp hplat herr herr' ht ht' hterr
  have h : SameInputs s s' := ⟨hmem, hlut, hlutv, hoor, hcp, hplat, herr.trans herr'.symm⟩
  have hdone : SameInputs t t' := exec_sameInputs h ht ht' hterr
  exact ⟨hdone.err.symm.trans hterr, hdone.mem, hdone.lut, hdone.lutv, hdone.oor, hdone.cp⟩

end Sys2Proof.Machine
end

section
/-! PROOFS. What one move of an agent can leave (00_scope.md R15), and what every step keeps: the parameters, the invariant of
the registers, the form and the bounds of memory (10_state.md R38, R42, R50, R52, R54). -/

namespace Sys2Proof.Machine

/-! ### One move -/

/-- What one move from `s` can leave: the stopped core, a fault before any command, a command; `rst`; a host read, a host
write to a register, a host write to memory. -/
inductive Moves (s : State) : State → Prop
  | idle : Moves s s
  | fault (d : Desc) (r : Raised) (hb : s.busy = true) : Moves s ({ s with desc := d }.raise r)
  | command {d : Desc} {i : Instr} {t : State} (hb : s.busy = true) (h : exec i { s with desc := d } = .next t) : Moves s t
  | reset : Moves s s.resetCore
  | read (w : Word) (n : Nat) : Moves s { s with readData := w, freeCount := n }
  | ctrl {v : Word} (h31 : v.getLsbD 31 = false) (hb : s.busy = false) : Moves s (s.writeCtrl v)
  | cp (v : Word) : Moves s { s with cp := v }
  | irqEn (v : Word) : Moves s (s.writeIrqEn v)
  | memory {a : Nat} (lanes : BitVec 4) (v : Word) (ha : a + 4 ≤ 2 ^ 32) : Moves s { s with mem := s.mem.writeLanes a lanes v }

theorem coreTurn_moves {s t : State} (h : coreTurn s = .next t) : Moves s t := by
  cases hb : s.busy with
  | false =>
    rw [coreTurn_stopped hb] at h
    cases h
    exact .idle
  | true =>
    rw [coreTurn_running hb] at h
    rcases engineStep_cases s with ⟨r, -, hs⟩ | ⟨d, e, -, -, hs⟩ | ⟨d, i, -, -, hs⟩ <;> rw [hs] at h
    · cases h
      exact .fault s.desc r hb
    · cases h
      exact .fault d _ hb
    · exact .command hb h

theorem State.writeCtrl_reset {v : Word} (h31 : v.getLsbD 31 = true) (s : State) : s.writeCtrl v = s.resetCore := by
  simp [State.writeCtrl, h31]

theorem State.writeCtrl_running {s : State} {v : Word} (h31 : v.getLsbD 31 = false) (hb : s.busy = true) :
    s.writeCtrl v = s := by
  rw [State.writeCtrl, h31, hb]
  rfl

theorem State.writeCp_running {s : State} (hb : s.busy = true) (v : Word) : s.writeCp v = s := by
  simp [State.writeCp, hb]

theorem State.writeCp_stopped {s : State} (hb : s.busy = false) (v : Word) : s.writeCp v = { s with cp := v } := by
  simp [State.writeCp, hb]

theorem writeCtrl_moves (s : State) (v : Word) : Moves s (s.writeCtrl v) := by
  cases h31 : v.getLsbD 31 with
  | true =>
    rw [State.writeCtrl_reset h31]
    exact .reset
  | false =>
    cases hb : s.busy with
    | true =>
      rw [State.writeCtrl_running h31 hb]
      exact .idle
    | false => exact .ctrl h31 hb

theorem writeCp_moves (s : State) (v : Word) : Moves s (s.writeCp v) := by
  cases hb : s.busy with
  | true =>
    rw [State.writeCp_running hb]
    exact .idle
  | false =>
    rw [State.writeCp_stopped hb]
    exact .cp v

theorem writeReg_moves (s : State) (offset : BitVec 8) (v : Word) : Moves s (s.writeReg offset v) := by
  unfold State.writeReg
  split
  · exact writeCtrl_moves s v
  · exact writeCp_moves s v
  · exact .irqEn v
  · exact .idle

theorem takeTurn_moves {s t : State} {turn : Turn} (h : takeTurn turn s = .next t) : Moves s t := by
  cases turn <;> simp only [takeTurn] at h
  case core => exact coreTurn_moves h
  case rst =>
    cases h
    exact .reset
  case regRead =>
    split at h <;> cases h
    exact .read _ _
  case regWrite offset bytes v =>
    split at h <;> cases h
    exact writeReg_moves s offset v
  case memRead =>
    split at h <;> cases h
    rw [State.hostRead_eq]
    exact .read _ _
  case memWrite addr lanes v =>
    split at h
    · cases h
    split at h <;> cases h
    next hspace _ =>
      have haddr : addr < 2 ^ 32 := Nat.lt_of_not_le hspace
      exact .memory lanes v (by unfold wordAddr; omega)

/-- Every step is one move, after the schedule went on. -/
theorem step_moves {s t : State} (h : step s = .next t) : Moves { s with turns := s.turns.tail } t := by
  cases hturns : s.turns with
  | nil =>
    rw [step_of_no_turns hturns] at h
    rw [List.tail_nil, ← hturns]
    exact coreTurn_moves h
  | cons turn rest =>
    rw [step_of_turns hturns] at h
    exact takeTurn_moves h

/-! ### Commands and the registers -/

section Touches

variable {i : Instr} {s u : State} (h : Touches i s u)
include h

theorem Touches.busy : u.busy = s.busy := by rw [h.rest]

theorem Touches.done : u.done = s.done := by rw [h.rest]

theorem Touches.err : u.err = s.err := by rw [h.rest]

theorem Touches.errCode : u.errCode = s.errCode := by rw [h.rest]

theorem Touches.doneIe : u.doneIe = s.doneIe := by rw [h.rest]

theorem Touches.errIe : u.errIe = s.errIe := by rw [h.rest]

theorem Touches.platform : u.platform = s.platform := by rw [h.rest]

theorem Touches.turns : u.turns = s.turns := by rw [h.rest]

theorem Touches.readData : u.readData = s.readData := by rw [h.rest]

/-- The table keeps its size: LUTLD replaces it whole, the other commands leave it (R160, R164). -/
theorem Touches.lutSized (hs : s.lutSized) : u.lutSized := by
  rw [State.lutSized, h.platform]
  by_cases hi : ∃ src, i = .lutld src
  · obtain ⟨src, hi⟩ := hi
    exact h.lutSize src hi
  · rw [(h.lut fun src hsrc => hi ⟨src, hsrc⟩).1]
    exact hs

theorem Touches.consistent (hs : s.consistent) : u.consistent := by
  obtain ⟨hflags, hcode, hl⟩ := hs
  refine ⟨?_, ?_, h.lutSized hl⟩
  · rwa [State.flagsExclusive, h.busy, h.done, h.err]
  · rwa [State.errCodeMatches, h.err, h.errCode]

end Touches

/-- Settles O27, by the three ends of a command: HALT, a fault of validation, its own changes. -/
theorem commandsLeaveOtherRegistersAlone : Obligations.CommandsLeaveOtherRegistersAlone := by
  intro i s t h
  rcases exec_cases h with ⟨-, rfl⟩ | ⟨r, -, rfl⟩ | ⟨-, -, u, hu, hend⟩
  · exact ⟨rfl, rfl, rfl, rfl, rfl, fun _ => ⟨rfl, rfl⟩, fun _ => rfl, id⟩
  · exact ⟨rfl, rfl, rfl, rfl, rfl, fun _ => ⟨rfl, rfl⟩, fun _ => rfl, id⟩
  · rcases hend with rfl | ⟨r, -, rfl⟩ <;>
      exact ⟨hu.doneIe, hu.errIe, hu.platform, hu.turns, hu.readData, hu.lut, hu.oor, hu.oorKept⟩

/-- While BUSY the other two flags are 0 (R38). -/
theorem State.consistent.flags_running {s : State} (h : s.consistent) (hb : s.busy = true) : s.done = false ∧ s.err = false := by
  obtain ⟨⟨hbd, hbe, -⟩, -, -⟩ := h
  exact ⟨Bool.eq_false_iff.mpr fun hd => hbd ⟨hb, hd⟩, Bool.eq_false_iff.mpr fun he => hbe ⟨hb, he⟩⟩

/-- A fault of the running core leaves consistent registers (R245). -/
theorem State.consistent.raise {s : State} (hs : s.consistent) (hb : s.busy = true) (r : Raised) : (s.raise r).consistent := by
  obtain ⟨hd, -⟩ := hs.flags_running hb
  obtain ⟨-, -, hl⟩ := hs
  exact ⟨⟨by simp, by simp, by simp [hd]⟩, ⟨by simp, fun _ => r.cause.code_mem⟩, hl⟩

/-- A command of the running core keeps the registers consistent. -/
theorem exec_keeps_consistent {i : Instr} {s t : State} (h : exec i s = .next t) (hb : s.busy = true) (hs : s.consistent) :
    t.consistent := by
  rcases exec_cases h with ⟨-, rfl⟩ | ⟨r, -, rfl⟩ | ⟨-, -, u, hu, rfl | ⟨r, -, rfl⟩⟩
  · obtain ⟨-, he⟩ := hs.flags_running hb
    obtain ⟨-, hcode, hl⟩ := hs
    exact ⟨⟨by simp, by simp, by simp [he]⟩, hcode, hl⟩
  · exact hs.raise hb r
  · exact hu.consistent hs
  · exact (hu.consistent hs).raise (hu.busy.trans hb) r

/-! ### Reset and the registers -/

theorem freeLut_length (p : Platform) (k : Nat) : (freeLut p k).length = 2 ^ p.lutAddrBits := by simp [freeLut]

theorem State.abandon_platform (s : State) : s.abandon.platform = s.platform := by rw [s.abandon_eq]

theorem State.resetCore_platform (s : State) : s.resetCore.platform = s.platform := s.abandon_platform

theorem State.consistent_resetCore (s : State) : s.resetCore.consistent :=
  ⟨⟨by simp [State.resetCore], by simp [State.resetCore], by simp [State.resetCore]⟩,
    ⟨fun _ => rfl, by simp [State.resetCore]⟩, freeLut_length _ _⟩

/-! ### A write to `CTRL` and the registers -/

theorem State.consistent.ite {c : Prop} [Decidable c] {s t : State} (hs : s.consistent) (ht : t.consistent) :
    (if c then s else t).consistent := iteInduction (motive := State.consistent) (fun _ => hs) (fun _ => ht)

section Consistent

variable {s : State} (hs : s.consistent)
include hs

theorem State.consistent.clearErr : s.clearErr.consistent := by
  obtain ⟨⟨hbd, -, -⟩, -, hl⟩ := hs
  exact ⟨⟨hbd, by simp, by simp⟩, ⟨fun _ => rfl, by simp⟩, hl⟩

theorem State.consistent.clearDone : { s with done := false }.consistent := by
  obtain ⟨⟨-, hbe, -⟩, hcode, hl⟩ := hs
  exact ⟨⟨by simp, hbe, by simp⟩, hcode, hl⟩

/-- START is accepted only with no error pending, and clears DONE (R37). -/
theorem State.consistent.start : s.start.consistent := by
  unfold State.start
  split
  · exact hs
  next herr =>
    obtain ⟨-, hcode, hl⟩ := hs
    exact ⟨⟨by simp, by simp [herr], by simp⟩, hcode, hl⟩

theorem State.consistent.clearOor : { s with oor := false }.consistent := hs

/-- A write to `CTRL` keeps the registers consistent, because each of its effects does. -/
theorem State.consistent.writeCtrl (v : Word) : (s.writeCtrl v).consistent := by
  have hclearErr := hs.clearErr.ite (c := v.getLsbD 2) hs
  have hclearDone := hclearErr.clearDone.ite (c := v.getLsbD 1) hclearErr
  have hclearOor := hclearDone.clearOor.ite (c := v.getLsbD 3) hclearDone
  have hstart := hclearOor.start.ite (c := v.getLsbD 0) hclearOor
  exact s.consistent_resetCore.ite (hs.ite hstart)

end Consistent

/-! ### What every step keeps -/

theorem Moves.platform {s t : State} (h : Moves s t) : t.platform = s.platform := by
  cases h with
  | command hb h =>
    obtain ⟨-, -, hplat, -⟩ := commandsLeaveOtherRegistersAlone _ _ _ h
    exact hplat
  | reset => exact s.resetCore_platform
  | ctrl h31 hb => rw [State.writeCtrl_stopped h31 hb]
  | idle | fault | read | cp | irqEn | memory => rfl

theorem Moves.consistent {s t : State} (h : Moves s t) (hs : s.consistent) : t.consistent := by
  cases h with
  | fault d r hb => exact State.consistent.raise (s := { s with desc := d }) hs hb r
  | command hb h => exact exec_keeps_consistent h hb hs
  | reset => exact s.consistent_resetCore
  | ctrl => exact hs.writeCtrl _
  | idle | read | cp | irqEn | memory => exact hs

/-- Settles O22, by the moves. -/
theorem stepKeepsRegistersConsistent : Obligations.StepKeepsRegistersConsistent := fun _ _ h =>
  ⟨(step_moves h).platform, fun hs => (step_moves h).consistent hs⟩

/-- A byte of a written region of a validated command lies in the address space (R85). -/
theorem writtenRegions_inSpace {i : Instr} {s : State} (hv : validate s i = none) :
    ∀ r ∈ writtenRegions i, ∀ x, r.has x → x < 2 ^ 32 := by
  intro r hr x hx
  have hrange := validate_inRange hv r (List.mem_append_right _ hr)
  exact Nat.lt_of_lt_of_le hx.2 hrange

/-- What every byte write inside the address space keeps, a command keeps: it writes only after RANGE has passed (R85). -/
theorem exec_keeps_mem {P : Memory → Prop} (hP : Memory.Kept P (· < 2 ^ 32)) {i : Instr} {s t : State}
    (h : exec i s = .next t) (hm : P s.mem) : P t.mem := by
  rcases exec_cases h with ⟨-, rfl⟩ | ⟨r, -, rfl⟩ | ⟨-, hv, u, hu, hend⟩
  · exact hm
  · exact hm
  · have hum : P u.mem := hu.mem P (· < 2 ^ 32) hP (writtenRegions_inSpace hv) hm
    rcases hend with rfl | ⟨r, -, rfl⟩ <;> exact hum

/-- So does reset, which writes only into the regions of a validated command (R283). -/
theorem State.abandon_keeps_mem {P : Memory → Prop} (hP : Memory.Kept P (· < 2 ^ 32)) {s : State} (hm : P s.mem) :
    P s.abandon.mem := by
  unfold State.abandon
  split
  · exact hm
  next i hi => exact State.havoc_keeps hP (writtenRegions_inSpace (commandInProgress_valid hi).2) hm

theorem Moves.keeps_mem {P : Memory → Prop} (hP : Memory.Kept P (· < 2 ^ 32)) {s t : State} (h : Moves s t) (hm : P s.mem) :
    P t.mem := by
  cases h with
  | command hb h => exact exec_keeps_mem hP h hm
  | reset => exact State.abandon_keeps_mem hP hm
  | ctrl h31 hb =>
    rw [State.writeCtrl_stopped h31 hb]
    exact hm
  | memory lanes v ha => exact Memory.writeLanes_keeps hP (fun x _ hx => by omega) hm
  | idle | fault | read | cp | irqEn => exact hm

/-- Settles O23: a byte write keeps the canonical form. -/
theorem stepKeepsMemoryCanonical : Obligations.StepKeepsMemoryCanonical := fun _ _ hm h =>
  (step_moves h).keeps_mem (Memory.kept_wf _) hm

/-- Settles O24: a byte write at an address of the space keeps memory inside it. -/
theorem stepKeepsMemoryInSpace : Obligations.StepKeepsMemoryInSpace := fun _ _ hm h =>
  (step_moves h).keeps_mem (Memory.kept_cells _) hm

/-- Settles O25: the registers by their values at reset, memory by having no byte listed. -/
theorem resetMeetsTheInvariants : Obligations.ResetMeetsTheInvariants :=
  ⟨rfl, rfl, rfl, rfl, rfl, rfl, rfl, ⟨⟨by decide, by decide, by decide⟩, ⟨fun _ => rfl, by decide⟩, List.length_replicate⟩,
    State.wf_reset, fun _ hc => absurd hc List.not_mem_nil⟩

end Sys2Proof.Machine
end

section
/-! PROOFS. The register window and reset (10_state.md R34 to R46, 70_reset_and_hazards.md R280 to R283), the moves of the host
that stop the model, and GAMMA without a table (42_gamma_lut.md R163). -/

namespace Sys2Proof.Machine

/-! ### The words of the registers -/

/-- `STATUS` bit by bit (R38). -/
theorem flagWord_bits : ∀ busy done err lutv oor : Bool,
    let w := BitVec.ofNat 32 (busy.toNat + 2 * done.toNat + 4 * err.toNat + 8 * lutv.toNat + 16 * oor.toNat)
    w.getLsbD 0 = busy ∧ w.getLsbD 1 = done ∧ w.getLsbD 2 = err ∧ w.getLsbD 3 = lutv ∧ w.getLsbD 4 = oor ∧ w >>> 5 = 0 := by
  decide

/-- `IRQ_EN` bit by bit (R41). -/
theorem enableWord_bits : ∀ doneIe errIe : Bool,
    let w := BitVec.ofNat 32 (doneIe.toNat + 2 * errIe.toNat)
    w.getLsbD 0 = doneIe ∧ w.getLsbD 1 = errIe ∧ w >>> 2 = 0 := by
  decide

/-- The two lowest bits of a word as the number they make. -/
theorem toNat_low_bits (v : Word) : (v.getLsbD 0).toNat + 2 * (v.getLsbD 1).toNat = v.toNat % 4 := by
  simp only [BitVec.getLsbD, Nat.toNat_testBit]
  omega

/-- A write to `IRQ_EN` is read back in bits 0 and 1 (R41). -/
theorem State.irqEnWord_writeIrqEn (s : State) (v : Word) : (s.writeIrqEn v).irqEnWord = v &&& 3 := by
  apply BitVec.eq_of_toNat_eq
  have hmask : v.toNat &&& 3 = v.toNat % 4 := Nat.and_two_pow_sub_one_eq_mod v.toNat 2
  have hlt : v.toNat % 4 < 2 ^ 32 := by omega
  simp only [State.irqEnWord, State.writeIrqEn_doneIe, State.writeIrqEn_errIe, toNat_low_bits, BitVec.toNat_ofNat,
    BitVec.toNat_and]
  rw [Nat.mod_eq_of_lt hlt]
  exact hmask.symm

theorem configWord_eq (L : Nat) : configWord L = 0x00010A00 + BitVec.ofNat 32 L := by
  rw [configWord, Nat.add_assoc, Nat.add_comm, BitVec.ofNat_add]
  rfl

/-- Registers from offset 0x24 on read 0 (R45). -/
theorem State.readReg_reserved (s : State) {offset : BitVec 8} (h : 0x24 ≤ offset.toNat) : s.readReg offset = 0 := by
  unfold State.readReg
  split
  case h_9 => rfl
  all_goals omega

/-- A write to an offset other than those of `CTRL`, `CP` and `IRQ_EN` is ignored (R45). -/
theorem State.writeReg_ignored (s : State) {offset : BitVec 8} (v : Word) (hctrl : offset ≠ 0x08) (hcp : offset ≠ 0x10)
    (hirq : offset ≠ 0x14) : s.writeReg offset v = s := by
  have other {k : BitVec 8} (h : offset ≠ k) : offset.toNat ≠ k.toNat := fun he => h (BitVec.eq_of_toNat_eq he)
  unfold State.writeReg
  split
  next h => exact absurd h (other hctrl)
  next h => exact absurd h (other hcp)
  next h => exact absurd h (other hirq)
  next => rfl

/-! ### Register accesses as steps -/

theorem step_regRead {s : State} {offset : BitVec 8} {rest : List Turn} (hturns : s.turns = .regRead offset 4 :: rest)
    (h : offset.toNat % 4 = 0) : step s = .next { s with turns := rest, readData := s.readReg offset } := by
  rw [step_of_turns hturns, takeTurn_regRead h]
  rfl

theorem step_regWrite {s : State} {offset : BitVec 8} {v : Word} {rest : List Turn}
    (hturns : s.turns = .regWrite offset 4 v :: rest) (h : offset.toNat % 4 = 0) :
    step s = .next ({ s with turns := rest }.writeReg offset v) := by
  rw [step_of_turns hturns, takeTurn_regWrite h]

/-- Settles O51: the four effects of a write to `CTRL` of the stopped core at once. -/
theorem ctrlWriteActsInOrder : Obligations.CtrlWriteActsInOrder := by
  intro s v rest hturns u
  have hstep : step s = .next (u.writeCtrl v) := step_regWrite hturns rfl
  refine ⟨fun h31 => ?_, fun h31 hb => ?_, fun h31 hb => ?_, rfl⟩
  · exact hstep.trans (congrArg _ (State.writeCtrl_reset h31 u))
  · exact hstep.trans (congrArg _ (State.writeCtrl_running (s := u) h31 hb))
  · exact hstep.trans (congrArg _ (State.writeCtrl_stopped (s := u) h31 hb))

/-- Settles O53, by offset. -/
theorem registerWritesFollowTheMap : Obligations.RegisterWritesFollowTheMap := by
  intro s v rest
  refine ⟨fun hturns => ?cp, fun hturns => ?irqEn, fun offset hturns halign hctrl hcp hirq => ?other⟩
  case cp =>
    have hstep : step s = .next ({ s with turns := rest }.writeCp v) := step_regWrite hturns rfl
    exact ⟨fun hb => hstep.trans (congrArg _ (State.writeCp_running (s := { s with turns := rest }) hb v)),
      fun hb => hstep.trans (congrArg _ (State.writeCp_stopped (s := { s with turns := rest }) hb v))⟩
  case irqEn =>
    refine ⟨_, step_regWrite hturns rfl, rfl, State.irqEnWord_writeIrqEn _ v, ?_⟩
    show ((s.done && v.getLsbD 0) || (s.err && v.getLsbD 1)) = true ↔ _
    rw [Bool.or_eq_true, Bool.and_eq_true, Bool.and_eq_true]
  case other => rw [step_regWrite hturns halign, State.writeReg_ignored _ v hctrl hcp hirq]

/-- Settles O54, by offset. -/
theorem registerReadsReturnTheMap : Obligations.RegisterReadsReturnTheMap := by
  intro s offset rest hturns halign
  refine ⟨_, step_regRead hturns halign, rfl, ?id, ?config, ?ctrl, ?status, ?cp, ?irqEn, ?errCode, ?errCp, ?errInfo,
    s.readReg_reserved⟩
  case config => rintro rfl; exact configWord_eq _
  case status => rintro rfl; exact flagWord_bits s.busy s.done s.err s.lutv s.oor
  case irqEn => rintro rfl; exact enableWord_bits s.doneIe s.errIe
  all_goals rintro rfl; rfl

/-! ### Reset -/

theorem step_reset {s : State} {v : Word} {rest : List Turn}
    (h : s.turns = .rst :: rest ∨ (s.turns = .regWrite 0x08 4 v :: rest ∧ v.getLsbD 31 = true)) :
    step s = .next { s with turns := rest }.resetCore := by
  rcases h with hturns | ⟨hturns, h31⟩
  · rw [step_of_turns hturns]
    rfl
  · have hstep : step s = .next ({ s with turns := rest }.writeCtrl v) := step_regWrite hturns rfl
    rw [hstep, State.writeCtrl_reset h31]

/-- Settles O52: the registers by their values after reset, memory by what is abandoned. -/
theorem resetGivesTheResetValues : Obligations.ResetGivesTheResetValues := by
  intro s v rest h
  have hidle : commandInProgress { s with turns := rest } = none →
      ({ s with turns := rest } : State).resetCore.mem = s.mem := by
    intro hnone
    rw [State.resetCore, State.clearRegisters_mem, State.abandon_none hnone]
  refine ⟨_, step_reset h, rfl, rfl, rfl, rfl, rfl, rfl, rfl, State.resetCore_platform _, ?lut, ?turns,
    fun hb => hidle (commandInProgress_stopped hb), fun i hi => State.sameOutside_abandon hi, hidle⟩
  case lut => exact (freeLut_length _ _).trans (by rw [State.abandon_platform])
  case turns =>
    show State.turns (State.abandon _) = rest
    rw [State.abandon_eq]

/-! ### Where the model stops -/

/-- Settles O57: a register access by its alignment, a write in flight by the running list, an address by the space. -/
theorem hostMovesThatStop : Obligations.HostMovesThatStop := by
  refine ⟨fun s offset bytes v rest hbad hturns => ?register, fun s u k addr lanes v rest haddr hturns hu hmeets => ?inFlight,
    fun s addr lanes v rest haddr hturns => ?space⟩
  case register =>
    have hnot : ¬aligned32 offset bytes = true := by
      rw [aligned32_iff]
      tauto
    rcases hturns with hturns | hturns <;> rw [step_of_turns hturns, takeTurn, if_neg hnot]
  case inFlight =>
    have hflight : ({ s with turns := rest } : State).inFlight (wordAddr addr) = true :=
      (State.inFlight_iff _ _).mpr ⟨k, u, hu, hmeets⟩
    have hspace : ¬Config.spaceBytes ≤ addr := Nat.not_le_of_lt haddr
    rw [step_of_turns hturns, takeTurn, if_neg hspace, if_pos hflight]
  case space =>
    rcases hturns with hturns | hturns <;> rw [step_of_turns hturns, takeTurn]
    · exact if_neg (Nat.not_lt_of_le haddr)
    · exact if_pos haddr

/-! ### GAMMA without a table -/

theorem lutCheck_unloaded {s : State} (h : s.lutv = false) : lutCheck s = some ⟨.lutInvalid, 0⟩ := by simp [lutCheck, h]

/-- Settles O17: every check before LUT_INVALID passes. -/
theorem gammaNeedsALoadedTable : Obligations.GammaNeedsALoadedTable := by
  intro s dst src count hlutv htop hsrc hdst hsrcEnd hdstEnd hapart
  have hcp : cpWrapCheck s = none := (cpWrapCheck_eq_none_iff s).mpr htop
  have halign : alignCheck [(src, 8), (dst, 4)] = none := by simp [alignCheck_eq_none_iff, hsrc, hdst]
  have hrange : regionCheck s.platform.lutAddrBits (.gamma dst src count) = none := by
    simp only [regionCheck, readRegions, writtenRegions, rangeCheck_eq_none_iff, List.cons_append, List.nil_append,
      List.forall_mem_cons]
    exact ⟨hsrcEnd, hdstEnd, by simp⟩
  have halias : aliasCheck ((recRegion src count).overlaps (pixRegion dst count)) dst = none :=
    (aliasCheck_eq_none_iff _ _).mpr hapart
  have hinvalid : validate s (.gamma dst src count) = some ⟨.lutInvalid, 0⟩ := by
    simp only [validate, checkGamma, hcp, halign, hrange, halias, lutCheck_unloaded hlutv, orElse_none_left]
  exact ⟨_, exec_of_invalid hinvalid, s.faulted_raise ⟨.lutInvalid, 0⟩⟩

end Sys2Proof.Machine
end

section
/-! PROOFS. Validation of every command as one list of checks in the order of 60_exceptions.md R250: CP_WRAP, ALIGN, the sizes,
RANGE, ALIAS, the contents of table and kernel. Each check of the model is tied to what the spec's tables say of the command
(20_memory.md R80, R85, R86). -/

namespace Sys2Proof.Machine

/-! ### The checks by command -/

/-- The checks 5 to 8 of R250: DIM, UPSAMPLE, NULL_SCRATCH, KERNEL_SIZE, where the command has them. -/
def sizesCheck : Instr → Option Raised
  | .resize _ dstW dstH _ srcW srcH blur scratch =>
    dimCheck 0 [srcW, srcH, dstW, dstH] <|> upsampleCheck srcW srcH dstW dstH <|> scratchCheck (blurs blur) scratch
      <|> if blurs blur then kernelFitCheck dstW dstH 5 5 else none
  | .conv _ _ w h _ kw kh _ _ => dimCheck 0 [w, h, kw, kh] <|> kernelSizeCheck w h kw kh
  | _ => none

/-- The overlap that the model looks for before it raises ALIAS. -/
def overlapFound : Instr → Bool
  | .rgb2hsv dst src count => (pixRegion src count).overlaps (pixRegion dst count) && src != dst
  | .hsv2rgb dst src count => (pixRegion src count).overlaps (pixRegion dst count) && src != dst
  | .lerp dst srcA srcB count _ =>
    ((pixRegion srcA count).overlaps (pixRegion dst count) && srcA != dst)
      || ((pixRegion srcB count).overlaps (pixRegion dst count) && srcB != dst)
  | .gamma dst src count => (recRegion src count).overlaps (pixRegion dst count)
  | .resize dst dstW dstH src srcW srcH blur scratch =>
    (pixRegion src (srcW * srcH)).overlaps (pixRegion dst (dstW * dstH))
      || (blurs blur && ((pixRegion src (srcW * srcH)).overlaps (pixRegion scratch (dstW * dstH))
        || (pixRegion dst (dstW * dstH)).overlaps (pixRegion scratch (dstW * dstH))))
  | .conv dst src w h kernel kw kh _ _ =>
    (pixRegion dst (w * h)).overlaps (recRegion kernel (kw * kh))
      || ((pixRegion src (w * h)).overlaps (pixRegion dst (w * h)) && !(kw == 1 && kh == 1 && src == dst))
  | _ => false

/-- ALIAS (R86), by command. -/
def overlapCheck (i : Instr) : Option Raised := (destinationOf i).bind fun dst => aliasCheck (overlapFound i) dst

/-- The checks 11 and 12 of R250: NONFINITE with the kernel read before it, and LUT_INVALID, where the command has them. -/
def contentsCheck (s : State) : Instr → Option Raised
  | .gamma _ _ _ => lutCheck s
  | .conv _ _ _ _ kernel kw kh factor bias => nonfiniteCheck s kernel kw kh factor bias
  | _ => none

theorem orElse_none_right (c : Option Raised) : (c <|> none) = c := by cases c <;> rfl

theorem orElse_assoc (c d e : Option Raised) : ((c <|> d) <|> e) = (c <|> d <|> e) := by cases c <;> rfl

theorem blurs_iff (blur : Int) : blurs blur = true ↔ 0 < blur := decide_eq_true_iff

/-- The addresses that ALIGN of RESIZE looks at are those of R80. -/
theorem alignedAddresses_resize (dst : Word) (dstW dstH : Nat) (src : Word) (srcW srcH : Nat) (blur : Int) (scratch : Word) :
    alignedAddresses (.resize dst dstW dstH src srcW srcH blur scratch)
      = [(src, 4), (dst, 4)] ++ if blurs blur then [(scratch, 4)] else [] := by
  by_cases h : 0 < blur <;> simp [alignedAddresses, blurs, h]

/-- Validation of a command other than HALT is the checks of R250 in their order. -/
theorem validate_eq_checks (s : State) {i : Instr} (hi : i ≠ .halt) :
    validate s i = (cpWrapCheck s <|> alignCheck (alignedAddresses i) <|> sizesCheck i
      <|> regionCheck s.platform.lutAddrBits i <|> overlapCheck i <|> contentsCheck s i) := by
  cases i with
  | halt => exact absurd rfl hi
  | rgb2hsv | hsv2rgb | lerp | lutld =>
    simp only [validate, checkRgb2hsv, checkHsv2rgb, pixelStreamCheck, checkLerp, checkLutld, alignedAddresses, sizesCheck,
      overlapCheck, destinationOf, overlapFound, contentsCheck, Option.bind_some, Option.bind_none, orElse_none_left,
      orElse_none_right]
  | gamma => rfl
  | resize =>
    simp only [validate, checkResize, alignedAddresses_resize, sizesCheck, overlapCheck, destinationOf, overlapFound,
      contentsCheck, Option.bind_some, orElse_assoc, orElse_none_right]
  | conv =>
    simp only [validate, checkConv, alignedAddresses, sizesCheck, overlapCheck, destinationOf, overlapFound, contentsCheck,
      Option.bind_some, orElse_assoc]

/-! ### What each check says of the command -/

/-- The read regions are those of the table of R85. -/
theorem readRegions_eq_table (L : Nat) (i : Instr) : readRegions L i = (regionTable L i).1 := by cases i <;> rfl

/-- The written regions are those of the table of R85. -/
theorem writtenRegions_eq_table (L : Nat) (i : Instr) : writtenRegions i = (regionTable L i).2 := by
  cases i with
  | resize dst dstW dstH src srcW srcH blur scratch =>
    by_cases h : 0 < blur <;> simp [writtenRegions, regionTable, blurs, pixRegion, h]
  | _ => rfl

theorem regionCheck_eq_table (L : Nat) (i : Instr) : regionCheck L i = rangeCheck (regionsOf L i) := by
  rw [regionCheck, readRegions_eq_table, writtenRegions_eq_table L, regionsOf]

/-- The checks of the extents pass exactly when the sizes are legal (R184, R188, R203). -/
theorem sizesCheck_eq_none_iff (i : Instr) : sizesCheck i = none ↔ sizesLegal i := by
  cases i with
  | halt | rgb2hsv | hsv2rgb | lerp | lutld | gamma => exact iff_of_true rfl trivial
  | resize dst dstW dstH src srcW srcH blur scratch =>
    have hfit : (if 0 < blur then kernelFitCheck dstW dstH 5 5 else none) = none ↔ (0 < blur → 2 ≤ dstW ∧ 2 ≤ dstH) := by
      split <;> simp [kernelFitCheck_eq_none_iff, *]
    simp only [sizesCheck, orElse_eq_none_iff, dimCheck_eq_none_iff, upsampleCheck_eq_none_iff, scratchCheck_eq_none_iff, blurs_iff,
      hfit, sizesLegal, legalAxis, List.forall_mem_cons, List.not_mem_nil, false_implies, implies_true]
    tauto
  | conv dst src w h kernel kw kh factor bias =>
    simp only [sizesCheck, orElse_eq_none_iff, dimCheck_eq_none_iff, kernelSizeCheck_eq_none_iff, sizesLegal,
      List.forall_mem_cons, List.not_mem_nil, false_implies, implies_true]
    tauto

/-- The overlap looked for is the one that R86 forbids. -/
theorem overlapFound_iff (i : Instr) : overlapFound i = true ↔ forbiddenOverlap i := by
  cases i with
  | halt | lutld => simp [overlapFound, forbiddenOverlap]
  | _ =>
    simp only [overlapFound, forbiddenOverlap, pixRegion, recRegion, Bool.or_eq_true, Bool.and_eq_true, Bool.not_eq_true',
      Region.overlaps_iff_meets, bne_iff_ne, beq_iff_eq, blurs_iff, ne_eq, ← Bool.not_eq_true, and_assoc]

theorem overlapCheck_of_forbidden {i : Instr} {dst : Word} (hf : forbiddenOverlap i) (hd : destinationOf i = some dst) :
    overlapCheck i = some ⟨.aliased, dst⟩ := by
  rw [overlapCheck, hd, Option.bind_some, aliasCheck, if_pos ((overlapFound_iff i).mpr hf)]

theorem overlapCheck_of_not_forbidden {i : Instr} (hf : ¬forbiddenOverlap i) : overlapCheck i = none := by
  rw [overlapCheck, Bool.eq_false_iff.mpr fun h => hf ((overlapFound_iff i).mp h)]
  cases destinationOf i <;> rfl

/-- The weights raise NONFINITE or BUS and nothing else (R207). -/
theorem weightsCheck_cause {s : State} {base : Word} {l : List Nat} {r : Raised} (h : weightsCheck s base l = some r) :
    r.cause = .nonfinite ∨ r.cause = .bus := by
  induction l with
  | nil => cases h
  | cons k l ih =>
    rw [weightsCheck] at h
    split at h
    · split at h
      · exact ih h
      · exact .inl (Option.some.inj h ▸ rfl)
    · exact .inr (Option.some.inj h ▸ rfl)

/-- The checks of contents raise LUT_INVALID, NONFINITE or BUS and nothing else. -/
theorem contentsCheck_cause {s : State} {i : Instr} {r : Raised} (h : contentsCheck s i = some r) :
    r.cause ∈ [.lutInvalid, .nonfinite, .bus] := by
  cases i with
  | gamma =>
    simp only [contentsCheck, lutCheck] at h
    split at h
    · cases h
    · exact Option.some.inj h ▸ by decide
  | conv =>
    simp only [contentsCheck, nonfiniteCheck] at h
    split at h
    · exact Option.some.inj h ▸ by decide
    · split at h
      · exact Option.some.inj h ▸ by decide
      · rcases weightsCheck_cause h with hc | hc <;> rw [hc] <;> decide
  | _ => cases h

/-! ### The first check that fails -/

section FirstFailure

variable {s : State} {i : Instr} (hi : i ≠ .halt) (htop : s.cp ≠ 0xFFFFFFC0)
include hi htop

/-- Below the last slot ALIGN comes first. -/
theorem validate_of_misaligned {r : Raised} (h : alignCheck (alignedAddresses i) = some r) : validate s i = some r := by
  rw [validate_eq_checks s hi, (cpWrapCheck_eq_none_iff s).mpr htop, h]
  rfl

/-- With the addresses aligned and the sizes legal RANGE comes next, then ALIAS, then the contents. -/
theorem validate_of_sized (halign : ∀ p ∈ alignedAddresses i, p.1.toNat % p.2 = 0) (hsizes : sizesLegal i) :
    validate s i = (rangeCheck (regionsOf s.platform.lutAddrBits i) <|> overlapCheck i <|> contentsCheck s i) := by
  rw [validate_eq_checks s hi, (cpWrapCheck_eq_none_iff s).mpr htop, (alignCheck_eq_none_iff _).mpr halign,
    (sizesCheck_eq_none_iff i).mpr hsizes, regionCheck_eq_table]
  rfl

end FirstFailure

/-- What validation finds is the fault a command leaves, precisely (R246). -/
theorem exec_faulted {i : Instr} {s : State} {r : Raised} (h : validate s i = some r) :
    ∃ t, exec i s = .next t ∧ s.faulted r.cause.code r.info t :=
  ⟨_, exec_of_invalid h, s.faulted_raise r⟩

/-- Settles O16: the first misaligned address is the one ALIGN reports. -/
theorem misalignedAddressFaultsFirst : Obligations.MisalignedAddressFaultsFirst := by
  intro i s before after addr n htop hsplit hbefore hbad
  have hi : i ≠ .halt := by
    rintro rfl
    exact absurd hsplit.symm (List.append_ne_nil_of_right_ne_nil _ (List.cons_ne_nil _ _))
  have hfirst : alignCheck (alignedAddresses i) = some ⟨.align, addr⟩ := hsplit ▸ alignCheck_first hbefore hbad after
  exact exec_faulted (validate_of_misaligned hi htop hfirst)

/-- Settles O58: RANGE by the first region out of range, ALIAS by the forbidden overlap, and past both only the contents. -/
theorem rangeAndAliasAreChecked : Obligations.RangeAndAliasAreChecked := by
  intro i s
  refine ⟨readRegions_eq_table _ i, writtenRegions_eq_table _ i, fun htop halign hsizes => ?_⟩
  by_cases hi : i = .halt
  case pos =>
    subst hi
    exact ⟨fun before r after h => absurd h.symm (List.append_ne_nil_of_right_ne_nil _ (List.cons_ne_nil _ _)),
      fun _ => ⟨False.elim, fun _ r h => nomatch h⟩⟩
  case neg =>
    have hvalidate := validate_of_sized hi htop halign hsizes
    refine ⟨fun before r after hsplit hbefore hbad => ?range, fun hrange => ⟨fun hf dst hd => ?overlap, fun hf r hr => ?contents⟩⟩
    case range =>
      refine exec_faulted (r := ⟨.range, BitVec.ofNat 32 r.base⟩) ?_
      rw [hvalidate, hsplit, rangeCheck_first hbefore hbad, orElse_some_left]
    case overlap =>
      refine exec_faulted (r := ⟨.aliased, dst⟩) ?_
      rw [hvalidate, (rangeCheck_eq_none_iff _).mpr hrange, overlapCheck_of_forbidden hf hd, orElse_none_left, orElse_some_left]
    case contents =>
      rw [hvalidate, (rangeCheck_eq_none_iff _).mpr hrange, overlapCheck_of_not_forbidden hf, orElse_none_left,
        orElse_none_left] at hr
      exact contentsCheck_cause hr

end Sys2Proof.Machine
end

section
/-! PROOFS. What a command may touch (20_memory.md R85): the bytes it changes lie in its written regions, the bytes of its
accesses in its regions. -/

namespace Sys2Proof.Machine

/-! ### The bytes a command changes -/

/-- What a validated command changes of memory lies in its written regions. -/
theorem Touches.sameOutside {i : Instr} {s u : State} (h : Touches i s u) : s.mem.sameOutside u.mem (writtenRegions i) := by
  intro a ha
  have havoids : ∀ r ∈ writtenRegions i, ∀ x, r.has x → x ≠ a := fun r hr x hx hxa => ha r hr (hxa ▸ hx)
  exact h.mem _ _ (Memory.kept_read a (s.mem.read a)) havoids rfl

/-- Settles O26: HALT and a fault of validation change no byte; a validated command changes its written regions, and raising
an imprecise fault no byte more. -/
theorem commandsWriteOnlyTheirRegions : Obligations.CommandsWriteOnlyTheirRegions := by
  intro i s t h
  rcases exec_cases h with ⟨-, rfl⟩ | ⟨r, -, rfl⟩ | ⟨-, -, u, hu, hend⟩
  · exact Memory.sameOutside_refl _ _
  · exact Memory.sameOutside_refl _ _
  · rcases hend with rfl | ⟨r, -, rfl⟩ <;> exact hu.sameOutside

/-! ### The bytes of an access -/

/-- All bytes of the access lie in the region. -/
def Access.inside (a : Access) (r : Region) : Prop := r.base ≤ a.addr ∧ a.addr + a.bytes ≤ r.base + r.size

/-- A read lies in one of the regions `readable`, any other access in one of `writable`. -/
def Access.stays (readable writable : List Region) (a : Access) : Prop :=
  ∃ r, r ∈ (if a.kind = .read then readable else writable) ∧ a.inside r

theorem Access.inside.has {a : Access} {r : Region} (h : a.inside r) {x : Nat} (hlo : a.addr ≤ x)
    (hhi : x < a.addr + a.bytes) : r.has x :=
  ⟨Nat.le_trans h.1 hlo, Nat.lt_of_lt_of_le hhi h.2⟩

section Accesses

variable {readable writable : List Region} {base : Word} {n k : Nat}

theorem readPix_stays (hr : pixRegion base n ∈ readable) (hk : k < n) : (readPix base k).stays readable writable :=
  ⟨_, hr, Nat.le_add_right _ _, by simp only [readPix, pixRegion, pixAddr]; omega⟩

theorem writePix_stays (hw : pixRegion base n ∈ writable) (hk : k < n) : (writePix base k).stays readable writable :=
  ⟨_, hw, Nat.le_add_right _ _, by simp only [writePix, pixRegion, pixAddr]; omega⟩

theorem readRec_stays (hr : recRegion base n ∈ readable) (hk : k < n) : (readRec base k).stays readable writable :=
  ⟨_, hr, Nat.le_add_right _ _, by simp only [readRec, recRegion, recAddr]; omega⟩

theorem readByteOf_stays (hr : ⟨base.toNat, n⟩ ∈ readable) (hk : k < n) : (readByteOf base k).stays readable writable :=
  ⟨_, hr, Nat.le_add_right _ _, by simp only [readByteOf]; omega⟩

/-! ### The accesses of the loops -/

variable {dst src : Word}

theorem pixelStreamAccesses_stay (hr : pixRegion src n ∈ readable) (hw : pixRegion dst n ∈ writable) :
    ∀ a ∈ pixelStreamAccesses dst src n, a.stays readable writable := by
  simp only [pixelStreamAccesses, List.forall_mem_flatMap, List.mem_range, List.forall_mem_cons]
  exact fun k hk => ⟨readPix_stays hr hk, writePix_stays hw hk, by simp⟩

theorem lerpAccesses_stay {srcA srcB : Word} (hA : pixRegion srcA n ∈ readable) (hB : pixRegion srcB n ∈ readable)
    (hw : pixRegion dst n ∈ writable) : ∀ a ∈ lerpAccesses dst srcA srcB n, a.stays readable writable := by
  simp only [lerpAccesses, List.forall_mem_flatMap, List.mem_range, List.forall_mem_cons]
  exact fun k hk => ⟨readPix_stays hA hk, readPix_stays hB hk, writePix_stays hw hk, by simp⟩

theorem lutldAccesses_stay {L : Nat} (hr : ⟨src.toNat, 2 ^ L⟩ ∈ readable) :
    ∀ a ∈ lutldAccesses L src, a.stays readable writable := by
  simp only [lutldAccesses, List.forall_mem_map, List.mem_range]
  exact fun k hk => readByteOf_stays hr hk

theorem gammaAccesses_stay (hr : recRegion src n ∈ readable) (hw : pixRegion dst n ∈ writable) :
    ∀ a ∈ gammaAccesses dst src n, a.stays readable writable := by
  simp only [gammaAccesses, List.forall_mem_flatMap, List.mem_range, List.forall_mem_cons]
  exact fun k hk => ⟨readRec_stays hr hk, writePix_stays hw hk, by simp⟩

/-- A coordinate of a legal axis comes from a coordinate of the source (R183, R184). -/
theorem axisSource_lt {srcLen dstLen x : Nat} (h : legalAxis srcLen dstLen) (hx : x < dstLen) :
    axisSource srcLen dstLen x < srcLen := by
  obtain ⟨hsrc, hdst, hexact⟩ := h
  rw [axisSource, axisStep]
  split
  next hshrinks =>
    have hstep : 0 < srcLen / dstLen := Nat.div_pos hshrinks.le hdst
    calc x * (srcLen / dstLen) < dstLen * (srcLen / dstLen) := Nat.mul_lt_mul_of_pos_right hx hstep
      _ ≤ srcLen := Nat.mul_div_le srcLen dstLen
  next hgrows =>
    have hmul : dstLen / srcLen * srcLen = dstLen := Nat.div_mul_cancel (Nat.dvd_of_mod_eq_zero (hexact (by omega)))
    exact Nat.div_lt_of_lt_mul (hmul.symm ▸ hx)

/-- The pixel copied is one of the source image. -/
theorem sourceIndex_lt {srcW srcH dstW dstH x y : Nat} (hw : legalAxis srcW dstW) (hh : legalAxis srcH dstH) (hx : x < dstW)
    (hy : y < dstH) : sourceIndex srcW srcH dstW dstH x y < srcW * srcH :=
  pixel_index_lt (axisSource_lt hw hx) (axisSource_lt hh hy)

theorem resampleAccesses_stay {srcW srcH dstW dstH : Nat} (hw : legalAxis srcW dstW) (hh : legalAxis srcH dstH)
    (hS : pixRegion src (srcW * srcH) ∈ readable) (hD : pixRegion dst (dstW * dstH) ∈ writable) :
    ∀ a ∈ resampleAccesses dst dstW dstH src srcW srcH, a.stays readable writable := by
  simp only [resampleAccesses, List.forall_mem_flatMap, List.forall_mem_cons]
  rintro ⟨x, y⟩ hp
  obtain ⟨hx, hy⟩ := mem_pixels.mp hp
  exact ⟨readPix_stays hS (sourceIndex_lt hw hh hx hy), writePix_stays hD (pixel_index_lt hx hy), by simp⟩

/-- The convolution engine reads its source image and writes its destination; the taps wrap (R202). -/
theorem ConvJob.accesses_stay {j : ConvJob} (hS : pixRegion j.src (j.w * j.h) ∈ readable)
    (hD : pixRegion j.dst (j.w * j.h) ∈ writable) : ∀ a ∈ j.accesses, a.stays readable writable := by
  intro a ha
  obtain ⟨x, y, hx, hy, ha⟩ := (j.mem_accesses a).mp ha
  rcases List.mem_append.mp ha with ha | ha
  · obtain ⟨⟨fx, fy⟩, -, rfl⟩ := List.mem_map.mp ha
    exact readPix_stays hS (ConvJob.tapIndex_lt (Nat.zero_lt_of_lt hx) (Nat.zero_lt_of_lt hy) x y fx fy)
  · rw [List.mem_singleton.mp ha]
    exact writePix_stays hD (pixel_index_lt hx hy)

theorem blurAccesses_stay {dstW dstH : Nat} {scratch : Word} (hDr : pixRegion dst (dstW * dstH) ∈ readable)
    (hXr : pixRegion scratch (dstW * dstH) ∈ readable) (hDw : pixRegion dst (dstW * dstH) ∈ writable)
    (hXw : pixRegion scratch (dstW * dstH) ∈ writable) :
    ∀ a ∈ blurAccesses dst dstW dstH scratch, a.stays readable writable := by
  rw [blurAccesses, List.forall_mem_append]
  exact ⟨pixelStreamAccesses_stay hDr hXw, ConvJob.accesses_stay hXr hDw⟩

end Accesses

/-- The accesses of a command whose sizes are legal: reads in its read or written regions, writes in its written ones. -/
theorem accessesOf_stay (L : Nat) {i : Instr} (hsizes : sizesLegal i) :
    ∀ a ∈ accessesOf L i, a.stays (readRegions L i ++ writtenRegions i) (writtenRegions i) := by
  cases i with
  | halt => exact fun a ha => absurd ha List.not_mem_nil
  | rgb2hsv | hsv2rgb => exact pixelStreamAccesses_stay (by simp [readRegions]) (by simp [writtenRegions])
  | lerp => exact lerpAccesses_stay (by simp [readRegions]) (by simp [readRegions]) (by simp [writtenRegions])
  | lutld => exact lutldAccesses_stay (by simp [readRegions])
  | gamma => exact gammaAccesses_stay (by simp [readRegions]) (by simp [writtenRegions])
  | resize dst dstW dstH src srcW srcH blur scratch =>
    obtain ⟨hw, hh, -⟩ := hsizes
    have hD : pixRegion dst (dstW * dstH) ∈ writtenRegions (.resize dst dstW dstH src srcW srcH blur scratch) := by
      simp only [writtenRegions]
      split <;> simp
    rw [accessesOf, List.forall_mem_append]
    refine ⟨resampleAccesses_stay hw hh (by simp [readRegions]) hD, ?_⟩
    split
    next hblurs =>
      have hX : pixRegion scratch (dstW * dstH) ∈ writtenRegions (.resize dst dstW dstH src srcW srcH blur scratch) := by
        simp [writtenRegions, hblurs]
      exact blurAccesses_stay (List.mem_append_right _ hD) (List.mem_append_right _ hX) hD hX
    next => exact fun a ha => absurd ha List.not_mem_nil
  | conv dst src w h kernel kw kh factor bias =>
    rw [accessesOf, List.forall_mem_append, List.forall_mem_map]
    refine ⟨fun k hk => readRec_stays (n := kw * kh) (by simp [readRegions]) (List.mem_range.mp hk), ?_⟩
    exact ConvJob.accesses_stay (by simp [readRegions, convJob]) (by simp [writtenRegions, convJob])

/-- A command that passes validation has legal sizes. -/
theorem sizesLegal_of_valid {i : Instr} {s : State} (h : validate s i = none) : sizesLegal i := by
  by_cases hi : i = .halt
  · subst hi
    trivial
  · rw [validate_eq_checks s hi] at h
    simp only [orElse_eq_none_iff] at h
    obtain ⟨-, -, hsizes, -⟩ := h
    exact (sizesCheck_eq_none_iff i).mp hsizes

/-- Settles O28: each access lies in one region, and so does each of its bytes. -/
theorem accessesStayInTheRegions : Obligations.AccessesStayInTheRegions := by
  intro i s hvalid a ha x hlo hhi
  obtain ⟨r, hr, hinside⟩ := accessesOf_stay s.platform.lutAddrBits (sizesLegal_of_valid hvalid) a ha
  have hx : r.has x := hinside.has hlo hhi
  exact ⟨fun hread => ⟨r, by rwa [if_pos hread] at hr, hx⟩, fun hwrite => ⟨r, by rwa [if_neg hwrite] at hr, hx⟩⟩

end Sys2Proof.Machine
end

section
/-! PROOFS. The host's accesses to system memory (20_memory.md R82, R88, 70_reset_and_hazards.md R290): the byte lanes a write
stores, the words a read may return, and each access as a step. -/

namespace Sys2Proof.Machine

/-! ### Byte lanes -/

/-- Writing byte lanes changes no byte outside the word. -/
theorem Memory.sameOutside_writeLanes (m : Memory) (a : Nat) (lanes : BitVec 4) (v : Word) :
    m.sameOutside (m.writeLanes a lanes v) [⟨a, 4⟩] := by
  intro x hx
  have hout : ¬Region.has ⟨a, 4⟩ x := hx _ (List.mem_singleton.mpr rfl)
  exact Memory.writeLanes_keeps (Memory.kept_read x (m.read x)) (fun y hlo hhi hyx => hout (hyx ▸ ⟨hlo, hhi⟩)) rfl

/-- After the first `n` lanes, those of them that are selected are stored. -/
theorem Memory.read_first_lanes (m : Memory) (a : Nat) (lanes : BitVec 4) (v : Word) (k n : Nat) :
    ((List.range n).foldl (fun m j => if lanes.getLsbD j then m.write (a + j) (v.extractLsb' (8 * j) 8) else m) m).read (a + k)
      = if k < n ∧ lanes.getLsbD k = true then v.extractLsb' (8 * k) 8 else m.read (a + k) := by
  induction n with
  | zero => simp
  | succ n ih =>
    rw [List.range_succ, List.foldl_append, List.foldl_cons, List.foldl_nil]
    by_cases hk : k = n
    · subst hk
      by_cases hlane : lanes.getLsbD k = true <;> simp [hlane, ih]
    · have hlt : k < n + 1 ↔ k < n := by omega
      simp only [hlt]
      rw [← ih]
      split
      · exact Memory.read_write_of_ne _ _ (by omega)
      · rfl

/-- A byte of the word holds its lane of the value where the lane is selected, else what it held. -/
theorem Memory.read_writeLanes (m : Memory) (a : Nat) (lanes : BitVec 4) (v : Word) {k : Nat} (hk : k < 4) :
    (m.writeLanes a lanes v).read (a + k) = if lanes.getLsbD k then v.extractLsb' (8 * k) 8 else m.read (a + k) := by
  rw [Memory.writeLanes, Memory.read_first_lanes]
  simp only [hk, true_and]

/-! ### The words a read may return -/

/-- The command in progress is the one that fetch, decoding and validation let through (log 19). -/
theorem commandInProgress_decodes {s : State} {i : Instr} (h : commandInProgress s = some i) :
    ∃ d, fetch s = .ok d ∧ decode d = .ok i ∧ validate s i = none := by
  have hvalid := (commandInProgress_valid h).2
  unfold commandInProgress at h
  split at h
  · split at h
    · cases h
    next d hd =>
      split at h
      · cases h
      next j hj =>
        split at h
        · obtain rfl := Option.some.inj h
          exact ⟨d, hd, hj, hvalid⟩
        · cases h
  · cases h

/-- The memory a command leaves is that of its next state. -/
theorem memoryAfter_eq_some {s : State} {i : Instr} {m : Memory} (h : memoryAfter s i = some m) :
    ∃ t, exec i s = .next t ∧ t.mem = m := by
  unfold memoryAfter at h
  split at h
  next t ht => exact ⟨t, ht, Option.some.inj h⟩
  · cases h

/-- Only a RESIZE with blur has a form without its blur pass. -/
theorem withoutBlur_eq_some {i j : Instr} (h : withoutBlur i = some j) :
    ∃ dst dstW dstH src srcW srcH blur scratch, i = .resize dst dstW dstH src srcW srcH blur scratch ∧ 0 < blur
      ∧ j = .resize dst dstW dstH src srcW srcH 0 scratch := by
  cases i with
  | resize dst dstW dstH src srcW srcH blur scratch =>
    simp only [withoutBlur] at h
    split at h
    next hblurs =>
      exact ⟨dst, dstW, dstH, src, srcW, srcH, blur, scratch, rfl, (blurs_iff blur).mp hblurs, (Option.some.inj h).symm⟩
    · cases h
  | _ => cases h

/-- A word in flight is the one the command leaves or, for RESIZE with blur, the one its first pass leaves (UB3). -/
theorem mem_wordsInFlight {s : State} {i : Instr} {a : Nat} {w : Word} (h : w ∈ wordsInFlight s i a) :
    (∃ t, exec i s = .next t ∧ w = t.mem.read32 a)
    ∨ ∃ dst dstW dstH src srcW srcH blur scratch t, i = .resize dst dstW dstH src srcW srcH blur scratch ∧ 0 < blur
        ∧ exec (.resize dst dstW dstH src srcW srcH 0 scratch) s = .next t ∧ w = t.mem.read32 a := by
  simp only [wordsInFlight, List.mem_append, List.mem_map, Option.mem_toList, Option.bind_eq_some_iff] at h
  rcases h with ⟨m, hm, rfl⟩ | ⟨m, ⟨j, hj, hm⟩, rfl⟩
  · obtain ⟨t, ht, rfl⟩ := memoryAfter_eq_some hm
    exact .inl ⟨t, ht, rfl⟩
  · obtain ⟨dst, dstW, dstH, src, srcW, srcH, blur, scratch, rfl, hblur, rfl⟩ := withoutBlur_eq_some hj
    obtain ⟨t, ht, rfl⟩ := memoryAfter_eq_some hm
    exact .inr ⟨dst, dstW, dstH, src, srcW, srcH, blur, scratch, t, rfl, hblur, ht, rfl⟩

/-- A word the host may read is the one in memory or, where the command in progress writes, one in flight. -/
theorem State.mem_hostWords {s : State} {a : Nat} {w : Word} (h : w ∈ s.hostWords a) :
    w = s.mem.read32 a
    ∨ ∃ i, commandInProgress s = some i ∧ (∃ r ∈ writtenRegions i, r.overlaps ⟨a, 4⟩ = true) ∧ w ∈ wordsInFlight s i a := by
  unfold State.hostWords at h
  split at h
  · exact .inl (List.mem_singleton.mp h)
  next i hi =>
    split at h
    next hmeets =>
      rcases List.mem_cons.mp h with h | h
      · exact .inl h
      · exact .inr ⟨i, hi, List.any_eq_true.mp hmeets, h⟩
    · exact .inl (List.mem_singleton.mp h)

/-! ### Memory accesses as steps -/

theorem step_memRead {s : State} {addr : Nat} {rest : List Turn} (hturns : s.turns = .memRead addr :: rest)
    (haddr : addr < 2 ^ 32) : step s = .next ({ s with turns := rest }.hostRead (wordAddr addr)) := by
  rw [step_of_turns hturns, takeTurn, if_pos (show addr < Config.spaceBytes from haddr)]

/-- A write that meets nothing the running list still has before it is made. -/
theorem step_memWrite {s : State} {addr : Nat} {lanes : BitVec 4} {v : Word} {rest : List Turn}
    (hturns : s.turns = .memWrite addr lanes v :: rest) (haddr : addr < 2 ^ 32)
    (hfree : ∀ k w, engineAfter k { s with turns := rest } = some w → ¬w.awaits ⟨wordAddr addr, 4⟩) :
    step s = .next { s with turns := rest, mem := s.mem.writeLanes (wordAddr addr) lanes v } := by
  have hspace : ¬Config.spaceBytes ≤ addr := Nat.not_le_of_lt haddr
  have hflight : ¬({ s with turns := rest } : State).inFlight (wordAddr addr) = true := by
    rw [State.inFlight_iff]
    rintro ⟨k, w, hw, hmeets⟩
    exact hfree k w hw hmeets
  rw [step_of_turns hturns, takeTurn, if_neg hspace, if_neg hflight]

/-- Settles O56: a write by its byte lanes, a read by the words it may return. -/
theorem hostMemoryAccessesTheModelTakes : Obligations.HostMemoryAccessesTheModelTakes := by
  intro s addr lanes v rest haddr a u
  refine ⟨fun hturns hfree => ?write, fun hturns hb => ?stopped, fun hturns hb => ?running⟩
  case write =>
    exact ⟨_, step_memWrite hturns haddr hfree, rfl, fun k hk => Memory.read_writeLanes _ _ _ _ hk,
      Memory.sameOutside_writeLanes _ _ _ _⟩
  case stopped => exact (step_memRead hturns haddr).trans (congrArg _ (State.hostRead_stopped (s := u) hb a))
  case running =>
    refine ⟨_, step_memRead hturns haddr, u.hostRead_eq a, ?_⟩
    rcases State.mem_hostWords (u.hostRead_mem a) with hw | ⟨i, hi, hmeets, hw⟩
    · exact .inl hw
    · obtain ⟨d, hd, hdecode, hvalid⟩ := commandInProgress_decodes hi
      exact .inr ⟨d, i, hd, hdecode, hvalid, hmeets, mem_wordsInFlight hw⟩

end Sys2Proof.Machine
end

section
/-! PROOFS. Decoding and encoding (30_encoding.md): the opcode map, the reserved words by index, the round trip of commands and
descriptors, and what the step of the core makes of a descriptor. -/

namespace Sys2Proof

open Machine

/-! ### The opcode map -/

/-- Every row of the opcode map holds the header of its command (R110). -/
theorem header_of_mem_opcodeTable : ∀ row ∈ opcodeTable, row.2.header = row.1 := by decide

theorem Opcode.ofHeader_header (op : Opcode) : Opcode.ofHeader op.header = some op := by cases op <;> rfl

theorem Opcode.ofHeader_eq_some_iff {w0 : Word} {op : Opcode} : Opcode.ofHeader w0 = some op ↔ w0 = op.header := by
  constructor
  · intro h
    obtain ⟨row, hfind, rfl⟩ := Option.map_eq_some_iff.mp h
    have hmatch := List.find?_some hfind
    rw [header_of_mem_opcodeTable row (List.mem_of_find?_eq_some hfind), eq_of_beq hmatch]
  · rintro rfl
    exact op.ofHeader_header

theorem mem_legalHeaders_iff {w0 : Word} : w0 ∈ legalHeaders ↔ ∃ op : Opcode, w0 = op.header := by
  constructor
  · intro h
    have hmap : legalHeaders = opcodeTable.map Prod.fst := rfl
    obtain ⟨row, hrow, rfl⟩ := List.mem_map.mp (hmap ▸ h)
    exact ⟨row.2, (header_of_mem_opcodeTable row hrow).symm⟩
  · rintro ⟨op, rfl⟩
    cases op <;> decide

theorem Opcode.ofHeader_eq_none_iff {w0 : Word} : Opcode.ofHeader w0 = none ↔ w0 ∉ legalHeaders := by
  simp only [Option.eq_none_iff_forall_ne_some, ne_eq, Opcode.ofHeader_eq_some_iff, mem_legalHeaders_iff, not_exists]

/-! ### The reserved words -/

/-- The reserved words of the model are those of R109's table. -/
theorem Format.reservedWords_eq (op : Opcode) (d : Desc) :
    op.format.reservedWords d = (reservedIndices op).map fun k => (k, d.words.getD k 0) := by
  cases op <;> rfl

theorem Format.firstReserved_eq_find (op : Opcode) (d : Desc) :
    op.format.firstReserved d = (reservedIndices op).find? fun k => d.words.getD k 0 != 0 := by
  rw [Format.firstReserved, Format.reservedWords_eq, List.find?_map, Option.map_map]
  exact Option.map_id_apply

theorem Format.firstReserved_eq_none_iff {op : Opcode} {d : Desc} :
    op.format.firstReserved d = none ↔ ∀ k ∈ reservedIndices op, d.words.getD k 0 = 0 := by
  simp only [Format.firstReserved_eq_find, List.find?_eq_none, bne_iff_ne, ne_eq, not_not]

/-- The indices of R109's table ascend. -/
theorem reservedIndices_ascending (op : Opcode) : (reservedIndices op).Pairwise (· < ·) := by cases op <;> decide

theorem Format.firstReserved_lowest {op : Opcode} {d : Desc} {k : Nat} (hk : k ∈ reservedIndices op)
    (hne : d.words.getD k 0 ≠ 0) (hlow : ∀ j ∈ reservedIndices op, j < k → d.words.getD j 0 = 0) :
    op.format.firstReserved d = some k := by
  obtain ⟨below, above, hsplit⟩ := List.append_of_mem hk
  have hasc := hsplit ▸ reservedIndices_ascending op
  have hbelow : ∀ j ∈ below, d.words.getD j 0 = 0 := fun j hj =>
    hlow j (hsplit ▸ List.mem_append_left _ hj) ((List.pairwise_append.mp hasc).2.2 j hj k List.mem_cons_self)
  rw [Format.firstReserved_eq_find, List.find?_eq_some_iff_append]
  exact ⟨bne_iff_ne.mpr hne, below, above, hsplit, fun j hj => by rw [hbelow j hj]; rfl⟩

/-! ### Decoding by cases -/

/-- A header that is none of the eight (R111). -/
theorem decode_illegal {d : Desc} (h : d.w0 ∉ legalHeaders) : decode d = .error (.illegalOpcode d.w0) := by
  simp only [decode, Opcode.ofHeader_eq_none_iff.mpr h]

/-- A legal header and a reserved word that is not zero (R112). -/
theorem decode_reserved {d : Desc} {op : Opcode} {k : Nat} (hop : d.w0 = op.header)
    (hk : op.format.firstReserved d = some k) : decode d = .error (.reservedField k) := by
  simp only [decode, Opcode.ofHeader_eq_some_iff.mpr hop, hk]

theorem decode_legal {d : Desc} {op : Opcode} (hop : d.w0 = op.header) (hzero : op.format.firstReserved d = none) :
    decode d = .ok (op.operands d) := by
  simp only [decode, Opcode.ofHeader_eq_some_iff.mpr hop, hzero]

/-- What decodes has a legal header, no reserved word set, and is the command with its operands taken from the fields. -/
theorem decode_eq_ok_iff {d : Desc} {i : Instr} : decode d = .ok i ↔
    ∃ op : Opcode, d.w0 = op.header ∧ op.format.firstReserved d = none ∧ op.operands d = i := by
  constructor
  · intro h
    by_cases hlegal : d.w0 ∈ legalHeaders
    · obtain ⟨op, hop⟩ := mem_legalHeaders_iff.mp hlegal
      cases hzero : op.format.firstReserved d with
      | some k => rw [decode_reserved hop hzero] at h; cases h
      | none => rw [decode_legal hop hzero] at h; exact ⟨op, hop, hzero, Except.ok.inj h⟩
    · rw [decode_illegal hlegal] at h
      cases h
  · rintro ⟨op, hop, hzero, rfl⟩
    exact decode_legal hop hzero

/-- After a legal header a descriptor is a command or names a reserved word. -/
theorem decode_of_legal {d : Desc} (h : d.w0 ∈ legalHeaders) :
    (∃ i, decode d = .ok i) ∨ ∃ k, decode d = .error (.reservedField k) := by
  obtain ⟨op, hop⟩ := mem_legalHeaders_iff.mp h
  cases hzero : op.format.firstReserved d with
  | none => exact .inl ⟨_, decode_legal hop hzero⟩
  | some k => exact .inr ⟨k, decode_reserved hop hzero⟩

/-! ### A command's fields there and back -/

theorem toNat_ofNat_of_fitsCount {n : Nat} (h : fitsCount n = true) : (BitVec.ofNat 32 n).toNat = n :=
  (BitVec.toNat_ofNat n 32).trans (Nat.mod_eq_of_lt (decide_eq_true_iff.mp h))

theorem loHalf_halves_of_fitsExtent {lo : Nat} (hi : Nat) (h : fitsExtent lo = true) : loHalf (halves lo hi) = lo :=
  loHalf_halves hi (decide_eq_true_iff.mp h)

theorem hiHalf_halves_of_fitsExtent (lo : Nat) {hi : Nat} (h : fitsExtent hi = true) : hiHalf (halves lo hi) = hi :=
  hiHalf_halves lo (decide_eq_true_iff.mp h)

theorem toInt_ofInt_of_fitsSigned {b : Int} (h : fitsSigned b = true) : (BitVec.ofInt 32 b).toInt = b := by
  simp only [fitsSigned, Bool.and_eq_true, decide_eq_true_eq] at h
  exact BitVec.toInt_ofInt_eq_self (by decide) h.1 h.2

theorem fitsCount_toNat (w : Word) : fitsCount w.toNat = true := decide_eq_true w.isLt

theorem fitsExtent_loHalf (w : Word) : fitsExtent (loHalf w) = true := decide_eq_true (loHalf_lt w)

theorem fitsExtent_hiHalf (w : Word) : fitsExtent (hiHalf w) = true := decide_eq_true (hiHalf_lt w)

theorem fitsSigned_toInt (w : Word) : fitsSigned w.toInt = true := by
  simp only [fitsSigned, Bool.and_eq_true, decide_eq_true_eq]
  exact ⟨w.le_toInt, w.toInt_lt⟩

/-- The opcode of a command. -/
def Instr.opcode : Instr → Opcode
  | .halt => .halt
  | .rgb2hsv .. => .rgb2hsv
  | .hsv2rgb .. => .hsv2rgb
  | .lerp .. => .lerp
  | .lutld .. => .lutld
  | .gamma .. => .gamma
  | .resize .. => .resize
  | .conv .. => .conv

theorem header_encode (i : Instr) : (encode i).w0 = i.opcode.header := by cases i <;> rfl

/-- The laws of `EncodesLegally` for every command. -/
theorem encodesLegally (i : Instr) : Laws.EncodesLegally.Statement i := by
  cases i with
  | halt => exact Laws.EncodesLegally.halt
  | rgb2hsv dst src count => exact Laws.EncodesLegally.rgb2hsv dst src count
  | hsv2rgb dst src count => exact Laws.EncodesLegally.hsv2rgb dst src count
  | lerp dst srcA srcB count t => exact Laws.EncodesLegally.lerp dst srcA srcB count t
  | lutld src => exact Laws.EncodesLegally.lutld src
  | gamma dst src count => exact Laws.EncodesLegally.gamma dst src count
  | resize dst dstW dstH src srcW srcH blur scratch =>
    exact Laws.EncodesLegally.resize dst dstW dstH src srcW srcH blur scratch
  | conv dst src w h kernel kw kh factor bias => exact Laws.EncodesLegally.conv dst src w h kernel kw kh factor bias

theorem firstReserved_encode (i : Instr) : i.opcode.format.firstReserved (encode i) = none := by
  obtain ⟨op, hop, hzero⟩ := encodesLegally i
  rw [header_encode, Opcode.ofHeader_header] at hop
  rwa [Option.some.inj hop]

/-- The operands of a well-formed command are those its encoding's fields hold. -/
theorem operands_encode {i : Instr} (h : i.wellFormed = true) : i.opcode.operands (encode i) = i := by
  cases i with
  | halt | lutld => rfl
  | rgb2hsv dst src count => exact congrArg (Instr.rgb2hsv dst src) (toNat_ofNat_of_fitsCount h)
  | hsv2rgb dst src count => exact congrArg (Instr.hsv2rgb dst src) (toNat_ofNat_of_fitsCount h)
  | lerp dst srcA srcB count t => exact congrArg (Instr.lerp dst srcA srcB · t) (toNat_ofNat_of_fitsCount h)
  | gamma dst src count => exact congrArg (Instr.gamma dst src) (toNat_ofNat_of_fitsCount h)
  | resize dst dstW dstH src srcW srcH blur scratch =>
    simp only [Instr.wellFormed, Bool.and_eq_true] at h
    obtain ⟨⟨⟨⟨hdw, hdh⟩, hsw⟩, hsh⟩, hblur⟩ := h
    simp only [Instr.opcode, encode, Opcode.operands, loHalf_halves_of_fitsExtent, hiHalf_halves_of_fitsExtent,
      toInt_ofInt_of_fitsSigned, *]
  | conv dst src w hh kernel kw kh factor bias =>
    simp only [Instr.wellFormed, Bool.and_eq_true] at h
    obtain ⟨⟨⟨hw, hh⟩, hkw⟩, hkh⟩ := h
    simp only [Instr.opcode, encode, Opcode.operands, loHalf_halves_of_fitsExtent, hiHalf_halves_of_fitsExtent,
      append_halves64, *]

/-- Settles O1: the header selects the command, no reserved word is set, each field gives its operand back. -/
theorem decodeOfEncodeIsTheCommand : Obligations.DecodeOfEncodeIsTheCommand := fun i h =>
  decode_eq_ok_iff.mpr ⟨i.opcode, header_encode i, firstReserved_encode i, operands_encode h⟩

/-! ### A descriptor's words there and back -/

/-- Operands taken from fields fit the fields. -/
theorem wellFormed_operands (op : Opcode) (d : Desc) : (op.operands d).wellFormed = true := by
  cases op with
  | halt | lutld => rfl
  | rgb2hsv | hsv2rgb | lerp | gamma => exact fitsCount_toNat d.w4
  | resize | conv =>
    simp only [Opcode.operands, Instr.wellFormed, fitsExtent_loHalf, fitsExtent_hiHalf, fitsSigned_toInt, Bool.and_self]

/-- The descriptor with the words at these indices zero. -/
def Desc.zeroAt (ks : List Nat) (d : Desc) : Desc := Desc.ofFn fun k => if k ∈ ks then 0 else d.words.getD k 0

theorem Desc.zeroAt_eq_self {ks : List Nat} {d : Desc} (h : ∀ k ∈ ks, d.words.getD k 0 = 0) : d.zeroAt ks = d := by
  have hword : (fun k => if k ∈ ks then 0 else d.words.getD k 0) = fun k => d.words.getD k 0 := by
    funext k
    split
    next hk => exact (h k hk).symm
    next => rfl
  rw [Desc.zeroAt, hword]
  rfl

theorem extractLsb'_append_low (hi lo : Word) : (hi ++ lo).extractLsb' 0 32 = lo := BitVec.extractLsb'_append_eq_right

theorem extractLsb'_append_high (hi lo : Word) : (hi ++ lo).extractLsb' 32 32 = hi := BitVec.extractLsb'_append_eq_left

/-- Encoding the operands taken from a descriptor gives every word of it back but the reserved ones. -/
theorem encode_operands {op : Opcode} {d : Desc} (hop : d.w0 = op.header) :
    encode (op.operands d) = d.zeroAt (reservedIndices op) := by
  have hblank : d.zeroAt (reservedIndices op) = { d.zeroAt (reservedIndices op) with w0 := op.header } := by
    rw [← hop]; cases op <;> rfl
  rw [hblank]
  cases op with
  | halt | lutld => rfl
  | rgb2hsv | hsv2rgb | lerp | gamma => simp only [Opcode.operands, encode, BitVec.ofNat_toNat, BitVec.setWidth_eq]; rfl
  | resize => simp only [Opcode.operands, encode, halves_loHalf_hiHalf, BitVec.ofInt_toInt]; rfl
  | conv => simp only [Opcode.operands, encode, halves_loHalf_hiHalf, extractLsb'_append_low, extractLsb'_append_high]; rfl

/-- Settles O2: the operands carry every word that is not reserved, and the reserved ones are zero. -/
theorem decodedCommandEncodesBack : Obligations.DecodedCommandEncodesBack := by
  intro d i h
  obtain ⟨op, hop, hzero, rfl⟩ := decode_eq_ok_iff.mp h
  refine ⟨wellFormed_operands op d, ?_⟩
  rw [encode_operands hop, Desc.zeroAt_eq_self (Format.firstReserved_eq_none_iff.mp hzero)]

/-- Settles O3: each printed descriptor is the encoding of its command. -/
theorem printedDescriptorsDecode : Obligations.PrintedDescriptorsDecode :=
  ⟨decodeOfEncodeIsTheCommand .halt rfl,
    decodeOfEncodeIsTheCommand (.rgb2hsv 0x2100 0x2000 4) rfl,
    decodeOfEncodeIsTheCommand (.lerp 0x3200 0x3100 0x3180 2 0x40000000) rfl,
    decodeOfEncodeIsTheCommand (.lutld 0x4000) rfl,
    decodeOfEncodeIsTheCommand (.resize 0x5100 4 4 0x5000 2 2 1 0x5200) rfl,
    decodeOfEncodeIsTheCommand (.conv 0x6100 0x6000 6 6 0x6400 5 5 0x3FB3B13B13B13B14 0) rfl⟩

end Sys2Proof

namespace Sys2Proof.Machine

/-! ### The step of the core on a descriptor that is no command -/

/-- What decoding finds wrong is the fault the step leaves, precisely (R246). -/
theorem step_decode_fault {s : State} {d : Desc} {e : DecodeError} (hturns : s.turns = []) (hb : s.busy = true)
    (hf : fetch s = .ok d) (hd : decode d = .error e) :
    ∃ t, step s = .next t ∧ s.faulted (decodeFault e).cause.code (decodeFault e).info t := by
  have hstep : engineStep s = .next ({ s with desc := d }.raise (decodeFault e)) := by simp only [engineStep, hf, hd]
  exact ⟨_, by rw [step_of_no_turns hturns, coreTurn_running hb, hstep], rfl⟩

/-- Settles O4. -/
theorem illegalHeaderFaults : Obligations.IllegalHeaderFaults := fun _ _ hturns hb hf =>
  ⟨fun hillegal => step_decode_fault hturns hb hf (decode_illegal hillegal), decode_of_legal⟩

/-- Settles O5: the first reserved word found is the lowest, since the indices ascend. -/
theorem reservedWordFaults : Obligations.ReservedWordFaults := fun _ _ _ hturns hb hf hop =>
  ⟨fun _ hk hne hlow =>
      step_decode_fault hturns hb hf (decode_reserved hop (Format.firstReserved_lowest hk hne hlow)),
    fun hzero => ⟨_, decode_legal hop (Format.firstReserved_eq_none_iff.mpr hzero)⟩⟩

/-! ### Every command takes a next state -/

theorem finish_next (s : State) (accs : List Access) (finished broken : State) :
    ∃ t, finish s accs finished broken = .next t := by
  by_cases h : s.allows accs
  · exact ⟨_, finish_of_allows _ _ h⟩
  · exact ⟨_, finish_of_refused _ _ h⟩

/-- A command raises what its validation finds, or runs to its end. -/
theorem exec_next (i : Instr) (s : State) : ∃ t, exec i s = .next t := by
  cases hv : validate s i with
  | some r => exact ⟨_, exec_of_invalid hv⟩
  | none =>
    cases i <;> simp only [validate] at hv
    case halt => exact ⟨_, rfl⟩
    case rgb2hsv | hsv2rgb | lerp | lutld | gamma =>
      simp only [exec, execRgb2hsv, execHsv2rgb, execLerp, execLutld, execGamma, hv]
      exact finish_next _ _ _ _
    case resize =>
      simp only [exec, execResize, hv]
      split
      · split
        · exact finish_next _ _ _ _
        · exact ⟨_, rfl⟩
        · exact ⟨_, rfl⟩
      · exact finish_next _ _ _ _
    case conv =>
      simp only [exec, execConv, hv]
      split <;> exact ⟨_, rfl⟩

theorem engineStep_next (s : State) : ∃ t, engineStep s = .next t := by
  rcases engineStep_cases s with ⟨r, -, h⟩ | ⟨d, e, -, -, h⟩ | ⟨d, i, -, -, h⟩
  · exact ⟨_, h⟩
  · exact ⟨_, h⟩
  · exact h ▸ exec_next i _

/-- Settles O12. -/
theorem everyCommandTakesANextState : Obligations.EveryCommandTakesANextState := by
  refine ⟨exec_next, fun s hturns => ?_⟩
  rw [step_of_no_turns hturns]
  cases hb : s.busy with
  | true => exact coreTurn_running hb ▸ engineStep_next s
  | false => exact ⟨s, coreTurn_stopped hb⟩

end Sys2Proof.Machine
end

section
/-! PROOFS. Sequencing (40_sequencing.md R132 to R136): the fetch, the step that runs a command, the placing of a descriptor,
the last descriptor slot, HALT, and the two ends of every other command. -/

namespace Sys2Proof.Machine

/-! ### The fetch -/

/-- A fetch at an address that is no multiple of 64 (R132). -/
theorem fetch_misaligned {s : State} (h : s.cp.toNat % 64 ≠ 0) : fetch s = .error ⟨.fetchAlign, s.cp⟩ := by
  have halign : ¬alignedTo s.cp Config.descBytes = true := fun ha => h ((alignedTo_iff _ _).mp ha)
  rw [fetch, if_neg halign]

/-- The first refused access heads the list of the refused ones. -/
theorem State.refused_append_cons {s : State} {before : List Access} {a : Access} (hb : s.allows before)
    (ha : s.platform.memOk a = false) (after : List Access) :
    s.refused (before ++ a :: after) = BitVec.ofNat 32 a.addr :: s.refused after := by
  have hbefore : before.filter (fun b => !s.platform.memOk b) = [] := by simpa [List.filter_eq_nil_iff] using hb
  simp [State.refused, hbefore, ha]

/-- The accesses of a fetch, parted at word `k`. -/
theorem fetchAccesses_split (a : Nat) {k : Nat} (hk : k < 16) : ∃ after,
    fetchAccesses a = (List.range k).map (fun j => ⟨.fetch, a + 4 * j, 4⟩) ++ ⟨.fetch, a + 4 * k, 4⟩ :: after := by
  have hcount : 16 = k + (15 - k + 1) := by omega
  rw [fetchAccesses, hcount, List.range_add, List.range_succ_eq_map, List.map_cons, List.map_append, List.map_cons]
  exact ⟨_, rfl⟩

/-- A fetch whose lowest refused word is word `k` (R132). -/
theorem fetch_refused {s : State} {k : Nat} (halign : s.cp.toNat % 64 = 0) (hk : k < 16)
    (hbad : s.platform.memOk ⟨.fetch, s.cp.toNat + 4 * k, 4⟩ = false)
    (hlow : ∀ j < k, s.platform.memOk ⟨.fetch, s.cp.toNat + 4 * j, 4⟩ = true) :
    fetch s = .error ⟨.fetchBus, BitVec.ofNat 32 (s.cp.toNat + 4 * k)⟩ := by
  have hbefore : s.allows ((List.range k).map fun j => ⟨.fetch, s.cp.toNat + 4 * j, 4⟩) :=
    List.forall_mem_map.mpr fun j hj => hlow j (List.mem_range.mp hj)
  have haligned : alignedTo s.cp Config.descBytes = true := (alignedTo_iff _ _).mpr halign
  obtain ⟨after, hsplit⟩ := fetchAccesses_split s.cp.toNat hk
  rw [fetch, if_pos haligned, hsplit, State.refused_append_cons hbefore hbad]

theorem State.allows_fetchAccesses_iff (s : State) (a : Nat) :
    s.allows (fetchAccesses a) ↔ ∀ k < 16, s.platform.memOk ⟨.fetch, a + 4 * k, 4⟩ = true := by
  simp only [State.allows, fetchAccesses, List.forall_mem_map, List.mem_range]

/-- Word `k` of the descriptor at `a` is the word of memory at `a + 4 k` (R79). -/
theorem Memory.words_descAt (m : Memory) (a : Nat) {k : Nat} (hk : k < 16) :
    (m.descAt a).words.getD k 0 = m.read32 (a + 4 * k) := by
  have hwords : (m.descAt a).words = (List.range 16).map fun j => m.read32 (a + 4 * j) := rfl
  simp [hwords, List.getElem?_range hk]

/-- What the fetch finds wrong is the fault the step leaves, precisely (R246). -/
theorem step_fetch_fault {s : State} {r : Raised} (hturns : s.turns = []) (hb : s.busy = true) (hf : fetch s = .error r) :
    ∃ t, step s = .next t ∧ s.faulted r.cause.code r.info t := by
  have hstep : engineStep s = .next (s.raise r) := by simp only [engineStep, hf]
  exact ⟨_, by rw [step_of_no_turns hturns, coreTurn_running hb, hstep], s.faulted_raise r⟩

/-- Settles O6, by the three ends of the fetch. -/
theorem fetchFollowsItsRule : Obligations.FetchFollowsItsRule := by
  intro s hturns hb
  refine ⟨fun hmis => ?misaligned, fun halign k hk hbad hlow => ?refused, fun halign hall => ?fetched⟩
  case misaligned => exact step_fetch_fault hturns hb (fetch_misaligned hmis)
  case refused => exact step_fetch_fault hturns hb (fetch_refused halign hk hbad hlow)
  case fetched =>
    exact ⟨_, fetch_ok halign ((s.allows_fetchAccesses_iff _).mpr hall), fun _ hk => s.mem.words_descAt _ hk⟩

/-! ### The core's turn -/

/-- The turn of a running core whose descriptor decodes is the command's (R135). -/
theorem coreTurn_runs {s : State} {i : Instr} (hb : s.busy = true) (halign : s.cp.toNat % 64 = 0)
    (hall : s.allows (fetchAccesses s.cp.toNat)) (hd : decode (s.mem.descAt s.cp.toNat) = .ok i) :
    coreTurn s = exec i { s with desc := s.mem.descAt s.cp.toNat } := by
  rw [coreTurn_running hb, engineStep_ok (fetch_ok halign hall) hd]

/-- The step of a schedule that begins with the core is the core's turn. -/
theorem step_of_core_turn {s : State} {rest : List Turn} (h : s.turns = .core :: rest) :
    step s = coreTurn { s with turns := rest } := step_of_turns h

/-- Settles O7: neither the fetch nor the command sees the schedule before it. -/
theorem stepRunsTheDecodedCommand : Obligations.StepRunsTheDecodedCommand := by
  intro s i hb halign hall hd
  refine ⟨fun hturns => ?_, fun rest hturns => ?_⟩
  · rw [step_of_no_turns hturns, coreTurn_runs hb halign hall hd]
  · rw [step_of_core_turn hturns]
    exact coreTurn_runs (s := { s with turns := rest }) hb halign hall hd

/-- Settles O9, on both forms of the schedule. -/
theorem stoppedCoreDoesNothing : Obligations.StoppedCoreDoesNothing := by
  intro s hb
  refine ⟨fun hturns => ?_, fun rest hturns => ?_⟩
  · rw [step_of_no_turns hturns, coreTurn_stopped hb]
  · rw [step_of_core_turn hturns]
    exact coreTurn_stopped (s := { s with turns := rest }) hb

/-! ### A descriptor placed (log 6) -/

/-- The parameters without what refuses some accesses allow each of them. -/
theorem Platform.memOk_allowing (p : Platform) {accs : List Access} {a : Access} (ha : a ∈ accs) :
    (p.allowing accs).memOk a = true := by
  have hdenied : ((p.allowing accs).denied.any fun d => d.covers a) = false := by
    simp only [Platform.allowing, List.any_eq_false, List.mem_filter, Bool.not_eq_true', and_imp]
    exact fun d _ hnone hcovers => hnone a ha hcovers
  have hwindow : (p.allowing accs).hitsWindow a = false := by
    by_cases hhit : (accs.any fun b => p.hitsWindow b) = true
    · rw [Platform.allowing, if_pos hhit]
      rfl
    · have hmiss : p.hitsWindow a = false := by
        rw [List.any_eq_true] at hhit
        exact Bool.eq_false_iff.mpr fun h => hhit ⟨a, ha, h⟩
      rw [Platform.allowing, if_neg hhit]
      exact hmiss
  rw [Platform.memOk, hdenied, hwindow]
  rfl

/-- A descriptor is placed at `CP` rounded down to a multiple of 64. -/
theorem State.toNat_load_cp (s : State) (d : Desc) : (s.load d).cp.toNat = s.cp.toNat / 64 * 64 := by
  have hle : s.cp.toNat / 64 * 64 ≤ s.cp.toNat := Nat.div_mul_le_self _ _
  have hlt : s.cp.toNat / 64 * 64 < 2 ^ 32 := Nat.lt_of_le_of_lt hle s.cp.isLt
  rw [State.load, BitVec.toNat_ofNat, Nat.mod_eq_of_lt hlt]

/-- The placed descriptor is the one the core fetches. -/
theorem fetch_load (s : State) (d : Desc) : fetch (s.load d) = .ok d := by
  rw [fetch_eq_ok_iff, s.toNat_load_cp]
  exact ⟨Nat.mul_mod_left _ _, fun _ ha => s.platform.memOk_allowing ha, (s.mem.descAt_writeBytes _ d).symm⟩

/-- Settles O8: the placed descriptor is fetched, and decodes to the command its bits decode to. -/
theorem placedWordIsRunNext : Obligations.PlacedWordIsRunNext := fun s nbits w i h =>
  step_runs rfl rfl (fetch_load s (descOfBits nbits w)) ((decodeTableWord_eq_some_iff nbits w i).mp h)

/-! ### The last slot, HALT -/

/-- In the last slot validation of a command other than HALT finds CP_WRAP before all else (R133). -/
theorem validate_top {i : Instr} {s : State} (hi : i ≠ .halt) (htop : s.cp = 0xFFFFFFC0) :
    validate s i = some ⟨.cpWrap, 0xFFFFFFC0⟩ := by
  rw [validate_eq_checks s hi, cpWrapCheck_top htop, orElse_some_left, htop]

/-- A command other than HALT that passes validation is not in the last slot. -/
theorem cp_ne_top_of_valid {i : Instr} {s : State} (hi : i ≠ .halt) (hv : validate s i = none) : s.cp ≠ 0xFFFFFFC0 := by
  intro htop
  rw [validate_top hi htop] at hv
  cases hv

theorem exec_halt (s : State) : exec .halt s = .next { s.forgetDesc with busy := false, done := true } := rfl

/-- Settles O10: CP_WRAP is the first check of every command but HALT, which has none. -/
theorem lastSlotTakesOnlyHalt : Obligations.LastSlotTakesOnlyHalt := by
  intro i s htop
  refine ⟨fun hi => exec_faulted (validate_top hi htop), ?_⟩
  rintro rfl
  exact ⟨_, exec_halt s, rfl, rfl, rfl, rfl⟩

/-- Settles O11, by the meaning of HALT. -/
theorem haltEndsTheList : Obligations.HaltEndsTheList := fun s => ⟨_, exec_halt s, rfl⟩

/-! ### The two ends of a command -/

section Touches

variable {i : Instr} {s u : State} (h : Touches i s u)
include h

theorem Touches.cp : u.cp = s.cp := by rw [h.rest]

theorem Touches.errCp : u.errCp = s.errCp := by rw [h.rest]

theorem Touches.errInfo : u.errInfo = s.errInfo := by rw [h.rest]

theorem Touches.desc : u.desc = s.desc := by rw [h.rest]

end Touches

/-- Settles O13: a fault of validation, the next descriptor after the command's own changes, or a fault after them. -/
theorem everyCommandCompletesOrFaults : Obligations.EveryCommandCompletesOrFaults := by
  intro i s t hi h
  rcases exec_cases h with ⟨hhalt, -⟩ | ⟨r, -, rfl⟩ | ⟨-, hv, u, hu, hend⟩
  · exact absurd hhalt hi
  · exact .inr ⟨rfl, rfl, rfl, rfl, rfl, r.cause.code_mem⟩
  · rcases hend with rfl | ⟨r, -, rfl⟩
    · have hcp : u.advance.cp = s.cp + 64 := by rw [State.advance_cp, hu.cp]
      exact .inl ⟨hcp, cp_ne_top_of_valid hi hv, hu.busy, hu.done, hu.err, hu.errCode, hu.errCp, hu.errInfo, hu.desc⟩
    · exact .inr ⟨hu.cp, rfl, hu.done, rfl, hu.cp, r.cause.code_mem⟩

end Sys2Proof.Machine
end

section
/-! PROOFS. The stream commands RGB2HSV, HSV2RGB and LERP (41_color_model.md R141, R142): a command whose operands pass validation
and whose accesses are allowed completes, with every destination word the command's function of the sources as they were. -/

namespace Sys2Proof.Machine

/-! ### Legal operands -/

/-- A source in place or disjoint is no overlap that R86 forbids. -/
theorem not_forbidden_of_apart {src dst : Word} {count : Nat}
    (h : apart src dst (pixRegion src count) (pixRegion dst count)) :
    ¬(Region.meets ⟨src.toNat, 4 * count⟩ ⟨dst.toNat, 4 * count⟩ ∧ src ≠ dst) := by
  rintro ⟨hmeets, hne⟩
  rcases h with heq | hdisjoint
  · exact hne heq
  · exact absurd ((Region.overlaps_iff_meets _ _).mpr hmeets) (Bool.eq_false_iff.mp hdisjoint)

/-- Past CP_WRAP, ALIGN, the sizes, RANGE and ALIAS only the contents are left to check (R250). -/
theorem validate_of_legal {s : State} {i : Instr} (hi : i ≠ .halt) (htop : s.cp ≠ 0xFFFFFFC0)
    (halign : ∀ p ∈ alignedAddresses i, p.1.toNat % p.2 = 0) (hsizes : sizesLegal i)
    (hrange : ∀ r ∈ regionsOf s.platform.lutAddrBits i, r.base + r.size ≤ 2 ^ 32) (hoverlap : ¬forbiddenOverlap i) :
    validate s i = contentsCheck s i := by
  rw [validate_of_sized hi htop halign hsizes, (rangeCheck_eq_none_iff _).mpr hrange, overlapCheck_of_not_forbidden hoverlap,
    orElse_none_left, orElse_none_left]

/-! ### One source -/

section PixelStream

variable {s : State} {dst src : Word} {count : Nat}

theorem validate_rgb2hsv_legal (htop : s.cp ≠ 0xFFFFFFC0) (hsrc : src.toNat % 4 = 0) (hdst : dst.toNat % 4 = 0)
    (hsrcEnd : src.toNat + 4 * count ≤ 2 ^ 32) (hdstEnd : dst.toNat + 4 * count ≤ 2 ^ 32)
    (hapart : apart src dst (pixRegion src count) (pixRegion dst count)) : validate s (.rgb2hsv dst src count) = none :=
  validate_of_legal (by simp) htop (by simp [alignedAddresses, hsrc, hdst]) trivial
    (by simpa [regionsOf, regionTable] using ⟨hsrcEnd, hdstEnd⟩) (not_forbidden_of_apart hapart)

/-- The two conversions have the same checks (R250). -/
theorem validate_hsv2rgb_eq : validate s (.hsv2rgb dst src count) = validate s (.rgb2hsv dst src count) := rfl

theorem exec_rgb2hsv_valid (h : validate s (.rgb2hsv dst src count) = none) :
    exec (.rgb2hsv dst src count) s
      = finish s (pixelStreamAccesses dst src count)
          { s with mem := streamLoop dst (fun m k => rgb2hsvWord (m.pix src k)) count s.mem }
          (s.havoc (writtenRegions (.rgb2hsv dst src count))) := by
  have hcheck : checkRgb2hsv s dst src count = none := h
  simp only [exec, execRgb2hsv, hcheck]

theorem exec_hsv2rgb_valid (h : validate s (.hsv2rgb dst src count) = none) :
    exec (.hsv2rgb dst src count) s
      = finish s (pixelStreamAccesses dst src count)
          { s with mem := streamLoop dst (fun m k => hsv2rgbWord (m.pix src k)) count s.mem }
          (s.havoc (writtenRegions (.hsv2rgb dst src count))) := by
  have hcheck : checkHsv2rgb s dst src count = none := h
  simp only [exec, execHsv2rgb, hcheck]

/-- A stream over one source completes with its function of every word as it was (R141). -/
theorem finish_pixelStream (f : Word → Word) (broken : State)
    (hapart : apart src dst (pixRegion src count) (pixRegion dst count)) (hallow : s.allows (pixelStreamAccesses dst src count)) :
    ∃ t, finish s (pixelStreamAccesses dst src count)
          { s with mem := streamLoop dst (fun m k => f (m.pix src k)) count s.mem } broken = .next t
      ∧ t = { s with mem := t.mem, cp := s.cp + 64 }
      ∧ (∀ k < count, t.mem.pix dst k = f (s.mem.pix src k))
      ∧ s.mem.sameOutside t.mem [pixRegion dst count] := by
  refine ⟨_, finish_of_allows _ _ hallow, rfl, ?_, streamLoop_sameOutside dst _ count s.mem⟩
  exact streamLoop_pix fun k hk m hm => congrArg f (pix_eq_of_apart hapart hk hm)

end PixelStream

/-- Settles O30: a validated RGB2HSV is the stream of `rgb2hsvWord`. -/
theorem rgb2hsvConvertsEveryPixel : Obligations.Rgb2hsvConvertsEveryPixel := by
  intro s dst src count htop hsrc hdst hsrcEnd hdstEnd hapart hallow
  rw [exec_rgb2hsv_valid (validate_rgb2hsv_legal htop hsrc hdst hsrcEnd hdstEnd hapart)]
  exact finish_pixelStream rgb2hsvWord _ hapart hallow

/-- Settles O31: a validated HSV2RGB is the stream of `hsv2rgbWord`. -/
theorem hsv2rgbConvertsEveryPixel : Obligations.Hsv2rgbConvertsEveryPixel := by
  intro s dst src count htop hsrc hdst hsrcEnd hdstEnd hapart hallow
  rw [exec_hsv2rgb_valid (validate_hsv2rgb_eq.trans (validate_rgb2hsv_legal htop hsrc hdst hsrcEnd hdstEnd hapart))]
  exact finish_pixelStream hsv2rgbWord _ hapart hallow

/-! ### LERP -/

theorem exec_lerp_valid {s : State} {dst srcA srcB : Word} {count : Nat} {t : BitVec 32}
    (h : validate s (.lerp dst srcA srcB count t) = none) :
    exec (.lerp dst srcA srcB count t) s
      = finish s (lerpAccesses dst srcA srcB count)
          ({ s with mem := (lerpLoop dst srcA srcB (binary32.decode t.toNat) count s.mem).1 }.markOor
            (lerpLoop dst srcA srcB (binary32.decode t.toNat) count s.mem).2)
          ((s.havoc (writtenRegions (.lerp dst srcA srcB count t))).doubtOor) := by
  have hcheck : checkLerp s dst srcA srcB count t = none := h
  simp only [exec, execLerp, hcheck]

/-- A pixel is marked when one of its channels is (R142). -/
theorem lerpWord_marked_iff (t : Fp) (a b : Word) :
    (lerpWord t a b).2 = true ↔ (lerpChan (ch0 a) (ch0 b) t).2 = true ∨ (lerpChan (ch1 a) (ch1 b) t).2 = true
      ∨ (lerpChan (ch2 a) (ch2 b) t).2 = true := by
  simp only [lerpWord, Bool.or_eq_true, or_assoc]

/-- Settles O32: the memory of a validated LERP is that of a stream loop, and OOR gathers the marks of its pixels. -/
theorem lerpInterpolatesEveryPixel : Obligations.LerpInterpolatesEveryPixel := by
  intro s dst srcA srcB count t32 htop hA hdst hB hAEnd hBEnd hdstEnd hapartA hapartB hallow chan
  have hvalid : validate s (.lerp dst srcA srcB count t32) = none :=
    validate_of_legal (by simp) htop (by simp [alignedAddresses, hA, hdst, hB]) trivial
      (by simpa [regionsOf, regionTable] using ⟨hAEnd, hBEnd, hdstEnd⟩)
      (not_or.mpr ⟨not_forbidden_of_apart hapartA, not_forbidden_of_apart hapartB⟩)
  have hreadA := fun k (hk : k < count) m (hm : s.mem.sameOutside m [pixRegion dst k]) => pix_eq_of_apart hapartA hk hm
  have hreadB := fun k (hk : k < count) m (hm : s.mem.sameOutside m [pixRegion dst k]) => pix_eq_of_apart hapartB hk hm
  rw [exec_lerp_valid hvalid]
  refine ⟨_, finish_of_allows _ _ hallow, rfl, ?pixels, ?marks, ?frame⟩
  case pixels =>
    intro k hk
    rw [State.advance_mem, State.markOor_mem, lerpLoop_fst]
    refine streamLoop_pix (fun j hj m hm => ?_) k hk
    rw [hreadA j hj m hm, hreadB j hj m hm]
  case marks =>
    simp only [State.advance_oor, State.markOor_oor, Bool.or_eq_true, lerpLoop_snd hreadA hreadB, lerpWord_marked_iff, chan]
  case frame =>
    rw [State.advance_mem, State.markOor_mem, lerpLoop_fst]
    exact streamLoop_sameOutside _ _ _ _

end Sys2Proof.Machine
end

section
/-! PROOFS. The conversions between RGB and HSV as scalar functions (41_color_model.md R145 to R147, R149 to R153). -/

namespace Sys2Proof.Machine

/-! ### Value and saturation (R145) -/

theorem rgbToHsv_eq (r g b : Nat) :
    let mx := max r (max g b)
    let d := mx - min r (min g b)
    rgbToHsv r g b = (if 255 * d / mx = 0 then 0 else hue r g b mx d, 255 * d / mx, mx) := by
  simp only [rgbToHsv]
  split
  · rename_i hmx
    simp [hmx]
  · split <;> simp [*]

theorem rgbToHsv_value (r g b : Nat) : (rgbToHsv r g b).2.2 = max r (max g b) := by rw [rgbToHsv_eq]

theorem rgbToHsv_sat (r g b : Nat) :
    (rgbToHsv r g b).2.1 = 255 * (max r (max g b) - min r (min g b)) / max r (max g b) := by rw [rgbToHsv_eq]

theorem rgbToHsv_hue (r g b : Nat) :
    (rgbToHsv r g b).1
      = if (rgbToHsv r g b).2.1 = 0 then 0 else hue r g b (max r (max g b)) (max r (max g b) - min r (min g b)) := by
  rw [rgbToHsv_eq]

/-- A channel is at most 255, so even the least difference gives a saturation. -/
theorem saturation_eq_zero_iff {d mx : Nat} (hmx : mx ≤ 255) : 255 * d / mx = 0 ↔ d = 0 ∨ mx = 0 := by
  rw [Nat.div_eq_zero_iff]
  omega

theorem saturation_le {d mx : Nat} (hd : d ≤ mx) : 255 * d / mx ≤ 255 :=
  Nat.div_le_of_le_mul (by rw [Nat.mul_comm mx]; exact Nat.mul_le_mul_left 255 hd)

/-! ### The hue (R146, R147) -/

theorem hue_le (r g b mx d : Nat) : hue r g b mx d ≤ 255 := by
  simp only [hue]
  omega

theorem rgbToHsv_hue_le (r g b : Nat) : (rgbToHsv r g b).1 ≤ 255 := by
  rw [rgbToHsv_hue]
  split
  · exact Nat.zero_le _
  · exact hue_le _ _ _ _ _

/-- The quotient of a branch is within a sixth of the circle (R147). -/
theorem natAbs_hueQuotient_le {x y d : Nat} (h : ((x : Int) - y).natAbs ≤ d) :
    (Int.tdiv (43 * ((x : Int) - y)) d).natAbs ≤ 43 := by
  rw [Int.natAbs_tdiv, Int.natAbs_mul]
  exact Nat.div_le_of_le_mul (by rw [Nat.mul_comm]; exact Nat.mul_le_mul_right _ h)

section Branches

variable {r g b mx d : Nat}

theorem hue_red (hr : r = mx) : (hue r g b mx d : Int) = Int.tdiv (43 * ((g : Int) - b)) d % 256 := by
  rw [hue, if_pos hr.symm]
  omega

theorem hue_green (hr : r ≠ mx) (hg : g = mx) : (hue r g b mx d : Int) = (85 + Int.tdiv (43 * ((b : Int) - r)) d) % 256 := by
  rw [hue, if_neg (Ne.symm hr), if_pos hg.symm]
  omega

theorem hue_blue (hr : r ≠ mx) (hg : g ≠ mx) : (hue r g b mx d : Int) = (171 + Int.tdiv (43 * ((r : Int) - g)) d) % 256 := by
  rw [hue, if_neg (Ne.symm hr), if_neg (Ne.symm hg)]
  omega

end Branches

/-! ### Every hue is produced (R147) -/

/-- The least channel whose quotient over the full difference is `k`. -/
def quotientChannel (k : Nat) : Nat := (255 * k + 42) / 43

theorem quotientChannel_le {k : Nat} (hk : k ≤ 43) : quotientChannel k ≤ 255 := by
  unfold quotientChannel
  omega

theorem quotientChannel_lt {k : Nat} (hk : k ≤ 42) : quotientChannel k < 255 := by
  unfold quotientChannel
  omega

theorem hueQuotient_rising (k : Nat) : Int.tdiv (43 * ((quotientChannel k : Int) - (0 : Nat))) (255 : Nat) = k := by
  rw [Int.tdiv_eq_ediv_of_nonneg (by omega), quotientChannel]
  omega

theorem hueQuotient_falling (k : Nat) : Int.tdiv (43 * (((0 : Nat) : Int) - quotientChannel k)) (255 : Nat) = -k := by
  rw [← hueQuotient_rising k, ← Int.neg_tdiv]
  congr 1
  ring

/-- A colour with a channel of 255 and one of 0 is fully saturated, so it has a hue. -/
theorem hue_of_saturated {r g b h : Nat} (hmax : max r (max g b) = 255) (hmin : min r (min g b) = 0)
    (hhue : (hue r g b 255 255 : Int) = h) : (rgbToHsv r g b).1 = h := by
  have heq := rgbToHsv_eq r g b
  simp only [hmax, hmin] at heq
  rw [heq]
  exact Int.ofNat_inj.mp hhue

/-- One edge of the colour hexagon for each sixth of the circle of hues, its running channel chosen by the quotient. -/
theorem exists_rgb_of_hue {h : Nat} (hh : h ≤ 255) :
    ∃ r g b, r ≤ 255 ∧ g ≤ 255 ∧ b ≤ 255 ∧ (rgbToHsv r g b).1 = h := by
  have hsixth : h ≤ 43 ∨ 43 < h ∧ h ≤ 85 ∨ 85 < h ∧ h ≤ 128 ∨ 128 < h ∧ h ≤ 171 ∨ 171 < h ∧ h ≤ 213 ∨ 213 < h := by
    omega
  rcases hsixth with hred | ⟨hyellow, hgreen⟩ | ⟨hgreen, hcyan⟩ | ⟨hcyan, hblue⟩ | ⟨hblue, hmagenta⟩ | hmagenta
  · have hx := quotientChannel_le hred
    exact ⟨255, quotientChannel h, 0, le_rfl, hx, Nat.zero_le _,
      hue_of_saturated (by omega) (by omega) (by rw [hue_red rfl, hueQuotient_rising]; omega)⟩
  · have hx := quotientChannel_lt (k := 85 - h) (by omega)
    exact ⟨quotientChannel (85 - h), 255, 0, hx.le, le_rfl, Nat.zero_le _,
      hue_of_saturated (by omega) (by omega) (by rw [hue_green hx.ne rfl, hueQuotient_falling]; omega)⟩
  · have hx := quotientChannel_le (k := h - 85) (by omega)
    exact ⟨0, 255, quotientChannel (h - 85), Nat.zero_le _, le_rfl, hx,
      hue_of_saturated (by omega) (by omega) (by rw [hue_green (by decide) rfl, hueQuotient_rising]; omega)⟩
  · have hx := quotientChannel_lt (k := 171 - h) (by omega)
    exact ⟨0, quotientChannel (171 - h), 255, Nat.zero_le _, hx.le, le_rfl,
      hue_of_saturated (by omega) (by omega) (by rw [hue_blue (by decide) hx.ne, hueQuotient_falling]; omega)⟩
  · have hx := quotientChannel_lt (k := h - 171) (by omega)
    exact ⟨quotientChannel (h - 171), 0, 255, hx.le, Nat.zero_le _, le_rfl,
      hue_of_saturated (by omega) (by omega) (by rw [hue_blue hx.ne (by decide), hueQuotient_rising]; omega)⟩
  · have hx := quotientChannel_le (k := 256 - h) (by omega)
    exact ⟨255, 0, quotientChannel (256 - h), le_rfl, Nat.zero_le _, hx,
      hue_of_saturated (by omega) (by omega) (by rw [hue_red rfl, hueQuotient_falling]; omega)⟩

/-! ### The unused byte (R144) -/

theorem toNat_and_colour (c : Word) : (c &&& 0x00FFFFFF).toNat = c.toNat % 2 ^ 24 := by
  rw [BitVec.toNat_and]
  exact Nat.and_two_pow_sub_one_eq_mod c.toNat 24

/-- The channels are bits 23:0 of a colour word (R8). -/
theorem channels_congr {c c' : Word} (h : c &&& 0x00FFFFFF = c' &&& 0x00FFFFFF) :
    ch0 c = ch0 c' ∧ ch1 c = ch1 c' ∧ ch2 c = ch2 c' := by
  have hlow : c.toNat % 2 ^ 24 = c'.toNat % 2 ^ 24 := by rw [← toNat_and_colour, ← toNat_and_colour, h]
  unfold ch0 ch1 ch2
  omega

/-- A grey has no saturation and no hue (R147). -/
theorem rgbToHsv_grey (k : Nat) : rgbToHsv k k k = (0, 0, k) := by
  have h := rgbToHsv_eq k k k
  simpa using h

/-- Settles O39: value and saturation by their definition, the hue branch by branch, every hue by the colour hexagon. -/
theorem rgbToHsvFacts : Obligations.RgbToHsvFacts := by
  refine ⟨fun r g b hr hg hb => ?facts, fun k _ => rgbToHsv_grey k, fun h => exists_rgb_of_hue, by decide, by decide, by decide,
    by decide, by decide, by decide, fun c c' hc => ?unused⟩
  case unused =>
    obtain ⟨h0, h1, h2⟩ := channels_congr hc
    rw [rgb2hsvWord, rgb2hsvWord, h0, h1, h2]
  case facts =>
    intro p mx mn quotient
    have hsat0 : p.2.1 = 0 ↔ mx = mn ∨ mx = 0 := by
      rw [rgbToHsv_sat, saturation_eq_zero_iff (by omega)]
      omega
    have hgrey : p.2.1 = 0 → p.1 = 0 := fun h => (rgbToHsv_hue r g b).trans (if_pos h)
    have hhue : p.2.1 ≠ 0 → p.1 = hue r g b mx (mx - mn) := fun h => (rgbToHsv_hue r g b).trans (if_neg h)
    have hcoloured : mx ≠ mn → p.1 = hue r g b mx (mx - mn) := fun hne => hhue (by rw [Ne, hsat0]; omega)
    have hred : r = mx → (hue r g b mx (mx - mn) : Int) = quotient g b % 256 := hue_red
    have hgreen : r ≠ mx → g = mx → (hue r g b mx (mx - mn) : Int) = (85 + quotient b r) % 256 := hue_green
    have hblue : r ≠ mx → g ≠ mx → (hue r g b mx (mx - mn) : Int) = (171 + quotient r g) % 256 := hue_blue
    have hgb : (quotient g b).natAbs ≤ 43 := natAbs_hueQuotient_le (by omega)
    have hbr : (quotient b r).natAbs ≤ 43 := natAbs_hueQuotient_le (by omega)
    have hrg : (quotient r g).natAbs ≤ 43 := natAbs_hueQuotient_le (by omega)
    refine ⟨rgbToHsv_value r g b, hsat0, rgbToHsv_hue_le r g b, ?satRange, ?black, fun _ => rgbToHsv_sat r g b, hgrey, ?hue,
      fun _ => ⟨hgb, hbr, hrg⟩, ?red, ?green, ?blue⟩
    case satRange =>
      rw [rgbToHsv_sat]
      exact saturation_le (Nat.sub_le _ _)
    case black =>
      intro hmx
      have hsat : p.2.1 = 0 := hsat0.mpr (.inr hmx)
      exact Prod.ext (hgrey hsat) (Prod.ext hsat ((rgbToHsv_value r g b).trans hmx))
    case hue =>
      intro hsat
      rw [hhue (by omega)]
      split
      · exact hred ‹_›
      · split
        · exact hgreen ‹_› ‹_›
        · exact hblue ‹_› ‹_›
    case red =>
      intro hne hr
      rw [hcoloured hne]
      have := hred hr
      omega
    case green =>
      intro hne hr hg
      rw [hcoloured hne]
      have := hgreen hr hg
      omega
    case blue =>
      intro hne hr hg
      rw [hcoloured hne]
      have := hblue hr hg
      omega

/-! ### HSV to RGB (R149 to R152) -/

/-- The intermediate values of R151 are a fraction of the value. -/
theorem scaled_le {v n : Nat} (hn : n ≤ 255) : v * n / 256 ≤ v :=
  Nat.div_le_of_le_mul (by rw [Nat.mul_comm]; exact Nat.mul_le_mul_right v (by omega))

theorem scaled_le_254 {v n : Nat} (hv : v ≤ 255) (hn : n ≤ 255) : v * n / 256 ≤ 254 := by
  have := Nat.mul_le_mul hv hn
  omega

/-- No row of the table of R152 has a channel above the value, and each has one at the value. -/
theorem max_hsvToRgb (h s v : Nat) :
    max (hsvToRgb h s v).1 (max (hsvToRgb h s v).2.1 (hsvToRgb h s v).2.2) = v := by
  have hp := scaled_le (v := v) (Nat.sub_le 255 s)
  have hq := scaled_le (v := v) (Nat.sub_le 255 (s * ((h - h / 43 * 43) * 6) / 256))
  have ht := scaled_le (v := v) (Nat.sub_le 255 (s * (255 - (h - h / 43 * 43) * 6) / 256))
  unfold hsvToRgb
  split
  · simp
  · simp only
    split <;> simp only <;> omega

theorem hsvToRgb_grey (h v : Nat) : hsvToRgb h 0 v = (v, v, v) := rfl

/-- Settles O40: the rows by the region, the largest channel by the table, the round trip by the value RGB2HSV gives. -/
theorem hsvRoundTripKeepsLargestChannel : Obligations.HsvRoundTripKeepsLargestChannel := by
  refine ⟨fun h s v hh hs hv => ?table, fun r g b hr hg hb => ⟨?largest, ?grey⟩⟩
  case table =>
    intro o rem p q t
    refine ⟨fun h0 => ?greyRow, fun h1 => ?rows, max_hsvToRgb h s v, scaled_le_254 hv (Nat.sub_le _ _),
      scaled_le_254 hv (Nat.sub_le _ _), scaled_le_254 hv (Nat.sub_le _ _), by omega, by omega⟩
    case greyRow => simp only [o, h0, hsvToRgb_grey]
    case rows =>
      have hs0 : s ≠ 0 := by omega
      refine ⟨?_, ?_, ?_, ?_, ?_, ?_⟩ <;> intro hregion <;> simp only [o, p, q, t, rem, hsvToRgb, if_neg hs0, hregion]
  case largest => rw [max_hsvToRgb, rgbToHsv_value]
  case grey =>
    rintro rfl rfl
    rw [rgbToHsv_grey, hsvToRgb_grey]

end Sys2Proof.Machine
end

section
/-! PROOFS. The interpolation of one channel (41_color_model.md R143, R154): what is stored for a value, the end points, and the
error of the operations of binary32 on the values that occur between equal channels. -/

namespace Sys2Proof.Machine

/-! ### The channel stored (R143) -/

theorem storeChan_positive (mag : Nat) :
    storeChan (.fin false mag) = if mag < 256 * 2 ^ 149 then (mag / 2 ^ 149, false) else (255, true) := by
  have htrunc : binary32.trunc false mag = (mag / 2 ^ 149 : Nat) := rfl
  simp only [storeChan, htrunc, Int.toNat_natCast]
  rw [if_neg (by omega)]
  by_cases h : mag < 256 * 2 ^ 149
  · rw [if_pos h, if_neg (by omega)]
  · rw [if_neg h, if_pos (by omega)]

/-- Truncation toward zero takes a value strictly between -1 and 0 to 0, which is in range. -/
theorem storeChan_negative (mag : Nat) :
    storeChan (.fin true mag) = if mag < 2 ^ 149 then (0, false) else (0, true) := by
  have htrunc : binary32.trunc true mag = -(mag / 2 ^ 149 : Nat) := rfl
  simp only [storeChan, htrunc]
  by_cases h : mag < 2 ^ 149
  · rw [if_pos h, Nat.div_eq_of_lt h]
    rfl
  · rw [if_neg h, if_pos (by omega)]

theorem storeChan_le (z : Fp) : (storeChan z).1 ≤ 255 := by
  cases z with
  | nan => decide
  | inf neg => cases neg <;> decide
  | fin neg mag =>
    cases neg with
    | false =>
      rw [storeChan_positive]
      split
      · simp only; omega
      · exact le_rfl
    | true =>
      rw [storeChan_negative]
      split <;> exact Nat.zero_le _

theorem storeChan_ofNat {n : Nat} (hn : n ≤ 255) : storeChan (binary32.ofNat n) = (n, false) := by
  have hofNat : binary32.ofNat n = .fin false (n * 2 ^ 149) := rfl
  rw [hofNat, storeChan_positive, if_pos (by omega), Nat.mul_div_cancel _ (Nat.two_pow_pos 149)]

/-- Settles O42: the value by its definition, what is stored by the kind of the value. -/
theorem lerpStoresAChannel : Obligations.LerpStoresAChannel := by
  refine ⟨fun _ _ _ => rfl, rfl, rfl, rfl, fun neg mag => ?_, fun _ _ => rfl, fun _ _ _ => storeChan_le _⟩
  cases neg with
  | false => exact storeChan_positive mag
  | true => exact storeChan_negative mag

/-! ### Exact operations -/

theorem lerpChan_eq_storeChan {x y : Nat} {t m u w : Fp} (hm : binary32.sub (binary32.ofNat 1) t = m)
    (hu : binary32.mul (binary32.ofNat x) m = u) (hw : binary32.mul (binary32.ofNat y) t = w) :
    lerpChan x y t = storeChan (binary32.add u w) := by
  rw [lerpChan, lerpValue, hm, hu, hw]

theorem FpFormat.ofNat_zero (f : FpFormat) : f.ofNat 0 = .fin false 0 := by rw [FpFormat.ofNat, Nat.zero_mul]

/-- An integer times a power of two, neither too large, is not rounded. -/
theorem FpFormat.mul_ofNat_exact {f : FpFormat} {n q e : Nat} (neg : Bool) (hq : n * q < 2 ^ f.prec)
    (hlim : n * q * 2 ^ e < f.limit) : f.mul (f.ofNat n) (.fin neg (q * 2 ^ e)) = .fin neg (n * q * 2 ^ e) := by
  have hmul : f.mul (f.ofNat n) (.fin neg (q * 2 ^ e)) = f.round (false != neg) (n * 2 ^ f.scale * (q * 2 ^ e)) f.scale := rfl
  have hprod : n * 2 ^ f.scale * (q * 2 ^ e) = n * q * 2 ^ (e + f.scale) := by rw [pow_add]; ring
  rw [hmul, hprod, Bool.false_bne, FpFormat.round_exact neg hq (Nat.le_add_left _ _) (by rwa [Nat.add_sub_cancel]),
    Nat.add_sub_cancel]

theorem FpFormat.mul_ofNat_zero (f : FpFormat) (n : Nat) (neg : Bool) : f.mul (f.ofNat n) (.fin neg 0) = .fin neg 0 := by
  have h := FpFormat.mul_ofNat_exact (f := f) (n := n) (q := 0) (e := 0) neg (Nat.two_pow_pos _) (by simp [FpFormat.limit])
  simpa using h

section EndPoints

variable {f : FpFormat} (hf : f.prec ≤ 2 ^ (f.expBits - 1)) {n : Nat} (hn : n < 2 ^ f.prec)
include hf hn

theorem FpFormat.mul_ofNat_one : f.mul (f.ofNat n) (f.ofNat 1) = f.ofNat n := by
  rw [FpFormat.mul_ofNat hf (by rwa [Nat.mul_one]), Nat.mul_one]

theorem FpFormat.zero_add_ofNat : f.add (.fin false 0) (f.ofNat n) = f.ofNat n := by
  rw [← f.ofNat_zero, FpFormat.add_ofNat hf (by rwa [Nat.zero_add]), Nat.zero_add]

/-- Adding a zero of either sign changes nothing. -/
theorem FpFormat.add_ofNat_zero (neg : Bool) : f.add (f.ofNat n) (.fin neg 0) = f.ofNat n := by
  have hplus : f.add (f.ofNat n) (.fin false 0) = f.ofNat n := by
    rw [← f.ofNat_zero, FpFormat.add_ofNat hf (by rwa [Nat.add_zero]), Nat.add_zero]
  cases neg with
  | false => exact hplus
  | true =>
    unfold FpFormat.ofNat at *
    rw [f.add_fin_same_sign, Nat.add_zero] at hplus
    rw [← Bool.not_false, f.add_fin_opposite_sign, Nat.sub_zero, hplus]
    split
    · rfl
    · rename_i hzero
      rw [if_neg (Nat.not_lt_zero _), Nat.eq_zero_of_not_pos hzero]

end EndPoints

theorem channel_lt_prec {n : Nat} (hn : n ≤ 255) : n < 2 ^ binary32.prec := by
  have hprec : 2 ^ binary32.prec = 2 ^ 24 := rfl
  omega

/-- At a zero of either sign `1 - t` is 1, and the interpolation is its first end point. -/
theorem lerpChan_zero {x : Nat} (hx : x ≤ 255) (y : Nat) (neg : Bool) : lerpChan x y (.fin neg 0) = (x, false) := by
  have hm : binary32.sub (binary32.ofNat 1) (.fin neg 0) = binary32.ofNat 1 :=
    FpFormat.add_ofNat_zero prec_binary32 (channel_lt_prec (by decide)) (!neg)
  rw [lerpChan_eq_storeChan hm (FpFormat.mul_ofNat_one prec_binary32 (channel_lt_prec hx)) (FpFormat.mul_ofNat_zero _ _ _),
    FpFormat.add_ofNat_zero prec_binary32 (channel_lt_prec hx), storeChan_ofNat hx]

/-- At 1 the difference `1 - t` is `+0`, and the interpolation is its second end point. -/
theorem lerpChan_one (x : Nat) {y : Nat} (hy : y ≤ 255) : lerpChan x y (binary32.ofNat 1) = (y, false) := by
  have hm : binary32.sub (binary32.ofNat 1) (binary32.ofNat 1) = .fin false 0 := by decide +kernel
  rw [lerpChan_eq_storeChan hm (FpFormat.mul_ofNat_zero _ _ _) (FpFormat.mul_ofNat_one prec_binary32 (channel_lt_prec hy)),
    FpFormat.zero_add_ofNat prec_binary32 (channel_lt_prec hy), storeChan_ofNat hy]

/-- At `2^30` the difference `1 - t` rounds to `-2^30`, and two equal channels cancel. -/
theorem lerpChan_two_pow_30 {x : Nat} (hx : x ≤ 255) : lerpChan x x (.fin false (1 * 2 ^ 179)) = (0, false) := by
  have hm : binary32.sub (binary32.ofNat 1) (.fin false (1 * 2 ^ 179)) = .fin true (1 * 2 ^ 179) := by decide +kernel
  have hmul : ∀ neg, binary32.mul (binary32.ofNat x) (.fin neg (1 * 2 ^ 179)) = .fin neg (x * 1 * 2 ^ 179) := fun neg =>
    FpFormat.mul_ofNat_exact neg (by rw [Nat.mul_one]; exact channel_lt_prec hx) (by rw [limit_binary32]; omega)
  rw [lerpChan_eq_storeChan hm (hmul true) (hmul false), ← Bool.not_true, FpFormat.add_fin_opposite_sign,
    if_neg (lt_irrefl _), if_neg (lt_irrefl _)]
  rfl

/-! ### Rounding errors between equal channels -/

/-- A magnitude below `2 ^ (prec + g)` is rounded by at most half of `2 ^ g`. -/
theorem FpFormat.two_mul_roundingError_le {f : FpFormat} {m d g : Nat} (hd : d ≤ g) (hm : m < 2 ^ (f.prec + g)) :
    2 * roundingError m d (f.roundedMag m d) ≤ 2 ^ g := by
  have hdropped : f.dropped m d ≤ g := by
    have hlog : m ≠ 0 → Nat.log2 m < f.prec + g := fun h0 => (Nat.log2_lt h0).mpr hm
    rcases Nat.eq_zero_or_pos m with rfl | hpos
    · simp [FpFormat.dropped, FpFormat.prec, hd]
    · have := hlog hpos.ne'
      unfold FpFormat.dropped
      omega
  obtain ⟨hlow, hhigh, -⟩ := roundNearestEven_spec m (f.dropped m d)
  have hexpand : (2 * roundNearestEven m (f.dropped m d) + 1) * 2 ^ f.dropped m d
      = 2 * (roundNearestEven m (f.dropped m d) * 2 ^ f.dropped m d) + 2 ^ f.dropped m d := by ring
  rw [hexpand] at hlow
  rw [Nat.mul_assoc] at hhigh
  calc 2 * roundingError m d (f.roundedMag m d)
      = 2 * roundingError m (f.dropped m d) (roundNearestEven m (f.dropped m d)) := by
        rw [FpFormat.roundedMag, roundingError_mul (f.le_dropped m d)]
    _ ≤ 2 ^ f.dropped m d := by rw [roundingError_eq]; omega
    _ ≤ 2 ^ g := Nat.pow_le_pow_right (by norm_num) hdropped

/-- In units of binary32, at most `2 ^ 133` apart: `2 ^ (-16)` as values. -/
abbrev closeUnits (m n : Nat) : Prop := m ≤ n + 2 ^ 133 ∧ n ≤ m + 2 ^ 133

/-- A magnitude below `2 ^ 9` as a value is rounded to one close to it. -/
theorem round_close {m d : Nat} (hm : m < 2 ^ 158) :
    ∃ mag, binary32.round false (m * 2 ^ d) d = .fin false mag ∧ closeUnits m mag := by
  have hlt : m * 2 ^ d < 2 ^ (binary32.prec + (134 + d)) := by
    rw [← Nat.add_assoc, show binary32.prec + 134 = 158 from rfl, pow_add]
    exact Nat.mul_lt_mul_of_pos_right hm (Nat.two_pow_pos d)
  have herror := FpFormat.two_mul_roundingError_le (Nat.le_add_left d 134) hlt
  generalize hmag : binary32.roundedMag (m * 2 ^ d) d = mag at herror
  have hclose : closeUnits m mag := by
    rw [roundingError_eq, ← Nat.sub_mul, ← Nat.sub_mul, ← Nat.add_mul, ← Nat.mul_assoc, pow_add] at herror
    have := Nat.le_of_mul_le_mul_right herror (Nat.two_pow_pos d)
    omega
  refine ⟨mag, ?_, hclose⟩
  rw [FpFormat.round_eq, hmag, limit_binary32, if_neg (by omega)]

theorem one_sub_close {t : Nat} (ht : t ≤ 2 ^ 149) :
    ∃ m, binary32.sub (binary32.ofNat 1) (.fin false t) = .fin false m ∧ closeUnits (2 ^ 149 - t) m := by
  have hsub : binary32.sub (binary32.ofNat 1) (.fin false t) = binary32.add (.fin false (2 ^ 149)) (.fin (!false) t) := rfl
  rw [hsub, FpFormat.add_fin_opposite_sign, if_neg ht.not_gt]
  split
  · have hround := round_close (m := 2 ^ 149 - t) (d := 0) (by omega)
    rwa [pow_zero, Nat.mul_one] at hround
  · exact ⟨0, rfl, by omega⟩

theorem mul_ofNat_close {x m : Nat} (h : x * m < 2 ^ 158) :
    ∃ u, binary32.mul (binary32.ofNat x) (.fin false m) = .fin false u ∧ closeUnits (x * m) u := by
  have hmul : binary32.mul (binary32.ofNat x) (.fin false m) = binary32.round false (x * 2 ^ 149 * m) 149 := rfl
  rw [hmul, Nat.mul_right_comm]
  exact round_close h

theorem add_close {u w : Nat} (h : u + w < 2 ^ 158) :
    ∃ z, binary32.add (.fin false u) (.fin false w) = .fin false z ∧ closeUnits (u + w) z := by
  rw [FpFormat.add_fin_same_sign]
  have hround := round_close (d := 0) h
  rwa [pow_zero, Nat.mul_one] at hround

/-- The four roundings together move the value by less than 1, so it truncates to `x` or to `x - 1`. -/
theorem lerpChan_equal {x t : Nat} (hx : x ≤ 255) (ht : t ≤ 2 ^ 149) :
    ((lerpChan x x (.fin false t)).1 = x ∨ (lerpChan x x (.fin false t)).1 + 1 = x)
    ∧ (lerpChan x x (.fin false t)).2 = false := by
  obtain ⟨m, hm, hmLow, hmHigh⟩ := one_sub_close ht
  have hlow : x * (2 ^ 149 - 2 ^ 133) ≤ x * (m + t) := Nat.mul_le_mul_left x (by omega)
  have hhigh : x * (m + t) ≤ x * (2 ^ 149 + 2 ^ 133) := Nat.mul_le_mul_left x (by omega)
  rw [Nat.mul_add x m t] at hlow hhigh
  obtain ⟨u, hu, huLow, huHigh⟩ := mul_ofNat_close (x := x) (m := m) (by omega)
  obtain ⟨w, hw, hwLow, hwHigh⟩ := mul_ofNat_close (x := x) (m := t) (by omega)
  obtain ⟨z, hz, hzLow, hzHigh⟩ := add_close (u := u) (w := w) (by omega)
  rw [lerpChan_eq_storeChan hm hu hw, hz, storeChan_positive, if_pos (by omega)]
  exact ⟨by simp only; omega, rfl⟩

/-- The patterns up to that of 1 are the values from `+0` to 1. -/
theorem decode_unit_interval {bits : Nat} (h : bits ≤ 0x3F800000) : ∃ t ≤ 2 ^ 149, binary32.decode bits = .fin false t := by
  have hdecode := binary32.decode_fields (sign := 0) (exp := bits / 2 ^ 23) (frac := bits % 2 ^ 23) (by decide)
    (by rw [show binary32.expBits = 8 from rfl]; omega) (Nat.mod_lt _ (Nat.two_pow_pos 23))
  have hfrac : bits % 2 ^ 23 < 2 ^ 23 := Nat.mod_lt _ (Nat.two_pow_pos 23)
  rw [show binary32.fracBits = 23 from rfl, show binary32.expBits = 8 from rfl, Nat.zero_mul, Nat.zero_add,
    Nat.div_add_mod' bits (2 ^ 23), if_neg (by omega)] at hdecode
  split at hdecode
  · exact ⟨_, by omega, hdecode⟩
  · refine ⟨_, ?_, hdecode⟩
    rcases Nat.lt_or_ge (bits / 2 ^ 23) 127 with hexp | hexp
    · calc (2 ^ 23 + bits % 2 ^ 23) * 2 ^ (bits / 2 ^ 23 - 1)
          ≤ 2 ^ 24 * 2 ^ 125 := Nat.mul_le_mul (by omega) (Nat.pow_le_pow_right (by norm_num) (by omega))
        _ = 2 ^ 149 := by rw [← pow_add]
    · have hexpOne : bits / 2 ^ 23 = 127 := by omega
      have hfracOne : bits % 2 ^ 23 = 0 := by omega
      rw [hexpOne, hfracOne]
      norm_num

/-- Settles O41: the end points by exact operations, equal channels by the errors of the four roundings. -/
theorem lerpInterpolatesWithinRounding : Obligations.LerpInterpolatesWithinRounding := by
  have hplus : binary32.decode 0x00000000 = .fin false 0 := by decide
  have hminus : binary32.decode 0x80000000 = .fin true 0 := by decide
  have hone : binary32.decode 0x3F800000 = binary32.ofNat 1 := by decide +kernel
  have hlarge : binary32.decode 0x4E800000 = .fin false (1 * 2 ^ 179) := by decide +kernel
  refine ⟨fun x y hx hy => ?endPoints, fun x bits hx hbits => ?equal, fun x hx => ?large, by decide +kernel,
    by decide +kernel⟩
  case endPoints =>
    rw [hplus, hminus, hone]
    exact ⟨lerpChan_zero hx y false, lerpChan_zero hx y true, lerpChan_one x hy⟩
  case equal =>
    obtain ⟨t, ht, hdecode⟩ := decode_unit_interval hbits
    rw [hdecode]
    exact lerpChan_equal hx ht
  case large =>
    rw [hlarge]
    exact lerpChan_two_pow_30 hx

end Sys2Proof.Machine
end

section
/-! PROOFS. The gamma lookup (42_gamma_lut.md): the index of an intensity code (R162), LUTLD (R160) and GAMMA (R163). A linear
colour record is read as one 64-bit number; its fields are the 16-bit numbers at the byte offsets of R77. -/

namespace Sys2Proof.Machine

/-! ### Parts of a little-endian number (R9) -/

/-- The bytes of a number are its low bytes and then its high ones. -/
theorem Memory.readLE_add (m : Memory) (low high : Nat) :
    ∀ a, m.readLE a (low + high) = m.readLE a low + 256 ^ low * m.readLE (a + low) high := by
  induction low with
  | zero => intro a; simp [Memory.readLE]
  | succ n ih =>
    intro a
    calc m.readLE a (n + 1 + high)
        = (m.read a).toNat + 256 * m.readLE (a + 1) (n + high) := by rw [Nat.succ_add]; rfl
      _ = (m.read a).toNat + 256 * (m.readLE (a + 1) n + 256 ^ n * m.readLE (a + 1 + n) high) := by rw [ih]
      _ = m.readLE a (n + 1) + 256 ^ (n + 1) * m.readLE (a + (n + 1)) high := by
        rw [Nat.add_right_comm a 1 n, Nat.add_assoc a n 1, Memory.readLE]
        ring

theorem Memory.readLE_mod (m : Memory) (a low high : Nat) : m.readLE a (low + high) % 256 ^ low = m.readLE a low := by
  rw [Memory.readLE_add, Nat.add_mul_mod_self_left, Nat.mod_eq_of_lt (m.readLE_lt low a)]

theorem Memory.readLE_div (m : Memory) (a low high : Nat) :
    m.readLE a (low + high) / 256 ^ low = m.readLE (a + low) high := by
  rw [Memory.readLE_add, Nat.add_mul_div_left _ _ (by positivity), Nat.div_eq_of_lt (m.readLE_lt low a), Nat.zero_add]

/-- Field `j` of a record stands in the two bytes at offset `2 j` (R77). -/
theorem linearField_readLE (m : Memory) (a : Nat) {j : Nat} (hj : j ≤ 3) :
    linearField (m.readLE a 8) j = m.readLE (a + 2 * j) 2 := by
  have hoffset : 2 ^ (16 * j) = 256 ^ (2 * j) := by
    rw [show 256 = 2 ^ 8 from rfl, ← Nat.pow_mul, ← Nat.mul_assoc]
  have hbytes : 8 = 2 * j + (2 + (6 - 2 * j)) := by omega
  calc m.readLE a 8 / 2 ^ (16 * j) % 65536
      = m.readLE a (2 * j + (2 + (6 - 2 * j))) / 256 ^ (2 * j) % 256 ^ 2 := by
        rw [hoffset, ← hbytes]
        rfl
    _ = m.readLE (a + 2 * j) 2 := by rw [Memory.readLE_div, Memory.readLE_mod]

/-! ### The index of an intensity code (R162) -/

theorem lutIndex_lt {L l : Nat} (hL : L ≤ 16) (hl : l < 2 ^ 16) : lutIndex L l < 2 ^ L := by
  refine Nat.div_lt_of_lt_mul ?_
  rwa [← Nat.pow_add, Nat.sub_add_cancel hL]

theorem lutIndex_sixteen (l : Nat) : lutIndex 16 l = l := Nat.div_one l

theorem lutIndex_eq_iff (L l j : Nat) : lutIndex L l = j ↔ j * 2 ^ (16 - L) ≤ l ∧ l < (j + 1) * 2 ^ (16 - L) := by
  have hpos : 0 < 2 ^ (16 - L) := by positivity
  rw [lutIndex, Nat.div_eq_iff hpos, Nat.add_one_mul]
  omega

/-- Settles O43: the index is a quotient by `2 ^ (16 - L)`. -/
theorem lutIndexSelectsTopBits : Obligations.LutIndexSelectsTopBits := fun L l _ hL hl =>
  ⟨lutIndex_lt hL hl, fun h => h ▸ lutIndex_sixteen l, lutIndex_eq_iff L l⟩

/-! ### LUTLD (R160) -/

theorem tableAt_length (L : Nat) (m : Memory) (src : Word) : (tableAt L m src).length = 2 ^ L := by
  rw [tableAt, List.length_map, List.length_range]

theorem tableAt_getD (m : Memory) (src : Word) {L k : Nat} (hk : k < 2 ^ L) :
    (tableAt L m src).getD k 0 = m.read (src.toNat + k) := by
  rw [List.getD_eq_getElem _ _ (by rwa [tableAt_length])]
  simp only [tableAt, List.getElem_map, List.getElem_range]

theorem exec_lutld_valid {s : State} {src : Word} (h : validate s (.lutld src) = none) :
    exec (.lutld src) s
      = finish s (lutldAccesses s.platform.lutAddrBits src)
          { s with lut := tableAt s.platform.lutAddrBits s.mem src, lutv := true }
          { s with lut := freeLut s.platform s.freeCount, lutv := false } := by
  have hcheck : checkLutld s src = none := h
  simp only [exec, execLutld, hcheck]

/-- Settles O33: a validated LUTLD ends with the table `tableAt`. -/
theorem lutldLoadsTheTable : Obligations.LutldLoadsTheTable := by
  intro s src htop hsrc hsrcEnd hallow
  have hvalid : validate s (.lutld src) = none :=
    validate_of_legal (by simp) htop (by simp [alignedAddresses, hsrc]) trivial
      (by simpa [regionsOf, regionTable] using hsrcEnd) id
  rw [exec_lutld_valid hvalid]
  exact ⟨_, finish_of_allows _ _ hallow, rfl, tableAt_length _ _ _, fun _ hk => tableAt_getD _ _ hk⟩

/-! ### GAMMA (R163) -/

/-- GAMMA on a record in memory looks up its three fields. -/
theorem gammaWord_readLE (L : Nat) (lut : List Byte) (m : Memory) (a : Nat) :
    gammaWord L lut (m.readLE a 8)
      = pack3 (lutChan L lut (m.readLE (a + 2 * 0) 2)) (lutChan L lut (m.readLE (a + 2 * 1) 2))
          (lutChan L lut (m.readLE (a + 2 * 2) 2)) := by
  rw [gammaWord, linearField_readLE m a (by decide), linearField_readLE m a (by decide), linearField_readLE m a (by decide)]

theorem exec_gamma_valid {s : State} {dst src : Word} {count : Nat} (h : validate s (.gamma dst src count) = none) :
    exec (.gamma dst src count) s
      = finish s (gammaAccesses dst src count)
          { s with mem :=
              streamLoop dst (fun m k => gammaWord s.platform.lutAddrBits s.lut (m.readLE (recAddr src k) 8)) count s.mem }
          (s.havoc (writtenRegions (.gamma dst src count))) := by
  have hcheck : checkGamma s dst src count = none := h
  simp only [exec, execGamma, hcheck]

/-- Settles O34: a validated GAMMA is the stream of `gammaWord` over records that no write of the loop reaches. -/
theorem gammaLooksUpEveryRecord : Obligations.GammaLooksUpEveryRecord := by
  intro s dst src count hlutv htop hsrc hdst hsrcEnd hdstEnd hapart hallow
  have hoverlap : ¬forbiddenOverlap (.gamma dst src count) := fun hmeets =>
    Bool.eq_false_iff.mp hapart ((Region.overlaps_iff_meets _ _).mpr hmeets)
  have hvalid : validate s (.gamma dst src count) = none :=
    calc validate s (.gamma dst src count)
        = contentsCheck s (.gamma dst src count) :=
          validate_of_legal (by simp) htop (by simp [alignedAddresses, hsrc, hdst]) trivial
            (by simpa [regionsOf, regionTable] using ⟨hsrcEnd, hdstEnd⟩) hoverlap
      _ = none := (lutCheck_eq_none_iff s).mpr hlutv
  rw [exec_gamma_valid hvalid]
  refine ⟨_, finish_of_allows _ _ hallow, rfl, fun k hk => ?_, streamLoop_sameOutside dst _ count s.mem⟩
  rw [State.advance_mem, streamLoop_pix (fun j hj m hm => congrArg _ (readRec_eq_of_apart hapart hj hm)) k hk]
  exact gammaWord_readLE _ _ _ _

end Sys2Proof.Machine
end

section
/-! PROOFS. The axes of RESIZE (43_resampler.md R182 to R184) and the checks of its operands (R180, R184, R188, R203). -/

namespace Sys2Proof.Machine

/-! ### The axes (R182, R183) -/

section Axis

variable {srcLen dstLen : Nat}

theorem axisStep_of_shrinks (h : dstLen < srcLen) : axisStep srcLen dstLen = srcLen / dstLen := if_pos h

theorem axisStep_of_grows (h : srcLen ≤ dstLen) : axisStep srcLen dstLen = dstLen / srcLen := if_neg h.not_gt

theorem axisSource_of_shrinks (h : dstLen < srcLen) (x : Nat) : axisSource srcLen dstLen x = x * (srcLen / dstLen) := by
  rw [axisSource, if_pos h, axisStep_of_shrinks h]

theorem axisSource_of_grows (h : srcLen ≤ dstLen) (x : Nat) : axisSource srcLen dstLen x = x / (dstLen / srcLen) := by
  rw [axisSource, if_neg h.not_gt, axisStep_of_grows h]

theorem axisStep_pos (hsrc : 1 ≤ srcLen) (hdst : 1 ≤ dstLen) : 1 ≤ axisStep srcLen dstLen := by
  rcases Nat.lt_or_ge dstLen srcLen with h | h
  · rw [axisStep_of_shrinks h]
    exact Nat.div_pos h.le hdst
  · rw [axisStep_of_grows h]
    exact Nat.div_pos h hsrc

/-- Where the step leaves a remainder, the last coordinate already lies past `srcLen` whole steps (R184). -/
theorem le_axisSource_last (hsrc : 1 ≤ srcLen) (hgrows : srcLen ≤ dstLen) (hrest : dstLen % srcLen ≠ 0) :
    srcLen ≤ axisSource srcLen dstLen (dstLen - 1) := by
  have hsplit : srcLen * (dstLen / srcLen) + dstLen % srcLen = dstLen := Nat.div_add_mod dstLen srcLen
  rw [axisSource_of_grows hgrows, Nat.le_div_iff_mul_le (Nat.div_pos hgrows hsrc)]
  omega

end Axis

/-- Settles O44: the step by its two branches, the coordinates of a legal axis and the last one of an illegal axis. -/
theorem legalAxesStayInTheSource : Obligations.LegalAxesStayInTheSource := by
  intro src dst hsrc hdst
  refine ⟨axisStep_pos hsrc hdst, fun h => ⟨axisStep_of_shrinks h, axisSource_of_shrinks h⟩,
    fun h => ⟨axisStep_of_grows h, axisSource_of_grows h⟩, fun hexact x hx => ?_, le_axisSource_last hsrc⟩
  exact axisSource_lt ⟨hsrc, hdst, hexact⟩ hx

/-! ### The checks of the operands (R180, R184, R188, R203) -/

/-- Below the last slot and with the addresses aligned, the sizes are checked next (R250). -/
theorem validate_of_missized {s : State} {i : Instr} {r : Raised} (hi : i ≠ .halt) (htop : s.cp ≠ 0xFFFFFFC0)
    (halign : ∀ p ∈ alignedAddresses i, p.1.toNat % p.2 = 0) (h : sizesCheck i = some r) : validate s i = some r := by
  rw [validate_eq_checks s hi, (cpWrapCheck_eq_none_iff s).mpr htop, (alignCheck_eq_none_iff _).mpr halign, h]
  rfl

theorem alignedAddresses_resize_aligned {dst src scratch : Word} {blur : Int} (dstW dstH srcW srcH : Nat)
    (hsrc : src.toNat % 4 = 0) (hdst : dst.toNat % 4 = 0) (hscratch : 0 < blur → scratch.toNat % 4 = 0) :
    ∀ p ∈ alignedAddresses (.resize dst dstW dstH src srcW srcH blur scratch), p.1.toNat % p.2 = 0 := by
  simp only [alignedAddresses]
  split
  next hblur => simp [hsrc, hdst, hscratch hblur]
  next => simp [hsrc, hdst]

section Sizes

variable {dst src scratch : Word} {dstW dstH srcW srcH : Nat} {blur : Int}

theorem badUpsample_of_remainder {srcLen dstLen : Nat} (hgrows : srcLen ≤ dstLen) (hrest : dstLen % srcLen ≠ 0) :
    badUpsample srcLen dstLen = true := by
  simp [badUpsample, hgrows, hrest]

theorem upsampleCheck_x (hgrows : srcW ≤ dstW) (hrest : dstW % srcW ≠ 0) :
    upsampleCheck srcW srcH dstW dstH = some ⟨.upsample, 0⟩ :=
  if_pos (badUpsample_of_remainder hgrows hrest)

theorem upsampleCheck_y (hexact : srcW ≤ dstW → dstW % srcW = 0) (hgrows : srcH ≤ dstH) (hrest : dstH % srcH ≠ 0) :
    upsampleCheck srcW srcH dstW dstH = some ⟨.upsample, 1⟩ := by
  rw [upsampleCheck, (badUpsample_eq_false_iff srcW dstW).mpr hexact]
  exact if_pos (badUpsample_of_remainder hgrows hrest)

theorem sizesCheck_resize_of_dim {r : Raised} (h : dimCheck 0 [srcW, srcH, dstW, dstH] = some r) :
    sizesCheck (.resize dst dstW dstH src srcW srcH blur scratch) = some r := by
  rw [sizesCheck, h, orElse_some_left]

theorem sizesCheck_resize_of_upsample {r : Raised} (hdim : 1 ≤ srcW ∧ 1 ≤ srcH ∧ 1 ≤ dstW ∧ 1 ≤ dstH)
    (h : upsampleCheck srcW srcH dstW dstH = some r) :
    sizesCheck (.resize dst dstW dstH src srcW srcH blur scratch) = some r := by
  have hpass : dimCheck 0 [srcW, srcH, dstW, dstH] = none := by simpa [dimCheck_eq_none_iff] using hdim
  rw [sizesCheck, hpass, h, orElse_none_left, orElse_some_left]

/-- With legal axes a blur is left to its scratch address and to the fit of the 5x5 kernel. -/
theorem sizesCheck_resize_of_axes (hblur : 0 < blur) (hx : legalAxis srcW dstW) (hy : legalAxis srcH dstH) :
    sizesCheck (.resize dst dstW dstH src srcW srcH blur scratch)
      = (scratchCheck true scratch <|> kernelFitCheck dstW dstH 5 5) := by
  obtain ⟨hsrcW, hdstW, hexactX⟩ := hx
  obtain ⟨hsrcH, hdstH, hexactY⟩ := hy
  have hdim : dimCheck 0 [srcW, srcH, dstW, dstH] = none := by simp [dimCheck_eq_none_iff, hsrcW, hsrcH, hdstW, hdstH]
  have hup : upsampleCheck srcW srcH dstW dstH = none := (upsampleCheck_eq_none_iff _ _ _ _).mpr ⟨hexactX, hexactY⟩
  rw [sizesCheck, hdim, hup, (blurs_iff blur).mpr hblur, orElse_none_left, orElse_none_left, if_pos rfl]

end Sizes

/-- Settles O20: the sizes are checked right after ALIGN, and each clause names the first of their checks that fails. -/
theorem resizeChecksItsOperands : Obligations.ResizeChecksItsOperands := by
  intro s dst src dstW dstH srcW srcH blur scratch htop hsrc hdst hscratch
  have hfault : ∀ {r}, sizesCheck (.resize dst dstW dstH src srcW srcH blur scratch) = some r →
      ∃ t, exec (.resize dst dstW dstH src srcW srcH blur scratch) s = .next t ∧ s.faulted r.cause.code r.info t := fun h =>
    exec_faulted (validate_of_missized (by simp) htop
      (alignedAddresses_resize_aligned dstW dstH srcW srcH hsrc hdst hscratch) h)
  refine ⟨fun k hk hzero hbefore => ?dim, fun hsrcW hsrcH hdstW hdstH => ?upsample, fun hblur hx hy => ?blur⟩
  case dim =>
    have hfirst := dimCheck_first [srcW, srcH, dstW, dstH] 0 k hk hzero hbefore
    rw [Nat.zero_add] at hfirst
    exact hfault (sizesCheck_resize_of_dim hfirst)
  case upsample =>
    have hdim : 1 ≤ srcW ∧ 1 ≤ srcH ∧ 1 ≤ dstW ∧ 1 ≤ dstH := ⟨hsrcW, hsrcH, hdstW, hdstH⟩
    exact ⟨fun ⟨hgrows, hrest⟩ => hfault (sizesCheck_resize_of_upsample hdim (upsampleCheck_x hgrows hrest)),
      fun hexact ⟨hgrows, hrest⟩ => hfault (sizesCheck_resize_of_upsample hdim (upsampleCheck_y hexact hgrows hrest))⟩
  case blur =>
    have hsizes := sizesCheck_resize_of_axes (dst := dst) (src := src) (scratch := scratch) hblur hx hy
    refine ⟨fun hnull => hfault (r := ⟨.nullScratch, 0⟩) ?_, fun hpresent hnarrow => hfault (r := ⟨.kernelSize, 1⟩) ?_,
      fun hpresent hwide hlow => hfault (r := ⟨.kernelSize, 2⟩) ?_⟩
    · rw [hsizes, hnull]
      rfl
    · rw [hsizes, (scratchCheck_eq_none_iff true scratch).mpr fun _ => hpresent, orElse_none_left]
      exact if_pos hnarrow
    · rw [hsizes, (scratchCheck_eq_none_iff true scratch).mpr fun _ => hpresent, orElse_none_left]
      exact (if_neg hwide.not_gt).trans (if_pos hlow)

end Sys2Proof.Machine
end

section
/-! PROOFS. The blur pass (43_resampler.md R186, R187, R189): its weights are 0 and 1, so every weighted sum is a small integer
and exact; its factor times such a sum is no NaN, and times 13 equal channels it rounds to the channel. -/

namespace Sys2Proof.Machine

/-! ### The weights -/

/-- The diamond of `BLUR_KERNEL` as integers (R187). -/
def blurMask (f : Nat × Nat) : Nat := if ((f.1 : Int) - 2).natAbs + ((f.2 : Int) - 2).natAbs ≤ 2 then 1 else 0

theorem blurKernel_eq : blurKernel = (pixels 5 5).map fun f => binary64.ofNat (blurMask f) := by
  refine List.map_congr_left fun f _ => ?_
  unfold blurMask
  split
  · rfl
  · exact (binary64.ofNat_zero).symm

theorem sum_blurMask : ((pixels 5 5).map blurMask).sum = 13 := by decide

/-- An image laid out row-major is found by its coordinates. -/
theorem getD_map_pixels {α : Type} (g : Nat × Nat → α) {w h x y : Nat} (hx : x < w) (hy : y < h) (d : α) :
    ((pixels w h).map g).getD (y * w + x) d = g (x, y) := by
  have hlt : y * w + x < ((pixels w h).map g).length := by
    rw [pixels_eq, List.length_map, List.length_map, List.length_range]
    exact pixel_index_lt hx hy
  rw [List.getD_eq_getElem _ _ hlt]
  simp only [pixels_eq, List.getElem_map, List.getElem_range, pixel_index_mod hx, pixel_index_div hx]

/-! ### Weighted sums of integers -/

/-- The sum of one channel that a destination pixel takes when the weights are integers. -/
def ConvJob.integerSum (j : ConvJob) (weight : Nat × Nat → Nat) (m : Memory) (chan : Word → Nat) (x y : Nat) : Nat :=
  (j.taps.map fun f => weight f * chan (m.pix j.src (j.tapIndex x y f.1 f.2))).sum

/-- Products and sums of integers are exact while they stay below `2 ^ 53`. -/
theorem foldl_add_mul_ofNat {α : Type} (weight value : α → Nat) (l : List α) :
    ∀ start, start + (l.map fun f => weight f * value f).sum < 2 ^ binary64.prec →
      l.foldl (fun acc f => binary64.add acc (binary64.mul (binary64.ofNat (weight f)) (binary64.ofNat (value f))))
          (binary64.ofNat start)
        = binary64.ofNat (start + (l.map fun f => weight f * value f).sum) := by
  induction l with
  | nil => exact fun _ _ => rfl
  | cons f l ih =>
    intro start hsum
    rw [List.map_cons, List.sum_cons, ← Nat.add_assoc] at hsum ⊢
    have hstep : start + weight f * value f < 2 ^ binary64.prec := Nat.lt_of_le_of_lt (Nat.le_add_right _ _) hsum
    have hterm : weight f * value f < 2 ^ binary64.prec := Nat.lt_of_le_of_lt (Nat.le_add_left _ _) hstep
    rw [List.foldl_cons, FpFormat.mul_ofNat prec_binary64 hterm, FpFormat.add_ofNat prec_binary64 hstep]
    exact ih _ hsum

/-- With integer weights the weighted sum of R204 is the integer sum. -/
theorem ConvJob.accumulate_of_integer_weights {j : ConvJob} {weight : Nat × Nat → Nat} {m : Memory} {chan : Word → Nat}
    {x y : Nat} (hweight : ∀ f ∈ j.taps, j.weight f.1 f.2 = binary64.ofNat (weight f))
    (hsum : j.integerSum weight m chan x y < 2 ^ binary64.prec) :
    j.accumulate m chan x y = binary64.ofNat (j.integerSum weight m chan x y) :=
  calc j.accumulate m chan x y
      = j.taps.foldl (fun acc f => binary64.add acc (binary64.mul (binary64.ofNat (weight f))
          (binary64.ofNat (chan (m.pix j.src (j.tapIndex x y f.1 f.2)))))) (binary64.ofNat 0) := by
        rw [ConvJob.accumulate, binary64.ofNat_zero]
        exact List.foldl_ext _ _ _ fun acc f hf => by rw [hweight f hf]
    _ = binary64.ofNat (0 + j.integerSum weight m chan x y) :=
        foldl_add_mul_ofNat _ _ _ 0 (by rwa [Nat.zero_add])
    _ = binary64.ofNat (j.integerSum weight m chan x y) := by rw [Nat.zero_add]

section Job

variable {dst scratch : Word} {dstW dstH : Nat} {m : Memory} {chan : Word → Nat} {x y : Nat}

theorem weight_blurJob : ∀ f ∈ pixels 5 5, (blurJob dst dstW dstH scratch).weight f.1 f.2 = binary64.ofNat (blurMask f) := by
  rintro ⟨fx, fy⟩ hf
  obtain ⟨hx, hy⟩ := mem_pixels.mp hf
  rw [ConvJob.weight, show (blurJob dst dstW dstH scratch).weights = blurKernel from rfl, blurKernel_eq]
  exact getD_map_pixels _ hx hy _

/-- Every sum of the blur is at most `13 * 255` (R186). -/
theorem integerSum_blurJob_le (hchan : ∀ c, chan c ≤ 255) :
    (blurJob dst dstW dstH scratch).integerSum blurMask m chan x y ≤ 13 * 255 :=
  calc (blurJob dst dstW dstH scratch).integerSum blurMask m chan x y
      ≤ ((pixels 5 5).map fun f => blurMask f * 255).sum :=
        List.sum_le_sum fun f _ => Nat.mul_le_mul_left (blurMask f) (hchan _)
    _ = 13 * 255 := by rw [List.sum_map_mul_right, sum_blurMask]

theorem accumulate_blurJob (hchan : ∀ c, chan c ≤ 255) :
    (blurJob dst dstW dstH scratch).accumulate m chan x y
      = binary64.ofNat ((blurJob dst dstW dstH scratch).integerSum blurMask m chan x y) :=
  ConvJob.accumulate_of_integer_weights weight_blurJob
    (Nat.lt_of_le_of_lt (integerSum_blurJob_le hchan) (by decide))

/-- Where every source word is `c` the sum is 13 times its channel. -/
theorem integerSum_blurJob_solid {c : Word} (hw : 0 < dstW) (hh : 0 < dstH)
    (hsolid : ∀ k < dstW * dstH, m.pix scratch k = c) :
    (blurJob dst dstW dstH scratch).integerSum blurMask m chan x y = 13 * chan c := by
  have hread : ∀ f : Nat × Nat,
      m.pix scratch ((blurJob dst dstW dstH scratch).tapIndex x y f.1 f.2) = c := fun f =>
    hsolid _ (ConvJob.tapIndex_lt (j := blurJob dst dstW dstH scratch) hw hh x y f.1 f.2)
  calc (blurJob dst dstW dstH scratch).integerSum blurMask m chan x y
      = ((pixels 5 5).map fun f => blurMask f * chan c).sum :=
        congrArg List.sum (List.map_congr_left fun f _ => congrArg (fun w => blurMask f * chan w) (hread f))
    _ = 13 * chan c := by rw [List.sum_map_mul_right, sum_blurMask]

end Job

/-! ### The factor -/

/-- The exponent of `BLUR_FACTOR` in least subnormals: `2 ^ 56` times `2 ^ blurShift` of them make 1. Never unfolded in a
power, which would be a number of a thousand bits. -/
@[irreducible] def blurShift : Nat := 1018

theorem scale_eq_blurShift : binary64.scale = 56 + blurShift := by
  rw [blurShift]
  rfl

/-- `BLUR_FACTOR` is the significand `0x13B13B13B13B14` times `2 ^ (-56)` (R187). -/
theorem blurFactor_eq : blurFactor = .fin false (0x13B13B13B13B14 * 2 ^ blurShift) := by
  unfold blurShift
  decide +kernel

theorem limit_ge_blurShift : 2 ^ (65 + blurShift) ≤ binary64.limit := by
  have hrange : 65 + blurShift ≤ 2 ^ (binary64.expBits - 1) + binary64.scale := by
    rw [scale_eq_blurShift, show 2 ^ (binary64.expBits - 1) = 1024 from rfl]
    omega
  exact Nat.pow_le_pow_right (by decide) hrange

/-! ### No channel is a NaN -/

theorem outChan_eq_none_iff (acc factor bias : Fp) :
    outChan acc factor bias = none ↔ binary64.add (binary64.mul factor acc) bias = .nan := by
  unfold outChan
  cases binary64.add (binary64.mul factor acc) bias <;> simp

theorem outChan_of_fin {acc factor bias : Fp} {neg : Bool} {mag : Nat}
    (h : binary64.add (binary64.mul factor acc) bias = .fin neg mag) :
    outChan acc factor bias = some (min (max (binary64.roundHalfAway neg mag) 0) 255).toNat := by
  rw [outChan, h]

/-- A finite factor times a finite value, plus a finite bias, is no NaN. -/
theorem FpFormat.add_mul_fin_ne_nan (f : FpFormat) (a b c : Bool) (m n k : Nat) :
    f.add (f.mul (.fin a m) (.fin b n)) (.fin c k) ≠ .nan := by
  have hmul : f.mul (.fin a m) (.fin b n) = f.round (a != b) (m * n) f.scale := rfl
  rcases f.round_cases (a != b) (m * n) f.scale with h | ⟨mag, h⟩
  · rw [hmul, h]
    exact Fp.noConfusion
  · rw [hmul, h]
    exact f.add_fin_ne_nan _ _ _ _

theorem ch0_le (c : Word) : ch0 c ≤ 255 := Nat.le_of_lt_succ (Nat.mod_lt _ (by decide))
theorem ch1_le (c : Word) : ch1 c ≤ 255 := Nat.le_of_lt_succ (Nat.mod_lt _ (by decide))
theorem ch2_le (c : Word) : ch2 c ≤ 255 := Nat.le_of_lt_succ (Nat.mod_lt _ (by decide))

theorem outChan_blur_ne_none (n : Nat) : outChan (binary64.ofNat n) blurFactor (.fin false 0) ≠ none := by
  rw [Ne, outChan_eq_none_iff, blurFactor_eq]
  exact binary64.add_mul_fin_ne_nan _ _ _ _ _ _

theorem ConvJob.pixel_eq_some {j : ConvJob} {m : Memory} {x y c0 c1 c2 : Nat}
    (h0 : outChan (j.accumulate m ch0 x y) j.factor j.bias = some c0)
    (h1 : outChan (j.accumulate m ch1 x y) j.factor j.bias = some c1)
    (h2 : outChan (j.accumulate m ch2 x y) j.factor j.bias = some c2) : j.pixel m x y = some (pack3 c0 c1 c2) := by
  rw [ConvJob.pixel, h0, h1, h2]

/-- The blur gives a word for every image (R186). -/
theorem pixel_blurJob_isSome (dst : Word) (dstW dstH : Nat) (scratch : Word) (m : Memory) (x y : Nat) :
    ((blurJob dst dstW dstH scratch).pixel m x y).isSome = true := by
  have hchannel : ∀ chan : Word → Nat, (∀ c, chan c ≤ 255) →
      ∃ n, outChan ((blurJob dst dstW dstH scratch).accumulate m chan x y) blurFactor (.fin false 0) = some n := by
    intro chan hchan
    rw [accumulate_blurJob hchan]
    exact Option.ne_none_iff_exists'.mp (outChan_blur_ne_none _)
  obtain ⟨c0, h0⟩ := hchannel ch0 ch0_le
  obtain ⟨c1, h1⟩ := hchannel ch1 ch1_le
  obtain ⟨c2, h2⟩ := hchannel ch2 ch2_le
  rw [ConvJob.pixel_eq_some h0 h1 h2]
  rfl

/-! ### An image of one colour (R189) -/

/-- A value below `2 ^ (prec + g)` units and clear of the limit is rounded to one at most `2 ^ g` units away. -/
theorem FpFormat.round_within {f : FpFormat} {m d g : Nat} (hm : m < 2 ^ (f.prec + g)) (hlim : m + 2 ^ g < f.limit) :
    ∃ mag, f.round false (m * 2 ^ d) d = .fin false mag ∧ m ≤ mag + 2 ^ g ∧ mag ≤ m + 2 ^ g := by
  have hlt : m * 2 ^ d < 2 ^ (f.prec + (g + d)) := by
    rw [← Nat.add_assoc, pow_add]
    exact Nat.mul_lt_mul_of_pos_right hm (Nat.two_pow_pos d)
  have herror := FpFormat.two_mul_roundingError_le (Nat.le_add_left d g) hlt
  generalize hmag : f.roundedMag (m * 2 ^ d) d = mag at herror
  have hclose : m ≤ mag + 2 ^ g ∧ mag ≤ m + 2 ^ g := by
    rw [roundingError_eq, ← Nat.sub_mul, ← Nat.sub_mul, ← Nat.add_mul, ← Nat.mul_assoc, pow_add] at herror
    have := Nat.le_of_mul_le_mul_right herror (Nat.two_pow_pos d)
    omega
  exact ⟨mag, by rw [FpFormat.round_eq, hmag, if_neg (by omega)], hclose⟩

/-- Below `2 ^ 8` as a value, rounding moves a value by at most `2 ^ (-45)`. -/
theorem round_blur_range {m d : Nat} (hm : m < 2 ^ 64 * 2 ^ blurShift) :
    ∃ mag, binary64.round false (m * 2 ^ d) d = .fin false mag
      ∧ m ≤ mag + 2 ^ 11 * 2 ^ blurShift ∧ mag ≤ m + 2 ^ 11 * 2 ^ blurShift := by
  have hrange : binary64.prec + (11 + blurShift) = 64 + blurShift := (Nat.add_assoc 53 11 blurShift).symm
  have hlim := limit_ge_blurShift
  have hwithin := FpFormat.round_within (f := binary64) (m := m) (d := d) (g := 11 + blurShift)
  rw [hrange, pow_add, pow_add] at hwithin
  rw [pow_add] at hlim
  exact hwithin hm (by omega)

/-- The product of the factor with 13 equal channels is the channel, but for one rounding and the excess of `4 / 2 ^ 56` that
13 times the factor has over 1. -/
theorem mul_blurFactor_thirteen {n : Nat} (hn : n ≤ 255) :
    ∃ mag, binary64.mul blurFactor (binary64.ofNat (13 * n)) = .fin false mag
      ∧ (2 ^ 56 + 4) * (n * 2 ^ blurShift) ≤ mag + 2 ^ 11 * 2 ^ blurShift
      ∧ mag ≤ (2 ^ 56 + 4) * (n * 2 ^ blurShift) + 2 ^ 11 * 2 ^ blurShift := by
  have hproduct : ∀ one, 0x13B13B13B13B14 * 2 ^ blurShift * (13 * n * one) = (2 ^ 56 + 4) * (n * 2 ^ blurShift) * one := by
    intro one
    ring
  have hunits : n * 2 ^ blurShift ≤ 255 * 2 ^ blurShift := Nat.mul_le_mul_right _ hn
  have hpos : 0 < 2 ^ blurShift := Nat.two_pow_pos _
  rw [blurFactor_eq, FpFormat.ofNat, FpFormat.mul, hproduct]
  exact round_blur_range (by omega)

/-- A value less than one half away from an integer rounds to it (R205). -/
theorem FpFormat.roundHalfAway_of_near {f : FpFormat} {n mag : Nat} (hlow : 2 * n * 2 ^ f.scale ≤ 2 * mag + 2 ^ f.scale)
    (hhigh : 2 * mag < 2 * n * 2 ^ f.scale + 2 ^ f.scale) : f.roundHalfAway false mag = n := by
  have hquotient : (2 * mag + 2 ^ f.scale) / 2 ^ (f.scale + 1) = n := by
    rw [Nat.div_eq_iff (Nat.two_pow_pos _), pow_succ]
    generalize 2 ^ f.scale = unit at *
    have hdouble : n * (unit * 2) = 2 * n * unit := by ring
    omega
  rw [FpFormat.roundHalfAway, if_neg Bool.false_ne_true, hquotient]

/-- The factor and both roundings together move the channel by less than one half. -/
theorem outChan_blur_thirteen {n : Nat} (hn : n ≤ 255) :
    outChan (binary64.ofNat (13 * n)) blurFactor (.fin false 0) = some n := by
  obtain ⟨p, hp, hplow, hphigh⟩ := mul_blurFactor_thirteen hn
  have hunits : n * 2 ^ blurShift ≤ 255 * 2 ^ blurShift := Nat.mul_le_mul_right _ hn
  have hpos : 0 < 2 ^ blurShift := Nat.two_pow_pos _
  obtain ⟨q, hq, hqlow, hqhigh⟩ := round_blur_range (m := p) (d := 0) (by omega)
  have hsum : binary64.add (binary64.mul blurFactor (binary64.ofNat (13 * n))) (.fin false 0) = .fin false q := by
    rw [hp, binary64.add_fin_same_sign, ← hq, pow_zero, Nat.mul_one, Nat.add_zero]
  have hchannel : 2 * n * (2 ^ 56 * 2 ^ blurShift) = 2 * 2 ^ 56 * (n * 2 ^ blurShift) := by ring
  have hround : binary64.roundHalfAway false q = n := by
    refine FpFormat.roundHalfAway_of_near ?_ ?_ <;> rw [scale_eq_blurShift, pow_add, hchannel] <;> omega
  have hclamp : (min (max (n : Int) 0) 255).toNat = n := by omega
  rw [outChan_of_fin hsum, hround, hclamp]

theorem pack3_channels (c : Word) : pack3 (ch0 c) (ch1 c) (ch2 c) = c &&& 0x00FFFFFF := by
  apply BitVec.eq_of_toNat_eq
  rw [toNat_and_colour, pack3, BitVec.toNat_ofNat]
  unfold ch0 ch1 ch2
  omega

/-- Settles O49: each channel is the blur of 13 equal channels, and packing leaves the unused byte 0. -/
theorem blurKeepsASolidColour : Obligations.BlurKeepsASolidColour := by
  intro dst dstW dstH scratch m c hw hh hsolid x y _ _
  have hchannel : ∀ chan : Word → Nat, (∀ c, chan c ≤ 255) →
      outChan ((blurJob dst dstW dstH scratch).accumulate m chan x y) blurFactor (.fin false 0) = some (chan c) := by
    intro chan hchan
    rw [accumulate_blurJob hchan, integerSum_blurJob_solid (by omega) (by omega) hsolid]
    exact outChan_blur_thirteen (hchan c)
  rw [ConvJob.pixel_eq_some (hchannel ch0 ch0_le) (hchannel ch1 ch1_le) (hchannel ch2 ch2_le), pack3_channels]

end Sys2Proof.Machine
end

section
/-! PROOFS. RESIZE from validation to its end (43_resampler.md R180, R186): NUMERIC is never raised, and with legal operands and
every access allowed the destination holds the resampled image or its blur. -/

namespace Sys2Proof.Machine

/-! ### Validation raises no NUMERIC (R241) -/

/-- The check passes or fails with a cause other than NUMERIC. -/
def NeverNumeric (c : Option Raised) : Prop := ∀ r, c = some r → r.cause ≠ .numeric

theorem NeverNumeric.none : NeverNumeric none := nofun

theorem NeverNumeric.some {r : Raised} (h : r.cause ≠ .numeric) : NeverNumeric (some r) := fun _ hr => Option.some.inj hr ▸ h

theorem NeverNumeric.ite {p : Prop} [Decidable p] {c d : Option Raised} (hc : NeverNumeric c) (hd : NeverNumeric d) :
    NeverNumeric (if p then c else d) := by
  split
  · exact hc
  · exact hd

theorem NeverNumeric.orElse {c d : Option Raised} (hc : NeverNumeric c) (hd : NeverNumeric d) : NeverNumeric (c <|> d) := by
  cases c with
  | none => exact hd
  | some r => exact hc

theorem alignCheck_neverNumeric (l : List (Word × Nat)) : NeverNumeric (alignCheck l) := by
  induction l with
  | nil => exact .none
  | cons p l ih => exact .ite ih (.some nofun)

theorem dimCheck_neverNumeric (l : List Nat) : ∀ k, NeverNumeric (dimCheck k l) := by
  induction l with
  | nil => exact fun _ => .none
  | cons n l ih => exact fun k => .ite (.some nofun) (ih (k + 1))

theorem rangeCheck_neverNumeric (l : List Region) : NeverNumeric (rangeCheck l) := by
  induction l with
  | nil => exact .none
  | cons r l ih => exact .ite ih (.some nofun)

theorem kernelFitCheck_neverNumeric (w h kw kh : Nat) : NeverNumeric (kernelFitCheck w h kw kh) :=
  .ite (.some nofun) (.ite (.some nofun) .none)

theorem sizesCheck_neverNumeric (i : Instr) : NeverNumeric (sizesCheck i) := by
  cases i with
  | resize =>
    have hup : ∀ srcW srcH dstW dstH, NeverNumeric (upsampleCheck srcW srcH dstW dstH) := fun _ _ _ _ =>
      .ite (.some nofun) (.ite (.some nofun) .none)
    have hscratch : ∀ blurs scratch, NeverNumeric (scratchCheck blurs scratch) := fun _ _ => .ite (.some nofun) .none
    exact .orElse (dimCheck_neverNumeric _ _) (.orElse (hup _ _ _ _) (.orElse (hscratch _ _)
      (.ite (kernelFitCheck_neverNumeric _ _ _ _) .none)))
  | conv => exact .orElse (dimCheck_neverNumeric _ _) (.ite (.some nofun) (kernelFitCheck_neverNumeric _ _ _ _))
  | _ => exact .none

theorem overlapCheck_neverNumeric (i : Instr) : NeverNumeric (overlapCheck i) := by
  rw [overlapCheck]
  cases destinationOf i with
  | none => exact .none
  | some dst => exact .ite (.some nofun) .none

theorem contentsCheck_neverNumeric (s : State) (i : Instr) : NeverNumeric (contentsCheck s i) := by
  intro r hr hnumeric
  have hcause := contentsCheck_cause hr
  rw [hnumeric] at hcause
  exact absurd hcause (by decide)

theorem validate_neverNumeric (s : State) (i : Instr) : NeverNumeric (validate s i) := by
  by_cases hi : i = .halt
  · subst hi
    exact .none
  · rw [validate_eq_checks s hi]
    exact .orElse (.ite (.some nofun) .none) (.orElse (alignCheck_neverNumeric _) (.orElse (sizesCheck_neverNumeric i)
      (.orElse (rangeCheck_neverNumeric _) (.orElse (overlapCheck_neverNumeric i) (contentsCheck_neverNumeric s i)))))

theorem Cause.code_ne_numeric {c : Cause} (h : c ≠ .numeric) : c.code ≠ 0x21 := by
  cases c with
  | numeric => exact absurd rfl h
  | _ => decide

/-! ### Execution past validation -/

section Execution

variable {s : State} {dst src scratch : Word} {dstW dstH srcW srcH : Nat} {blur : Int}

theorem exec_resize_plain (hvalid : validate s (.resize dst dstW dstH src srcW srcH blur scratch) = none)
    (hblur : ¬0 < blur) :
    exec (.resize dst dstW dstH src srcW srcH blur scratch) s
      = finish s (resampleAccesses dst dstW dstH src srcW srcH)
          { s with mem := resample dst dstW dstH src srcW srcH s.mem }
          (s.havoc (writtenRegions (.resize dst dstW dstH src srcW srcH blur scratch))) := by
  have hcheck : checkResize s dst dstW dstH src srcW srcH blur scratch = none := hvalid
  simp only [exec, execResize, hcheck, blurs_iff, if_neg hblur]

theorem exec_resize_blurred {m : Memory} (hvalid : validate s (.resize dst dstW dstH src srcW srcH blur scratch) = none)
    (hblur : 0 < blur)
    (hpass : blurPass s.platform dst dstW dstH scratch (resample dst dstW dstH src srcW srcH s.mem) = .done m) :
    exec (.resize dst dstW dstH src srcW srcH blur scratch) s
      = finish s (resampleAccesses dst dstW dstH src srcW srcH ++ blurAccesses dst dstW dstH scratch) { s with mem := m }
          (s.havoc (writtenRegions (.resize dst dstW dstH src srcW srcH blur scratch))) := by
  have hcheck : checkResize s dst dstW dstH src srcW srcH blur scratch = none := hvalid
  simp only [exec, execResize, hcheck, blurs_iff, if_pos hblur, hpass]

theorem exec_resize_bus (hvalid : validate s (.resize dst dstW dstH src srcW srcH blur scratch) = none) (hblur : 0 < blur)
    (hpass : blurPass s.platform dst dstW dstH scratch (resample dst dstW dstH src srcW srcH s.mem) = .bus) :
    ∃ info, exec (.resize dst dstW dstH src srcW srcH blur scratch) s
      = .next ((s.havoc (writtenRegions (.resize dst dstW dstH src srcW srcH blur scratch))).raise ⟨.bus, info⟩) := by
  have hcheck : checkResize s dst dstW dstH src srcW srcH blur scratch = none := hvalid
  simp only [exec, execResize, hcheck, blurs_iff, if_pos hblur, hpass]
  exact ⟨_, rfl⟩

end Execution

/-! ### RESIZE raises no NUMERIC (R186) -/

/-- Without a NaN channel `conv_image` does not end with one. -/
theorem ConvJob.run_ne_numeric {j : ConvJob} (hsome : ∀ m x y, (j.pixel m x y).isSome = true) (plat : Platform) (m : Memory)
    (addr : Word) : j.run plat m ≠ .numeric addr := by
  have hloop : ∀ ps m, j.loop plat ps m ≠ .numeric addr := by
    intro ps
    induction ps with
    | nil => exact fun m => nofun
    | cons p ps ih =>
      intro m
      by_cases hok : j.pixelOk plat p
      · obtain ⟨w, hw⟩ := Option.isSome_iff_exists.mp (hsome m p.1 p.2)
        rw [ConvJob.loop_cons_some hok hw]
        exact ih _
      · rw [ConvJob.loop_cons_refused hok (hsome m p.1 p.2)]
        exact nofun
  exact hloop _ m

/-- The end of a command raises BUS or nothing. -/
theorem finish_errCode {s finished broken t : State} {accs : List Access} (hcode : finished.errCode ≠ 0x21)
    (h : finish s accs finished broken = .next t) : t.errCode ≠ 0x21 := by
  rcases finish_cases h with ⟨-, rfl⟩ | ⟨a, -, -, rfl⟩
  · exact hcode
  · exact Cause.code_ne_numeric (c := .bus) nofun

/-- Settles O48: the sums of the blur are integers, so neither its convolution nor any check raises NUMERIC. -/
theorem blurNeverMeetsANan : Obligations.BlurNeverMeetsANan := by
  refine ⟨pixel_blurJob_isSome, fun s t dst dstW dstH src srcW srcH blur scratch hcode hexec => ?_⟩
  cases hvalid : validate s (.resize dst dstW dstH src srcW srcH blur scratch) with
  | some r =>
    rw [exec_of_invalid hvalid] at hexec
    rw [← Host.Outcome.next.inj hexec]
    exact Cause.code_ne_numeric (validate_neverNumeric s _ r hvalid)
  | none =>
    by_cases hblur : 0 < blur
    · cases hpass : blurPass s.platform dst dstW dstH scratch (resample dst dstW dstH src srcW srcH s.mem) with
      | done m =>
        rw [exec_resize_blurred hvalid hblur hpass] at hexec
        exact finish_errCode (finished := { s with mem := m }) hcode hexec
      | bus =>
        obtain ⟨info, hbus⟩ := exec_resize_bus hvalid hblur hpass
        rw [hbus] at hexec
        rw [← Host.Outcome.next.inj hexec]
        exact Cause.code_ne_numeric (c := .bus) nofun
      | numeric addr =>
        exact absurd hpass (ConvJob.run_ne_numeric (pixel_blurJob_isSome dst dstW dstH scratch) _ _ addr)
    · rw [exec_resize_plain hvalid hblur] at hexec
      exact finish_errCode (finished := { s with mem := resample dst dstW dstH src srcW srcH s.mem }) hcode hexec

/-! ### What the passes leave in memory -/

/-- Every destination word is the source word at the coordinates of R183, as it was before the pass. -/
theorem resample_pix {dst src : Word} {dstW dstH srcW srcH : Nat} (hx : legalAxis srcW dstW) (hy : legalAxis srcH dstH)
    (hapart : (pixRegion src (srcW * srcH)).overlaps (pixRegion dst (dstW * dstH)) = false) (m : Memory) {x y : Nat}
    (hxlt : x < dstW) (hylt : y < dstH) :
    (resample dst dstW dstH src srcW srcH m).pix dst (y * dstW + x)
      = m.pix src (axisSource srcH dstH y * srcW + axisSource srcW dstW x) := by
  rw [resample_eq, streamLoop_pix ?ahead _ (pixel_index_lt hxlt hylt), pixel_index_mod hxlt, pixel_index_div hxlt,
    sourceIndex]
  case ahead =>
    intro k hk m' hm'
    obtain ⟨hcol, hrow⟩ := pixel_coords_lt hk
    exact pix_eq_of_disjoint hapart (sourceIndex_lt hx hy hcol hrow) (sameOutside_pixRegion_mono hm' hk.le)

theorem resample_sameOutside (dst : Word) (dstW dstH : Nat) (src : Word) (srcW srcH : Nat) (m : Memory) :
    m.sameOutside (resample dst dstW dstH src srcW srcH m) [pixRegion dst (dstW * dstH)] := by
  rw [resample_eq]
  exact streamLoop_sameOutside dst _ _ m

theorem copyPixels_pix {dest source : Word} {n k : Nat}
    (hapart : (pixRegion source n).overlaps (pixRegion dest n) = false) (m : Memory) (hk : k < n) :
    (copyPixels dest source n m).pix dest k = m.pix source k := by
  rw [copyPixels_eq]
  refine streamLoop_pix (fun j hj m' hm' => ?_) k hk
  exact pix_eq_of_disjoint hapart hj (sameOutside_pixRegion_mono hm' hj.le)

theorem copyPixels_sameOutside (dest source : Word) (n : Nat) (m : Memory) :
    m.sameOutside (copyPixels dest source n m) [pixRegion dest n] :=
  streamLoop_sameOutside dest (fun m k => m.pix source k) n m

/-- The blur pass ends with the image in the scratch buffer and its convolution in the destination (R186). -/
theorem blurPass_done {plat : Platform} {dst scratch : Word} {dstW dstH : Nat} (hw : 0 < dstW) (hh : 0 < dstH)
    (hapart : (pixRegion dst (dstW * dstH)).overlaps (pixRegion scratch (dstW * dstH)) = false)
    (hallow : ∀ a ∈ (blurJob dst dstW dstH scratch).accesses, plat.memOk a = true) (m : Memory) :
    ∃ m', blurPass plat dst dstW dstH scratch m = .done m'
      ∧ (∀ k < dstW * dstH, m'.pix scratch k = m.pix dst k)
      ∧ (∀ x y, x < dstW → y < dstH →
          (blurJob dst dstW dstH scratch).pixel m' x y = some (m'.pix dst (y * dstW + x)))
      ∧ m.sameOutside m' [pixRegion dst (dstW * dstH), pixRegion scratch (dstW * dstH)] := by
  have hapart' : (pixRegion scratch (dstW * dstH)).overlaps (pixRegion dst (dstW * dstH)) = false := by
    rwa [Region.overlaps_comm]
  obtain ⟨m', hpass, hwords, hframe⟩ : ∃ m', blurPass plat dst dstW dstH scratch m = .done m'
      ∧ (∀ x y, x < dstW → y < dstH → (blurJob dst dstW dstH scratch).pixel (copyPixels scratch dst (dstW * dstH) m) x y
          = some (m'.pix dst (y * dstW + x)))
      ∧ (copyPixels scratch dst (dstW * dstH) m).sameOutside m' [pixRegion dst (dstW * dstH)] :=
    ConvJob.run_done (ConvJob.readsAhead_of_disjoint hw hh hapart' _) hallow fun x y _ _ => pixel_blurJob_isSome ..
  have hscratch : ∀ k < dstW * dstH, m'.pix scratch k = (copyPixels scratch dst (dstW * dstH) m).pix scratch k :=
    fun k hk => pix_eq_of_disjoint hapart' hk hframe
  refine ⟨m', hpass, fun k hk => (hscratch k hk).trans (copyPixels_pix hapart m hk), fun x y hx hy => ?words, ?frame⟩
  case words =>
    rw [← hwords x y hx hy]
    exact ConvJob.pixel_congr fun f _ => hscratch _ (ConvJob.tapIndex_lt hw hh x y f.1 f.2)
  case frame =>
    exact Memory.sameOutside_trans (Memory.sameOutside_mono (copyPixels_sameOutside scratch dst (dstW * dstH) m) (by simp))
      (Memory.sameOutside_mono hframe (by simp))

/-! ### RESIZE completes -/

/-- Legal operands pass every check of R180; those of the scratch buffer count only with a blur. -/
theorem validate_resize_legal {s : State} {dst src scratch : Word} {dstW dstH srcW srcH : Nat} {blur : Int}
    (hlegal : ResizeLegal s dst dstW dstH src srcW srcH)
    (hscratch : 0 < blur → ScratchLegal dst dstW dstH src srcW srcH scratch) :
    validate s (.resize dst dstW dstH src srcW srcH blur scratch) = none := by
  refine validate_of_legal (by simp) hlegal.notAtTop ?align ⟨hlegal.xAxis, hlegal.yAxis, ?fits⟩ ?range ?overlap
  case align =>
    exact alignedAddresses_resize_aligned _ _ _ _ hlegal.srcAligned hlegal.dstAligned fun hblur => (hscratch hblur).aligned
  case fits => exact fun hblur => ⟨(hscratch hblur).present, (hscratch hblur).fits⟩
  case range =>
    simp only [regionsOf, regionTable]
    split
    next hblur => simpa using ⟨hlegal.srcInRange, hlegal.dstInRange, (hscratch hblur).inRange⟩
    next => simpa using ⟨hlegal.srcInRange, hlegal.dstInRange⟩
  case overlap =>
    have hnone : ∀ r q : Region, r.overlaps q = false → ¬r.meets q := fun r q h hmeets =>
      Bool.eq_false_iff.mp h ((Region.overlaps_iff_meets r q).mpr hmeets)
    rintro (himages | ⟨hblur, hsrc | hdst⟩)
    · exact hnone _ _ hlegal.imagesApart himages
    · exact hnone _ _ (hscratch hblur).srcApart hsrc
    · exact hnone _ _ (hscratch hblur).dstApart hdst

/-- Settles O35: a validated RESIZE without blur ends with the resampled memory. -/
theorem resizeCopiesNearestPixels : Obligations.ResizeCopiesNearestPixels := by
  intro s dst src dstW dstH srcW srcH blur scratch hblur hlegal hallow
  have hvalid := validate_resize_legal (scratch := scratch) hlegal fun h => absurd h hblur.not_gt
  rw [exec_resize_plain hvalid hblur.not_gt]
  exact ⟨_, finish_of_allows _ _ hallow, rfl,
    fun _ _ hx hy => resample_pix hlegal.xAxis hlegal.yAxis hlegal.imagesApart s.mem hx hy,
    resample_sameOutside dst dstW dstH src srcW srcH s.mem⟩

/-- Settles O36: a validated RESIZE with blur ends with what the blur pass makes of the resampled memory. -/
theorem blurredResizeConvolvesOnce : Obligations.BlurredResizeConvolvesOnce := by
  intro s dst src dstW dstH srcW srcH blur scratch hblur hlegal hscratch hallow
  have hconvolution : ∀ a ∈ (blurJob dst dstW dstH scratch).accesses, s.platform.memOk a = true := fun a ha =>
    hallow a (List.mem_append_right _ (List.mem_append_right _ ha))
  obtain ⟨m, hpass, hcopy, hwords, hframe⟩ := blurPass_done (plat := s.platform) hlegal.xAxis.2.1 hlegal.yAxis.2.1
    hscratch.dstApart hconvolution (resample dst dstW dstH src srcW srcH s.mem)
  rw [exec_resize_blurred (validate_resize_legal hlegal fun _ => hscratch) hblur hpass]
  refine ⟨_, finish_of_allows _ _ hallow, rfl, fun x y hx hy => ⟨?_, hwords x y hx hy⟩, ?_⟩
  · exact (hcopy _ (pixel_index_lt hx hy)).trans (resample_pix hlegal.xAxis hlegal.yAxis hlegal.imagesApart s.mem hx hy)
  · have hresampled := resample_sameOutside dst dstW dstH src srcW srcH s.mem
    exact Memory.sameOutside_trans (Memory.sameOutside_mono hresampled (by simp)) hframe

end Sys2Proof.Machine
end

section
/-! PROOFS. The convolution of one pixel (44_convolution.md R202 to R206, R209): the wrapped coordinates a tap reads, the
weighted sum as two nested sums, the channel it gives, and the identity kernel. -/

namespace Sys2Proof.Machine

/-! ### Wrap (R202) -/

section Wrap

variable {extent : Nat} (hpos : 0 < extent)
include hpos

theorem wrap_eq_emod (v : Int) : (wrap v extent : Int) = (v + extent) % extent := by
  have hnonneg := Int.emod_nonneg (v + extent) (b := (extent : Int)) (by omega)
  rw [wrap, Int.toNat_of_nonneg hnonneg]

theorem wrap_lt (v : Int) : wrap v extent < extent := by
  have hlt := Int.emod_lt_of_pos (v + extent) (b := (extent : Int)) (by omega)
  rw [← wrap_eq_emod hpos] at hlt
  exact Int.ofNat_lt.mp hlt

/-- `v` is its wrapped coordinate plus whole extents. -/
theorem exists_eq_wrap_add_mul (v : Int) : ∃ q : Int, v = (wrap v extent : Int) + q * extent := by
  refine ⟨(v + extent) / extent - 1, ?_⟩
  have hdiv := Int.emod_add_mul_ediv (v + extent) extent
  rw [wrap_eq_emod hpos]
  linarith

end Wrap

theorem wrap_of_lt {x extent : Nat} (h : x < extent) : wrap x extent = x := by
  rw [wrap, Int.add_emod_right, ← Int.natCast_emod, Int.toNat_natCast, Nat.mod_eq_of_lt h]

/-- Settles O45: the range and the congruence of the remainder, and an index in the image taken apart into its coordinates. -/
theorem wrapIsInRangeAndCongruent : Obligations.WrapIsInRangeAndCongruent := by
  refine ⟨fun v extent hpos _ => ⟨wrap_eq_emod hpos v, wrap_lt hpos v, exists_eq_wrap_add_mul hpos v⟩, ?_⟩
  intro j x y fx fy hw hh
  exact ⟨pixel_index_mod (wrap_lt hw _), pixel_index_div (wrap_lt hw _)⟩

/-! ### The weighted sum (R204) and the word (R206) -/

/-- A sum over the coordinates of an image is a sum over its rows of sums over their columns. -/
theorem foldl_pixels {α : Type} (f : α → Nat × Nat → α) (w h : Nat) (init : α) :
    (pixels w h).foldl f init
      = (List.range h).foldl (fun acc y => (List.range w).foldl (fun acc x => f acc (x, y)) acc) init := by
  simp only [pixels, List.foldl_flatMap, List.foldl_map]

theorem ConvJob.accumulate_eq_nested (j : ConvJob) (m : Memory) (chan : Word → Nat) (x y : Nat) :
    j.accumulate m chan x y = (List.range j.kh).foldl (fun acc fy => (List.range j.kw).foldl (fun acc fx =>
      binary64.add acc (binary64.mul (j.weight fx fy) (binary64.ofNat (chan (m.pix j.src (j.tapIndex x y fx fy)))))) acc)
      (.fin false 0) :=
  foldl_pixels _ j.kw j.kh _

theorem ConvJob.pixel_eq_none {j : ConvJob} {m : Memory} {x y : Nat}
    (h : outChan (j.accumulate m ch0 x y) j.factor j.bias = none ∨ outChan (j.accumulate m ch1 x y) j.factor j.bias = none
      ∨ outChan (j.accumulate m ch2 x y) j.factor j.bias = none) : j.pixel m x y = none := by
  unfold ConvJob.pixel
  split
  next h0 h1 h2 => simp [h0, h1, h2] at h
  next => rfl

/-- A weight of CONV is the binary64 number at its place in the row-major kernel (R78). -/
theorem Memory.getD_kernel (m : Memory) (base : Word) {kw kh k : Nat} (hk : k < kw * kh) (d : Fp) :
    (m.kernel base kw kh).getD k d = m.readF64 (recAddr base k) := by
  rw [Memory.kernel, List.getD_eq_getElem _ _ (by simpa using hk), List.getElem_map, List.getElem_range]

theorem length_kernel (m : Memory) (base : Word) (kw kh : Nat) : (m.kernel base kw kh).length = kw * kh := by
  rw [Memory.kernel, List.length_map, List.length_range]

/-- The pattern `0x3FF0000000000000` is 1.0. -/
theorem decode_one : binary64.decode 0x3FF0000000000000 = binary64.ofNat 1 := by decide +kernel

theorem decode_one_word : binary64.decode (0x3FF0000000000000 : DWord).toNat = binary64.ofNat 1 := by
  rw [show (0x3FF0000000000000 : DWord).toNat = 0x3FF0000000000000 from rfl, decode_one]

/-- Settles O59: the sum over the taps row by row, the weights by their place in the kernel. -/
theorem convPixelIsTheKernelSum : Obligations.ConvPixelIsTheKernelSum := by
  refine ⟨?pixel, fun m dst src w h kernel kw kh factor bias => ?conv, fun dst dstW dstH scratch => ?blur⟩
  case pixel =>
    intro j m x y source sum out
    have hout : ∀ chan, out chan = outChan (j.accumulate m chan x y) j.factor j.bias := fun chan =>
      congrArg (outChan · j.factor j.bias) (j.accumulate_eq_nested m chan x y).symm
    simp only [hout]
    exact ⟨fun _ _ _ => ConvJob.pixel_eq_some, ConvJob.pixel_eq_none⟩
  case conv =>
    exact ⟨⟨rfl, rfl, rfl, rfl, rfl, rfl⟩, rfl, rfl, length_kernel m kernel kw kh,
      fun fx fy hx hy => m.getD_kernel kernel (pixel_index_lt hx hy) _⟩
  case blur =>
    refine ⟨⟨rfl, rfl, rfl, rfl, rfl, rfl⟩, rfl, rfl, rfl, fun fx fy hx hy => ?_⟩
    rw [show (blurJob dst dstW dstH scratch).weights = blurKernel from rfl, blurKernel, getD_map_pixels _ hx hy, decode_one]

/-! ### The channel (R205) -/

theorem scale_binary64 : binary64.scale = 1074 := rfl

theorem outChan_of_inf {acc factor bias : Fp} {neg : Bool}
    (h : binary64.add (binary64.mul factor acc) bias = .inf neg) : outChan acc factor bias = some (if neg then 0 else 255) := by
  rw [outChan, h]

theorem FpFormat.roundHalfAway_negative_le (f : FpFormat) (mag : Nat) : f.roundHalfAway true mag ≤ 0 := by
  rw [FpFormat.roundHalfAway, if_pos rfl]
  exact neg_nonpos.mpr (Int.natCast_nonneg _)

/-- Settles O46: one clause for each kind of value. -/
theorem outputChannelRoundsAndClamps : Obligations.OutputChannelRoundsAndClamps := by
  intro acc factor bias v
  refine ⟨outChan_eq_none_iff acc factor bias, outChan_of_inf, outChan_of_inf, fun mag hv => ?negative,
    fun mag hv n hlow hhigh => ?positive⟩
  case negative =>
    have hround := binary64.roundHalfAway_negative_le mag
    rw [outChan_of_fin hv]
    congr 1
    omega
  case positive =>
    rw [← scale_binary64] at hlow hhigh
    have hround : binary64.roundHalfAway false mag = n := FpFormat.roundHalfAway_of_near hlow hhigh
    rw [outChan_of_fin hv, hround]
    congr 1
    omega

/-! ### The 1x1 kernel (R86, R209) -/

/-- A 1x1 kernel has one tap, and it reads the source pixel at the destination's own coordinates. -/
theorem ConvJob.tapIndex_single {j : ConvJob} (hkw : j.kw = 1) (hkh : j.kh = 1) {x y : Nat} (hx : x < j.w) (hy : y < j.h) :
    ∀ f ∈ j.taps, j.tapIndex x y f.1 f.2 = y * j.w + x := by
  rintro ⟨fx, fy⟩ hf
  obtain ⟨hfx, hfy⟩ := mem_pixels.mp hf
  obtain rfl : fx = 0 := by omega
  obtain rfl : fy = 0 := by omega
  have hcentre : ∀ v : Nat, (v : Int) - ((1 / 2 : Nat) : Int) + ((0 : Nat) : Int) = v := fun v => by omega
  rw [ConvJob.tapIndex, hkw, hkh, hcentre, hcentre, wrap_of_lt hx, wrap_of_lt hy]

/-- Factor 1 and bias 0 give a channel back. -/
theorem outChan_unit {n : Nat} (hn : n ≤ 255) : outChan (binary64.ofNat n) (binary64.ofNat 1) (.fin false 0) = some n := by
  have hprec : n < 2 ^ binary64.prec := Nat.lt_of_le_of_lt hn (by decide)
  have hvalue : binary64.add (binary64.mul (binary64.ofNat 1) (binary64.ofNat n)) (.fin false 0) = binary64.ofNat n := by
    rw [FpFormat.mul_ofNat prec_binary64 (by rwa [Nat.one_mul]), Nat.one_mul, FpFormat.add_ofNat_zero prec_binary64 hprec]
  have hclamp : (min (max (n : Int) 0) 255).toNat = n := by omega
  rw [outChan_of_fin hvalue, FpFormat.roundHalfAway_ofNat, hclamp]

/-- A single weight 1 sums to the channel of the one source pixel. -/
theorem ConvJob.accumulate_unit {j : ConvJob} (hkw : j.kw = 1) (hkh : j.kh = 1) (hweight : j.weight 0 0 = binary64.ofNat 1)
    (m : Memory) {chan : Word → Nat} (hchan : ∀ c, chan c ≤ 255) {x y : Nat} (hx : x < j.w) (hy : y < j.h) :
    j.accumulate m chan x y = binary64.ofNat (chan (m.pix j.src (y * j.w + x))) := by
  have htaps : j.taps = [(0, 0)] := by rw [ConvJob.taps, hkw, hkh]; rfl
  have hindex := ConvJob.tapIndex_single hkw hkh hx hy (0, 0) (by simp [htaps])
  have hsum : j.integerSum (fun _ => 1) m chan x y = chan (m.pix j.src (y * j.w + x)) := by
    simp [ConvJob.integerSum, htaps, hindex]
  rw [← hsum]
  refine ConvJob.accumulate_of_integer_weights (by simpa [htaps] using hweight) ?_
  rw [hsum]
  exact Nat.lt_of_le_of_lt (hchan _) (by decide)

/-- Settles O50: each channel is its own sum, and packing leaves the unused byte 0. -/
theorem unitKernelIsTheIdentity : Obligations.UnitKernelIsTheIdentity := by
  intro m dst src w h kernel x y hx hy hkernel
  generalize hj : convJob m dst src w h kernel 1 1 0x3FF0000000000000 0 = j
  have hweight : j.weight 0 0 = binary64.ofNat 1 := by
    have hread : m.readF64 (recAddr kernel 0) = binary64.ofNat 1 := by
      rw [Memory.readF64, recAddr, Nat.mul_zero, Nat.add_zero, hkernel, decode_one_word]
    rw [← hj, ← hread]
    exact m.getD_kernel kernel (kw := 1) (kh := 1) Nat.one_pos _
  have hfactor : j.factor = binary64.ofNat 1 := by rw [← hj, convJob, decode_one_word]
  have hbias : j.bias = .fin false 0 := by rw [← hj]; rfl
  have hchannel : ∀ chan : Word → Nat, (∀ c, chan c ≤ 255) →
      outChan (j.accumulate m chan x y) j.factor j.bias = some (chan (m.pix src (y * w + x))) := by
    intro chan hchan
    rw [hfactor, hbias, ConvJob.accumulate_unit (by rw [← hj]; rfl) (by rw [← hj]; rfl) hweight m hchan
      (by rw [← hj]; exact hx) (by rw [← hj]; exact hy), outChan_unit (hchan _), ← hj]
    rfl
  rw [ConvJob.pixel_eq_some (hchannel ch0 ch0_le) (hchannel ch1 ch1_le) (hchannel ch2 ch2_le), pack3_channels]

end Sys2Proof.Machine
end

section
/-! PROOFS. CONV from validation to its end (44_convolution.md R200, R203, R206, R207): the checks of its operands in order, and
with legal operands and every access allowed the filtered image or the first pixel with a NaN channel. -/

namespace Sys2Proof.Machine

section Conv

variable {s : State} {dst src kernel : Word} {w h kw kh : Nat} {factor bias : DWord}

/-! ### KERNEL_SIZE (R203) -/

theorem kernelSizeCheck_elements (hbig : 1024 < kw * kh) : kernelSizeCheck w h kw kh = some ⟨.kernelSize, 0⟩ := if_pos hbig

theorem kernelSizeCheck_width (hfits : kw * kh ≤ 1024) (hwide : w < kw / 2) :
    kernelSizeCheck w h kw kh = some ⟨.kernelSize, 1⟩ :=
  (if_neg hfits.not_gt).trans (if_pos hwide)

theorem kernelSizeCheck_height (hfits : kw * kh ≤ 1024) (hnarrow : kw / 2 ≤ w) (hhigh : h < kh / 2) :
    kernelSizeCheck w h kw kh = some ⟨.kernelSize, 2⟩ :=
  (if_neg hfits.not_gt).trans ((if_neg hnarrow.not_gt).trans (if_pos hhigh))

theorem sizesCheck_conv_of_dim {r : Raised} (hr : dimCheck 0 [w, h, kw, kh] = some r) :
    sizesCheck (.conv dst src w h kernel kw kh factor bias) = some r := by
  rw [sizesCheck, hr, orElse_some_left]

theorem sizesCheck_conv_of_extents (hextents : 1 ≤ w ∧ 1 ≤ h ∧ 1 ≤ kw ∧ 1 ≤ kh) :
    sizesCheck (.conv dst src w h kernel kw kh factor bias) = kernelSizeCheck w h kw kh := by
  have hpass : dimCheck 0 [w, h, kw, kh] = none := by simpa [dimCheck_eq_none_iff] using hextents
  rw [sizesCheck, hpass, orElse_none_left]

theorem alignedAddresses_conv_aligned (hsrc : src.toNat % 4 = 0) (hdst : dst.toNat % 4 = 0) (hkernel : kernel.toNat % 8 = 0) :
    ∀ p ∈ alignedAddresses (.conv dst src w h kernel kw kh factor bias), p.1.toNat % p.2 = 0 := by
  simp [alignedAddresses, hsrc, hdst, hkernel]

/-! ### The kernel read (R207) -/

/-- Legal operands leave only NONFINITE to check. -/
theorem validate_conv_legal (hlegal : ConvLegal s dst src w h kernel kw kh) :
    validate s (.conv dst src w h kernel kw kh factor bias) = nonfiniteCheck s kernel kw kh factor bias := by
  refine validate_of_legal (by simp) hlegal.notAtTop
    (alignedAddresses_conv_aligned hlegal.srcAligned hlegal.dstAligned hlegal.kernelAligned)
    ⟨hlegal.extents, hlegal.elements, hlegal.fits⟩ ?range ?overlap
  case range => simpa [regionsOf, regionTable] using ⟨hlegal.srcInRange, hlegal.kernelInRange, hlegal.dstInRange⟩
  case overlap =>
    rintro (hmeets | ⟨hmeets, houtside⟩)
    · exact Bool.eq_false_iff.mp hlegal.kernelApart ((Region.overlaps_iff_meets _ _).mpr hmeets)
    · rcases hlegal.imagesApart with hapart | hinPlace
      · exact Bool.eq_false_iff.mp hapart ((Region.overlaps_iff_meets _ _).mpr hmeets)
      · exact houtside hinPlace

theorem isFinite_decode_eq_false {b : DWord} (hb : ¬finiteBits b) : (binary64.decode b.toNat).isFinite = false :=
  Bool.eq_false_iff.mpr (mt (isFinite_decode_iff b).mp hb)

theorem nonfiniteCheck_factor (hf : ¬finiteBits factor) :
    nonfiniteCheck s kernel kw kh factor bias = some ⟨.nonfinite, 0xFFFFFFFF⟩ := by
  rw [nonfiniteCheck, isFinite_decode_eq_false hf]
  rfl

theorem nonfiniteCheck_bias (hf : finiteBits factor) (hb : ¬finiteBits bias) :
    nonfiniteCheck s kernel kw kh factor bias = some ⟨.nonfinite, 0xFFFFFFFE⟩ := by
  rw [nonfiniteCheck, (isFinite_decode_iff factor).mpr hf, isFinite_decode_eq_false hb]
  rfl

/-- With factor and bias finite and the first `k` weights read and finite, the `k`-th weight is checked next. -/
theorem nonfiniteCheck_weight (hf : finiteBits factor) (hb : finiteBits bias) {k : Nat} (hk : k < kw * kh)
    (hbefore : ∀ i < k, s.platform.memOk (readRec kernel i) = true ∧ finiteBits (s.mem.read64 (recAddr kernel i))) :
    ∃ rest, nonfiniteCheck s kernel kw kh factor bias = weightsCheck s kernel (k :: rest) := by
  obtain ⟨n, hn⟩ : ∃ n, kw * kh = k + (n + 1) := ⟨kw * kh - k - 1, by omega⟩
  have hpass : weightsCheck s kernel (List.range k) = none := (weightsCheck_eq_none_iff s kernel _).mpr fun i hi =>
    (hbefore i (List.mem_range.mp hi)).imp_right (isFinite_decode_iff _).mpr
  have hsplit : List.range (kw * kh) = List.range k ++ k :: (List.range n).map (k + ·.succ) := by
    rw [hn, List.range_add, List.range_succ_eq_map, List.map_cons, List.map_map]
    rfl
  refine ⟨(List.range n).map (k + ·.succ), ?_⟩
  rw [nonfiniteCheck, (isFinite_decode_iff factor).mpr hf, (isFinite_decode_iff bias).mpr hb, hsplit]
  exact weightsCheck_append hpass _

theorem weightsCheck_refused {k : Nat} (hread : s.platform.memOk (readRec kernel k) = false) (rest : List Nat) :
    weightsCheck s kernel (k :: rest) = some ⟨.bus, BitVec.ofNat 32 (recAddr kernel k)⟩ := by
  rw [weightsCheck, hread]
  rfl

theorem weightsCheck_nonfinite {k : Nat} (hread : s.platform.memOk (readRec kernel k) = true)
    (hweight : ¬finiteBits (s.mem.read64 (recAddr kernel k))) (rest : List Nat) :
    weightsCheck s kernel (k :: rest) = some ⟨.nonfinite, BitVec.ofNat 32 (recAddr kernel k)⟩ := by
  rw [weightsCheck, if_pos hread, Memory.readF64, isFinite_decode_eq_false hweight]
  rfl

/-! ### Execution past validation (R206) -/

theorem validate_conv_finite (hlegal : ConvLegal s dst src w h kernel kw kh) (hfinite : ConvFinite s kernel kw kh factor bias) :
    validate s (.conv dst src w h kernel kw kh factor bias) = none := by
  rw [validate_conv_legal hlegal, nonfiniteCheck_eq_none_iff]
  exact ⟨hfinite.factor, hfinite.bias, fun k hk => ⟨hfinite.reads k hk, hfinite.weights k hk⟩⟩

theorem exec_conv_done {m : Memory} (hvalid : validate s (.conv dst src w h kernel kw kh factor bias) = none)
    (hrun : (convJob s.mem dst src w h kernel kw kh factor bias).run s.platform s.mem = .done m) :
    exec (.conv dst src w h kernel kw kh factor bias) s = .next { s with mem := m }.advance := by
  have hcheck : checkConv s dst src w h kernel kw kh factor bias = none := hvalid
  simp only [exec, execConv, hcheck, hrun]

theorem exec_conv_numeric {addr : Word} (hvalid : validate s (.conv dst src w h kernel kw kh factor bias) = none)
    (hrun : (convJob s.mem dst src w h kernel kw kh factor bias).run s.platform s.mem = .numeric addr) :
    exec (.conv dst src w h kernel kw kh factor bias) s
      = .next ((s.havoc (writtenRegions (.conv dst src w h kernel kw kh factor bias))).raise ⟨.numeric, addr⟩) := by
  have hcheck : checkConv s dst src w h kernel kw kh factor bias = none := hvalid
  simp only [exec, execConv, hcheck, hrun]

/-- In place with a 1x1 kernel a pixel reads itself, before it is written. -/
theorem ConvJob.readsAhead_of_inPlace {j : ConvJob} (hkw : j.kw = 1) (hkh : j.kh = 1) (heq : j.src = j.dst) (m : Memory) :
    j.readsAhead m := by
  intro k hk m' hm'
  obtain ⟨hx, hy⟩ := pixel_coords_lt hk
  refine ConvJob.pixel_congr fun f hf => ?_
  rw [ConvJob.tapIndex_single hkw hkh hx hy f hf, pixel_coords_index]
  exact pix_eq_of_apart (.inl heq) hk hm'

/-- The two forms R86 allows read every pixel of the image as it was. -/
theorem readsAhead_convJob (hlegal : ConvLegal s dst src w h kernel kw kh) (m : Memory) :
    (convJob m dst src w h kernel kw kh factor bias).readsAhead m := by
  obtain ⟨hw, hh, -, -⟩ := hlegal.extents
  rcases hlegal.imagesApart with hapart | ⟨hkw, hkh, heq⟩
  · exact ConvJob.readsAhead_of_disjoint (j := convJob m dst src w h kernel kw kh factor bias) hw hh hapart m
  · exact ConvJob.readsAhead_of_inPlace (j := convJob m dst src w h kernel kw kh factor bias) hkw hkh heq m

end Conv

/-- Settles O18: with legal operands only NONFINITE is left, and each clause names the first of its conditions that fails. -/
theorem nonfiniteChecksInOrder : Obligations.NonfiniteChecksInOrder := by
  intro s dst src w h kernel kw kh factor bias hlegal
  have hfault : ∀ {r}, nonfiniteCheck s kernel kw kh factor bias = some r →
      ∃ t, exec (.conv dst src w h kernel kw kh factor bias) s = .next t ∧ s.faulted r.cause.code r.info t := fun hr =>
    exec_faulted ((validate_conv_legal hlegal).trans hr)
  refine ⟨fun hf => hfault (nonfiniteCheck_factor hf), fun hf hb => hfault (nonfiniteCheck_bias hf hb),
    fun hf hb k hk hbefore => ?_⟩
  obtain ⟨rest, hnext⟩ := nonfiniteCheck_weight hf hb hk hbefore
  exact ⟨fun hread => hfault (hnext.trans (weightsCheck_refused hread rest)),
    fun hread hweight => hfault (hnext.trans (weightsCheck_nonfinite hread hweight rest))⟩

/-- Settles O19: the sizes are checked right after ALIGN, and each clause names the first of their checks that fails. -/
theorem kernelGeometryIsChecked : Obligations.KernelGeometryIsChecked := by
  intro s dst src w h kernel kw kh factor bias htop hsrc hdst hkernel
  have hfault : ∀ {r}, sizesCheck (.conv dst src w h kernel kw kh factor bias) = some r →
      ∃ t, exec (.conv dst src w h kernel kw kh factor bias) s = .next t ∧ s.faulted r.cause.code r.info t := fun hr =>
    exec_faulted (validate_of_missized (by simp) htop (alignedAddresses_conv_aligned hsrc hdst hkernel) hr)
  refine ⟨fun k hk hzero hbefore => ?dim, fun hw hh hkw hkh => ?kernelSize⟩
  case dim =>
    have hfirst := dimCheck_first [w, h, kw, kh] 0 k hk hzero hbefore
    rw [Nat.zero_add] at hfirst
    exact hfault (sizesCheck_conv_of_dim hfirst)
  case kernelSize =>
    have hsizes := sizesCheck_conv_of_extents (dst := dst) (src := src) (kernel := kernel) (factor := factor) (bias := bias)
      ⟨hw, hh, hkw, hkh⟩
    exact ⟨fun hbig => hfault (hsizes.trans (kernelSizeCheck_elements hbig)),
      fun hfits hwide => hfault (hsizes.trans (kernelSizeCheck_width hfits hwide)),
      fun hfits hnarrow hhigh => hfault (hsizes.trans (kernelSizeCheck_height hfits hnarrow hhigh))⟩

/-- Settles O37: a validated CONV ends with what `conv_image` makes of the image as it was. -/
theorem convFiltersEveryPixel : Obligations.ConvFiltersEveryPixel := by
  intro s dst src w h kernel kw kh factor bias hlegal hfinite hallow hsome
  obtain ⟨m, hrun, hwords, hframe⟩ := ConvJob.run_done (readsAhead_convJob hlegal s.mem) hallow hsome
  exact ⟨_, exec_conv_done (validate_conv_finite hlegal hfinite) hrun, rfl, hwords, hframe⟩

/-- Settles O38: a validated CONV whose `conv_image` meets a NaN raises NUMERIC there, the destination unspecified. -/
theorem convNanRaisesNumeric : Obligations.ConvNanRaisesNumeric := by
  intro s dst src w h kernel kw kh factor bias x y hlegal hfinite hallow hx hy hnone hbefore
  have hrun := ConvJob.run_numeric (readsAhead_convJob hlegal s.mem) hallow hx hy hbefore hnone
  exact ⟨_, exec_conv_numeric (validate_conv_finite hlegal hfinite) hrun, s.sameOutside_havoc [pixRegion dst (w * h)], rfl⟩

end Sys2Proof.Machine
end

section
/-! PROOFS. The faults of 60_exceptions.md: what raising one leaves (R245), the precise ones of fetch, decode and validation (R246),
the imprecise BUS of a validated command with a refused access (R247), and the restart of the list after one (R248). -/

namespace Sys2Proof.Machine

/-! ### A fault raised (R245) -/

/-- With an error pending `irq` is up when DONE or the error itself may raise it (R255). -/
theorem State.irq_of_err {s : State} (h : s.err = true) : s.irq = ((s.done && s.doneIe) || s.errIe) := by
  rw [State.irq, h, Bool.true_and]

/-- Settles O14: the fields by what raising writes, the step by the core being stopped. -/
theorem raiseRecordsTheFault : Obligations.RaiseRecordsTheFault := by
  intro s r
  refine ⟨rfl, rfl, rfl, rfl, rfl, rfl, rfl, rfl, rfl, rfl, rfl, State.irq_of_err (s.raise_err r), fun hturns => ?_⟩
  have hturns' : (s.raise r).turns = [] := hturns
  rw [step_of_no_turns hturns', coreTurn_stopped (s.raise_busy r)]

/-! ### Precise faults (R246) -/

/-- Validation does not see the descriptor latch. -/
theorem validate_withDesc (s : State) (d : Desc) (i : Instr) : validate { s with desc := d } i = validate s i :=
  SameInputs.validate_eq (s := { s with desc := d }) (s' := s) ⟨rfl, rfl, rfl, rfl, rfl, rfl, rfl⟩ i

/-- What validation finds wrong with the fetched command is the fault the step leaves, precisely. -/
theorem step_validate_fault {s : State} {d : Desc} {i : Instr} {r : Raised} (hturns : s.turns = []) (hb : s.busy = true)
    (hf : fetch s = .ok d) (hd : decode d = .ok i) (hv : validate s i = some r) :
    ∃ t, step s = .next t ∧ s.faulted r.cause.code r.info t := by
  rw [step_runs hturns hb hf hd]
  exact exec_faulted ((validate_withDesc s d i).trans hv)

/-- Settles O15, by the three places a precise fault comes from. -/
theorem preciseFaultsChangeNothingElse : Obligations.PreciseFaultsChangeNothingElse := fun _ hturns hb =>
  ⟨fun _ hf => step_fetch_fault hturns hb hf, fun _ _ hf hd => step_decode_fault hturns hb hf hd,
    fun _ _ _ hf hd hv => step_validate_fault hturns hb hf hd hv⟩

/-! ### The list goes on (R248) -/

/-- While an error is pending the core is stopped and DONE is 0 (R38). -/
theorem State.consistent.flags_pending {s : State} (h : s.consistent) (herr : s.err = true) :
    s.busy = false ∧ s.done = false := by
  obtain ⟨⟨-, hbusy, hdone⟩, -, -⟩ := h
  exact ⟨Bool.eq_false_iff.mpr fun hb => hbusy ⟨hb, herr⟩, Bool.eq_false_iff.mpr fun hd => hdone ⟨hd, herr⟩⟩

/-- CLRERR and START of the stopped core at once (R37). -/
theorem State.writeCtrl_clearAndStart {s : State} (hb : s.busy = false) (hd : s.done = false) :
    s.writeCtrl 5 = { s with err := false, errCode := 0, busy := true } := by
  rw [State.writeCtrl_stopped (by decide) hb]
  simp [hd]

/-- Settles O55: an error pending leaves the core stopped, and the write acts on the stopped core. -/
theorem clearAndStartResumesTheList : Obligations.ClearAndStartResumesTheList := by
  intro s rest hs herr hturns
  obtain ⟨hb, hd⟩ := hs.flags_pending herr
  have hstep : step s = .next ({ s with turns := rest }.writeCtrl 5) := step_regWrite hturns rfl
  rw [hstep, State.writeCtrl_clearAndStart (s := { s with turns := rest }) hb hd]

/-! ### Validation passed -/

/-- ALIAS passes exactly when the command has no overlap that R86 forbids. -/
theorem overlapCheck_eq_none_iff (i : Instr) : overlapCheck i = none ↔ ¬forbiddenOverlap i := by
  refine ⟨fun hnone hf => ?_, overlapCheck_of_not_forbidden⟩
  cases hd : destinationOf i with
  | some dst =>
    rw [overlapCheck_of_forbidden hf hd] at hnone
    cases hnone
  | none =>
    cases i with
    | halt | lutld => exact hf
    | _ => cases hd

/-- Validation passes exactly when each of the checks of R250 does. -/
theorem validate_eq_none_iff {s : State} {i : Instr} (hi : i ≠ .halt) :
    validate s i = none ↔ s.cp ≠ 0xFFFFFFC0 ∧ (∀ p ∈ alignedAddresses i, p.1.toNat % p.2 = 0) ∧ sizesLegal i
      ∧ (∀ r ∈ regionsOf s.platform.lutAddrBits i, r.base + r.size ≤ 2 ^ 32) ∧ ¬forbiddenOverlap i
      ∧ contentsCheck s i = none := by
  rw [validate_eq_checks s hi, regionCheck_eq_table]
  simp only [orElse_eq_none_iff, cpWrapCheck_eq_none_iff, alignCheck_eq_none_iff, sizesCheck_eq_none_iff,
    rangeCheck_eq_none_iff, overlapCheck_eq_none_iff]

section Conv

variable {s : State} {dst src kernel : Word} {w h kw kh : Nat} {factor bias : DWord}

/-- A CONV that passes validation is legal in its operands. -/
theorem convLegal_of_valid (hvalid : validate s (.conv dst src w h kernel kw kh factor bias) = none) :
    ConvLegal s dst src w h kernel kw kh := by
  obtain ⟨htop, halign, ⟨hextents, helements, hfits⟩, hrange, hoverlap, -⟩ := (validate_eq_none_iff (by simp)).mp hvalid
  simp only [alignedAddresses, List.forall_mem_cons] at halign
  simp only [regionsOf, regionTable, List.cons_append, List.nil_append, List.forall_mem_cons] at hrange
  obtain ⟨hsrc, hdst, hkernel, -⟩ := halign
  obtain ⟨hsrcEnd, hkernelEnd, hdstEnd, -⟩ := hrange
  obtain ⟨hkernelApart, himages⟩ := not_or.mp hoverlap
  refine ⟨htop, hsrc, hdst, hkernel, hextents, helements, hfits, hsrcEnd, hkernelEnd, hdstEnd, ?kernel, ?images⟩
  case kernel => exact Bool.eq_false_iff.mpr fun hover => hkernelApart ((Region.overlaps_iff_meets _ _).mp hover)
  case images =>
    by_cases hin : kw = 1 ∧ kh = 1 ∧ src = dst
    · exact .inr hin
    · exact .inl (Bool.eq_false_iff.mpr fun hover => himages ⟨(Region.overlaps_iff_meets _ _).mp hover, hin⟩)

/-- Every kernel read of a CONV that passes validation is allowed (R207). -/
theorem kernelReads_of_valid (hvalid : validate s (.conv dst src w h kernel kw kh factor bias) = none) :
    s.allows ((List.range (kw * kh)).map (readRec kernel)) := by
  obtain ⟨-, -, -, -, -, hcontents⟩ := (validate_eq_none_iff (by simp)).mp hvalid
  obtain ⟨-, -, hweights⟩ := (nonfiniteCheck_eq_none_iff ..).mp hcontents
  intro a ha
  obtain ⟨k, hk, rfl⟩ := List.mem_map.mp ha
  exact (hweights k (List.mem_range.mp hk)).1

end Conv

/-! ### A refused access (R247) -/

/-- The command ends with BUS from a state that holds its unspecified results, and reports one of its refused accesses
(UB2); LUTLD has no table then (R51). -/
def EndsInBus (i : Instr) (s : State) : Prop :=
  ∃ u, Touches i s u ∧ (∀ src, i = .lutld src → u.lutv = false)
    ∧ ∃ a ∈ accessesOf s.platform.lutAddrBits i, s.platform.memOk a = false
      ∧ exec i s = .next (u.raise ⟨.bus, BitVec.ofNat 32 a.addr⟩)

/-- The free choice among the refused accesses of a command is one of them. -/
theorem EndsInBus.of_pick {i : Instr} {s broken : State} {accs : List Access}
    (haccs : ∀ a ∈ accs, a ∈ accessesOf s.platform.lutAddrBits i) (hno : ¬s.allows accs) (hb : Touches i s broken)
    (hlutv : ∀ src, i = .lutld src → broken.lutv = false)
    (hexec : exec i s = .next (broken.raise ⟨.bus, pickWord s.freeCount (s.refused accs)⟩)) : EndsInBus i s := by
  have hne : s.refused accs ≠ [] := mt (s.refused_eq_nil_iff accs).mp hno
  obtain ⟨a, ha, hbad, hinfo⟩ := (s.mem_refused accs _).mp (pickWord_mem s.freeCount hne)
  exact ⟨broken, hb, hlutv, a, haccs a ha, hbad, hinfo ▸ hexec⟩

/-- A command whose end is the shared one and all of whose accesses it looks at. -/
theorem EndsInBus.of_finish {i : Instr} {s finished broken : State}
    (hno : ¬s.allows (accessesOf s.platform.lutAddrBits i)) (hb : Touches i s broken)
    (hlutv : ∀ src, i = .lutld src → broken.lutv = false)
    (hexec : exec i s = finish s (accessesOf s.platform.lutAddrBits i) finished broken) : EndsInBus i s :=
  .of_pick (fun _ ha => ha) hno hb hlutv (hexec.trans (finish_of_refused finished broken hno))

/-- Free bytes and a free OOR after a LERP stopped by BUS (UB1, UB7). -/
theorem Touches.of_lerp_broken (s : State) (dst srcA srcB : Word) (count : Nat) (x : BitVec 32) :
    Touches (.lerp dst srcA srcB count x) s (s.havoc (writtenRegions (.lerp dst srcA srcB count x))).doubtOor :=
  have h : Touches _ s (s.havoc (writtenRegions (.lerp dst srcA srcB count x))) := .of_havoc (by simp)
  ⟨rfl, h.mem, h.lut, h.lutSize, fun hne => absurd rfl (hne dst srcA srcB count x), fun hoor => by simp [State.doubtOor, hoor]⟩

/-- A table of free bytes after a LUTLD stopped by BUS (UB5). -/
theorem Touches.of_lutld_broken (s : State) (src : Word) :
    Touches (.lutld src) s { s with lut := freeLut s.platform s.freeCount, lutv := false } :=
  ⟨rfl, fun _ _ _ _ hs => hs, fun hne => absurd rfl (hne src), fun _ _ => freeLut_length _ _, fun _ => rfl, id⟩

section Resize

variable {s : State} {dst src scratch : Word} {dstW dstH srcW srcH : Nat} {blur : Int}

/-- A refused access of the blur's convolution ends RESIZE with a free choice among all its refused accesses (UB2). -/
theorem exec_resize_refused (hvalid : validate s (.resize dst dstW dstH src srcW srcH blur scratch) = none) (hblur : 0 < blur)
    (hpass : blurPass s.platform dst dstW dstH scratch (resample dst dstW dstH src srcW srcH s.mem) = .bus) :
    exec (.resize dst dstW dstH src srcW srcH blur scratch) s
      = .next ((s.havoc (writtenRegions (.resize dst dstW dstH src srcW srcH blur scratch))).raise
          ⟨.bus, pickWord s.freeCount
            (s.refused (resampleAccesses dst dstW dstH src srcW srcH ++ blurAccesses dst dstW dstH scratch))⟩) := by
  have hcheck : checkResize s dst dstW dstH src srcW srcH blur scratch = none := hvalid
  simp only [exec, execResize, hcheck, blurs_iff, if_pos hblur, hpass]

/-- RESIZE with a refused access: both of its ends, with the memory of the passes and without, are the same BUS. -/
theorem resize_endsInBus (hvalid : validate s (.resize dst dstW dstH src srcW srcH blur scratch) = none)
    (hno : ¬s.allows (accessesOf s.platform.lutAddrBits (.resize dst dstW dstH src srcW srcH blur scratch))) :
    EndsInBus (.resize dst dstW dstH src srcW srcH blur scratch) s := by
  have hbroken : Touches (.resize dst dstW dstH src srcW srcH blur scratch) s _ := .of_havoc (by simp)
  by_cases hblur : 0 < blur
  · have haccs : accessesOf s.platform.lutAddrBits (.resize dst dstW dstH src srcW srcH blur scratch)
        = resampleAccesses dst dstW dstH src srcW srcH ++ blurAccesses dst dstW dstH scratch := by
      rw [accessesOf, if_pos ((blurs_iff blur).mpr hblur)]
    cases hpass : blurPass s.platform dst dstW dstH scratch (resample dst dstW dstH src srcW srcH s.mem) with
    | done m => exact .of_finish hno hbroken nofun (haccs ▸ exec_resize_blurred hvalid hblur hpass)
    | bus => exact .of_pick (fun _ ha => ha) hno hbroken nofun (haccs ▸ exec_resize_refused hvalid hblur hpass)
    | numeric addr => exact absurd hpass (ConvJob.run_ne_numeric (pixel_blurJob_isSome dst dstW dstH scratch) _ _ addr)
  · have haccs : accessesOf s.platform.lutAddrBits (.resize dst dstW dstH src srcW srcH blur scratch)
        = resampleAccesses dst dstW dstH src srcW srcH := by
      rw [accessesOf, if_neg (mt (blurs_iff blur).mp hblur), List.append_nil]
    exact .of_finish hno hbroken nofun (haccs ▸ exec_resize_plain hvalid hblur)

end Resize

section Conv

variable {s : State} {dst src kernel : Word} {w h kw kh : Nat} {factor bias : DWord}

/-- The accesses of CONV do not depend on the weights. -/
theorem accessesOf_conv (L : Nat) (m : Memory) :
    accessesOf L (.conv dst src w h kernel kw kh factor bias)
      = (List.range (kw * kh)).map (readRec kernel) ++ (convJob m dst src w h kernel kw kh factor bias).accesses := by
  simp only [accessesOf, ConvJob.accesses, ConvJob.tapReads, ConvJob.taps, ConvJob.tapIndex, convJob]

theorem exec_conv_bus (hvalid : validate s (.conv dst src w h kernel kw kh factor bias) = none)
    (hrun : (convJob s.mem dst src w h kernel kw kh factor bias).run s.platform s.mem = .bus) :
    exec (.conv dst src w h kernel kw kh factor bias) s
      = .next ((s.havoc (writtenRegions (.conv dst src w h kernel kw kh factor bias))).raise
          ⟨.bus, pickWord s.freeCount (s.refused (convJob s.mem dst src w h kernel kw kh factor bias).accesses)⟩) := by
  have hcheck : checkConv s dst src w h kernel kw kh factor bias = none := hvalid
  simp only [exec, execConv, hcheck, hrun]

/-- CONV with a refused access and no NaN: the kernel reads are allowed, so `conv_image` meets the refused one. -/
theorem conv_endsInBus (hvalid : validate s (.conv dst src w h kernel kw kh factor bias) = none)
    (hno : ¬s.allows (accessesOf s.platform.lutAddrBits (.conv dst src w h kernel kw kh factor bias)))
    (hsome : ∀ x y, x < w → y < h → ((convJob s.mem dst src w h kernel kw kh factor bias).pixel s.mem x y).isSome = true) :
    EndsInBus (.conv dst src w h kernel kw kh factor bias) s := by
  rw [accessesOf_conv _ s.mem] at hno
  have himage : ¬s.allows (convJob s.mem dst src w h kernel kw kh factor bias).accesses := fun hallow =>
    hno (List.forall_mem_append.mpr ⟨kernelReads_of_valid hvalid, hallow⟩)
  have hrefused : ∃ a ∈ (convJob s.mem dst src w h kernel kw kh factor bias).accesses, s.platform.memOk a = false := by
    simpa using himage
  have hrun := ConvJob.run_bus (readsAhead_convJob (convLegal_of_valid hvalid) s.mem) hrefused hsome
  exact .of_pick (fun a ha => accessesOf_conv _ s.mem .. ▸ List.mem_append_right _ ha) himage (.of_havoc (by simp)) nofun
    (exec_conv_bus hvalid hrun)

end Conv

/-- A validated command with a refused access ends in BUS, CONV when no channel of its image is a NaN (log 13). -/
theorem endsInBus_of_refused {s : State} {i : Instr} (hvalid : validate s i = none)
    (hno : ¬s.allows (accessesOf s.platform.lutAddrBits i))
    (hsome : ∀ dst src w h kernel kw kh factor bias, i = .conv dst src w h kernel kw kh factor bias → ∀ x y, x < w → y < h →
      ((convJob s.mem dst src w h kernel kw kh factor bias).pixel s.mem x y).isSome = true) : EndsInBus i s := by
  cases i with
  | halt => exact absurd (List.forall_mem_nil _) hno
  | rgb2hsv => exact .of_finish hno (.of_havoc (by simp)) nofun (exec_rgb2hsv_valid hvalid)
  | hsv2rgb => exact .of_finish hno (.of_havoc (by simp)) nofun (exec_hsv2rgb_valid hvalid)
  | lerp => exact .of_finish hno (.of_lerp_broken ..) nofun (exec_lerp_valid hvalid)
  | lutld => exact .of_finish hno (.of_lutld_broken ..) (fun _ _ => rfl) (exec_lutld_valid hvalid)
  | gamma => exact .of_finish hno (.of_havoc (by simp)) nofun (exec_gamma_valid hvalid)
  | resize => exact resize_endsInBus hvalid hno
  | conv => exact conv_endsInBus hvalid hno (hsome _ _ _ _ _ _ _ _ _ rfl)

/-- A fault raised after a command's own changes leaves the registers as R245 says. -/
theorem Touches.faulted_raise {i : Instr} {s u : State} (h : Touches i s u) (r : Raised) :
    ({ s with mem := u.mem, lut := u.lut, lutv := u.lutv, oor := u.oor } : State).faulted r.cause.code r.info (u.raise r) := by
  obtain ⟨m, l, v, o, rfl⟩ : ∃ m l v o, u = { s with mem := m, lut := l, lutv := v, oor := o } := ⟨_, _, _, _, h.rest⟩
  rfl

/-- Settles O21: BUS ends the command, and what it may leave is what the command itself may touch. -/
theorem refusedAccessIsBus : Obligations.RefusedAccessIsBus := by
  intro s i hvalid ⟨b, hb, hrefused⟩ hsome
  have hno : ¬s.allows (accessesOf s.platform.lutAddrBits i) := fun hallow => by simp [hallow b hb] at hrefused
  obtain ⟨u, hu, hlutv, a, ha, hbad, hexec⟩ := endsInBus_of_refused hvalid hno hsome
  exact ⟨_, hexec, hu.sameOutside, hu.faulted_raise _, hu.lut, hlutv, hu.oor, hu.oorKept, a, ha, hbad, rfl⟩

end Sys2Proof.Machine
end
